-- ==== Sys2Proof/Word.lean ====
section
/-! DEFINITION. The words of the block: stream bytes, bus words, host bus addresses. -/

namespace Sys2Proof

/-- One byte of a stream or of a buffer (rules R33, R35). -/
abbrev Byte := BitVec 8

/-- One 32-bit bus word: a register, a packed pixel or a binary32 pattern (rules R14, R28, R29). -/
abbrev Word := BitVec 32

end Sys2Proof
end

