-- ==== Sys2Proof/Config.lean ====
section
/-! DEFINITION. The implementation parameters of rule R4, and the free values of the model: the values that the
spec calls "unspecified (any value)". A free value is a constant with no body, applied to the number of a draw, so
that no proof can learn what it is. -/

namespace Sys2Proof

/-- P_CONV_ROUND: how the converter rounds (rules R4, R107). -/
inductive ConvRound where
  /-- One rounding of the exact value. -/
  | cr
  /-- Round `m / 255`, then round the scaled result. -/
  | f32Step
deriving DecidableEq, Repr

/-- The implementation parameters of rule R4; PARAM reports them (rule R16). -/
structure Params where
  /-- P_ROWMAX, 1 to 65535. -/
  rowMax : BitVec 16
  /-- P_LENCHK: an adaptive marker whose length differs from LEN is an error. -/
  lenChk : Bool
  /-- P_CONV_ROUND. -/
  convRound : ConvRound
deriving DecidableEq, Repr

/-- The defaults of rule R4. -/
def Params.defaults : Params := { rowMax := 16384, lenChk := false, convRound := .cr }

/-- The legal values of rule R4: P_ROWMAX is at least 1. -/
def Params.legal (p : Params) : Bool := p.rowMax != 0

namespace Config

/-- FREE VALUE: what an unspecified byte of ROWBUF or FBUF holds (rules R32, R83, R128, R129), by draw and bus byte
address. It stays the same until the next draw for that address, so two reads in a row agree (rule R36). -/
opaque bufferByte : Nat → Nat → Byte

/-- FREE VALUE: what a register or field of rule R14 reads as while BUSY = 1, by draw. -/
opaque busyRead : Nat → Word

/-- FREE VALUE: POS after ERR_WRITE (rules R23, R98), by draw. -/
opaque posAfterWriteError : Nat → BitVec 16

end Config

end Sys2Proof
end

