-- ==== Sys2Proof/Machine/State.lean ====
section
/-! DEFINITION. The machine's state, all of it plain data, and its value after reset (rule R32). -/

namespace Sys2Proof.Machine

/-- The sequencer (rule R26). `idle` is the engine's IDLE; the `d` states are the points where the decoder waits for
the input stream (rules R69 to R77), the `e` states are those of rule R95 but for E_IDLE, `convert` is the converter
(rule R103). -/
inductive Fsm where
  /-- IDLE: no command is running (STATUS.BUSY = 0). -/
  | idle
  /-- The peek of a row of adaptive length (rule R70). -/
  | dPeek
  /-- Reading the four bytes after a peeked 2 (rule R71). -/
  | dMark
  /-- Reading a legacy quad (rule R77). -/
  | dQuad
  /-- Reading a plane's control byte (rule R74). -/
  | dCtl
  /-- Reading the value of a run of `n` (rule R75). -/
  | dRun (n : BitVec 7)
  /-- Reading the literals of a span, `left` still to come (rule R76). -/
  | dLit (left : Byte)
  /-- E_RAW. -/
  | eRaw
  /-- E_MARK. -/
  | eMark
  /-- E_SCAN. -/
  | eScan
  /-- E_LITCTL. -/
  | eLitCtl
  /-- E_LITDAT. -/
  | eLitDat
  /-- E_RUNCTL. -/
  | eRunCtl
  /-- E_RUNVAL. -/
  | eRunVal
  /-- E_NEXT. -/
  | eNext
  /-- E_DONE. -/
  | eDone
  /-- CONVERT_ROW. -/
  | convert
deriving DecidableEq, Repr

/-- The sink's answer to one offered byte (rule R45). -/
inductive SinkAnswer where
  | accept
  | fail
deriving DecidableEq, Repr

/-- How the sink answers (rules R45, R60). -/
inductive Sink where
  /-- SINK ACCEPT: every byte is accepted. -/
  | acceptAll
  /-- SINK FAIL AT n: bytes are accepted until `n` are accepted in this command, then the next one fails. It
  stays in force for later commands (log entry 26). -/
  | failAt (n : Nat)
  /-- These answers, in order, and then none until the host gives more. -/
  | answers (as : List SinkAnswer)
deriving DecidableEq, Repr

/-- A bus response (rule R36). -/
inductive Resp where
  | okay
  | slverr
deriving DecidableEq, Repr

/-- What a bus access returned. -/
structure Reply where
  resp : Resp
  data : Word
deriving DecidableEq, Repr

/-- What the host may do (rules R36, R37, R42, R45, R60, R128). -/
inductive HostOp where
  /-- RD: a bus read of `size` bytes. -/
  | read (addr : Word) (size : Nat)
  /-- WR: a bus write of `size` bytes. -/
  | write (addr : Word) (size : Nat) (data : Word)
  /-- PUSH: append bytes to the input stream. -/
  | push (bytes : List Byte)
  /-- END: set the input stream's end. -/
  | endStream
  /-- REOPEN: clear the input stream's end. -/
  | reopen
  /-- SINK: say how the sink answers from now on. -/
  | sink (mode : Sink)
  /-- The sink gives one answer, to the byte on offer or to the next one. -/
  | answer (a : SinkAnswer)
  /-- WAIT: read STATUS until BUSY reads 0. -/
  | wait
  /-- Assert the reset input (log entry 24 where it is asserted already). -/
  | assertReset
  /-- Release the reset input (log entry 24 where it is not asserted). -/
  | releaseReset
deriving DecidableEq, Repr

/-- Whose turn it is: the host's, with what it does, or the engine's. A limited turn lets the engine see only the
first bytes of the input stream. -/
inductive Turn where
  | host (op : HostOp)
  | engine (limit : Option Nat)
deriving DecidableEq, Repr

/-- ROWBUF and FBUF by bus byte address: the bytes that hold a written value, addresses strictly rising. -/
abbrev Memory := List Host.Cell

/-- The state of one instance of the block, with its streams and the host's coming events. -/
structure State where
  /-- The implementation parameters, which PARAM reports (rules R4, R16). -/
  params : Params
  /-- The reset input is asserted (rule R128). -/
  inReset : Bool
  /-- CTRL.IE (rule R17). -/
  ie : Bool
  /-- CMD (rule R18). -/
  cmd : Word
  /-- STATUS.DONE (rule R19). -/
  done : Bool
  /-- STATUS.ERR (rule R19). -/
  err : Bool
  /-- STATUS.PREV_VALID (rules R19, R24). -/
  prevValid : Bool
  /-- STATUS.ERRCODE (rules R19, R113). -/
  errcode : BitVec 4
  /-- STATUS.PATH (rule R19). -/
  path : BitVec 2
  /-- STATUS.PLANE (rule R19). -/
  plane : BitVec 2
  /-- INCOUNT (rule R21). -/
  incount : Word
  /-- OUTCOUNT (rule R22). -/
  outcount : Word
  /-- POS (rule R23). -/
  pos : BitVec 16
  /-- PREVPIX (rule R24). -/
  prevpix : Word
  /-- I (rule R26). -/
  i : BitVec 16
  /-- J (rule R26). -/
  j : BitVec 16
  /-- PL (rule R26). -/
  pl : BitVec 2
  /-- SHIFT, saturating at 16 (rules R26, R27). -/
  shift : BitVec 5
  /-- CUR (rule R26). -/
  cur : BitVec 16
  /-- BEG (rule R26). -/
  beg : BitVec 16
  /-- RC (rule R26). -/
  rc : BitVec 7
  /-- LN (rule R26). -/
  ln : BitVec 8
  /-- K (rule R26). -/
  k : BitVec 2
  /-- FSM (rule R26). -/
  fsm : Fsm
  /-- The bytes already consumed of the quad or marker in progress (rules R71, R77). -/
  hold : List Byte
  /-- ROWBUF and FBUF (rules R28, R29). -/
  mem : Memory
  /-- The draw an unlisted buffer byte reads from (the model's own). -/
  memTag : Nat
  /-- The input stream's bytes (rule R42). -/
  q : List Byte
  /-- The input stream's end (rule R42). -/
  ended : Bool
  /-- The byte on offer on the output stream (rules R32, R45). -/
  offer : Option Byte
  /-- How the sink answers (rule R45). -/
  sink : Sink
  /-- The bytes the sink has accepted, in order (rule R45). -/
  sunk : List Byte
  /-- What the last bus access returned (rules R36, R37). -/
  reply : Option Reply
  /-- The events to come (the model's own). -/
  agenda : List Turn
  /-- The number of the next draw of a free value (the model's own). -/
  fresh : Nat
deriving DecidableEq, Repr

/-- Why the machine stops. No instruction stops it: every error of rule R113 is a next state, and so is SLVERR. -/
inductive Fault where
  /-- A host bus access at or above 0x200000, raised by Machine/Bus.lean. "The interconnect does not route it to the
  block, and the spec says nothing of it" (rule R38). Safe: the model goes on nowhere. -/
  | outsideAddressSpace
deriving DecidableEq, Repr

/-- What the machine does not take. -/
inductive Refusal where
  /-- An instruction without a meaning; no arm of exec answers with it. Safe. -/
  | notModelled (mnemonic : String)
  /-- The host appends bytes after it ended the stream, raised by Machine/Bus.lean: not a transition of rule R42.
  Safe. -/
  | pushAfterEnd
  /-- The host clears the stream's end while BUSY = 1, raised by Machine/Bus.lean: not a transition of rule R42 (B13).
  Safe. -/
  | reopenWhileBusy
deriving DecidableEq, Repr

/-- The result of an instruction or a step. -/
abbrev Out := Host.Outcome State Fault Refusal

/-- The machine right after a hard reset (rule R32), with the default parameters (rule R4) and, as the programs of
95_test_vectors.md have it, an empty, unended input stream and a sink that accepts. -/
def State.reset : State where
  params := Params.defaults
  inReset := false
  ie := false
  cmd := 0
  done := false
  err := false
  prevValid := false
  errcode := 0
  path := 0
  plane := 0
  incount := 0
  outcount := 0
  pos := 0
  prevpix := 0
  i := 0
  j := 0
  pl := 0
  shift := 0
  cur := 0
  beg := 0
  rc := 0
  ln := 0
  k := 0
  fsm := .idle
  hold := []
  mem := []
  memTag := 0
  q := []
  ended := false
  offer := none
  sink := .acceptAll
  sunk := []
  reply := none
  agenda := []
  fresh := 1

end Sys2Proof.Machine
end

