-- ==== Sys2Proof/Syntax.lean ====
section
/-! DEFINITION. The instructions of the block: one constructor per row of spec/opcode_table.json, in the table's
order. Four are command words (rules R54 to R58), five are tokens the decoder consumes (rules R61 to R64), two are
tokens the encoder emits (rules R88, R89). -/

namespace Sys2Proof

/-- A command word or a scanline stream token. -/
inductive Instr where
  /-- DECODE_ROW <len>[, FIRST] (rule R69). -/
  | decodeRow (first : Bool) (len : BitVec 16)
  /-- ENCODE_ROW <len> (rule R87). -/
  | encodeRow (len : BitVec 16)
  /-- CONVERT_ROW <len> (rule R103). -/
  | convertRow (len : BitVec 16)
  /-- Any reserved command word (rule R58). -/
  | reservedCmd (w : Word)
  /-- A legacy pixel quad (rule R78). -/
  | lqPixel (r g b e : Byte)
  /-- A legacy run marker `01 01 01 c` (rule R79). -/
  | lqRun (c : Byte)
  /-- The adaptive row marker `02 02 0hhhhhhh llllllll`, consumed (rule R71). -/
  | adpMarker (h : BitVec 7) (l : Byte)
  /-- An adaptive run `1nnnnnnn vvvvvvvv` (rule R75). -/
  | adpRun (n : BitVec 7) (v : Byte)
  /-- An adaptive literal: a count byte and that many data bytes (rule R76). -/
  | adpLit (data : List Byte)
  /-- The adaptive row marker, emitted (rule R89). -/
  | encMarker (h : BitVec 7) (l : Byte)
  /-- One pixel of a raw row, emitted (rule R88). -/
  | rawPixel (r g b e : Byte)
deriving DecidableEq, Repr

end Sys2Proof
end

