-- ==== Sys2Proof/Decode.lean ====
section
/-! DEFINITION. Decoding and encoding. The command word is decoded where it is written (rule R54); a stream byte has a
meaning only by where it stands in a row (rule R66), so the decoder takes the PORT at which the bytes arrive. The
encoder is written from the same encodings (rules R59, R61, R63, R64, R65). -/

namespace Sys2Proof

/-! ### Byte order -/

/-- The bytes of a bus word, lowest address first (rule R35). -/
def wordBytes (w : Word) : List Byte :=
  [w.extractLsb' 0 8, w.extractLsb' 8 8, w.extractLsb' 16 8, w.extractLsb' 24 8]

/-- The bus word whose bytes, lowest address first, are `b0 b1 b2 b3` (rule R35). It is also the packed pixel with
R = `b0`, G = `b1`, B = `b2`, E = `b3` (rule R28). -/
def wordOfBytes (b0 b1 b2 b3 : Byte) : Word := b3 ++ b2 ++ b1 ++ b0

/-! ### The command word (rule R54) -/

/-- OP, bits 31:28. -/
def cmdOp (w : Word) : BitVec 4 := w.extractLsb' 28 4

/-- The reserved field, bits 27:17. -/
def cmdReservedBits (w : Word) : BitVec 11 := w.extractLsb' 17 11

/-- FIRST, bit 16. -/
def cmdFirst (w : Word) : Bool := w.getLsbD 16

/-- LEN, bits 15:0. -/
def cmdLen (w : Word) : BitVec 16 := w.extractLsb' 0 16

/-- A word with its reserved bits 0 (rule R54). -/
def cmdWord (op : BitVec 4) (first : Bool) (len : BitVec 16) : Word :=
  op ++ 0#11 ++ BitVec.ofBool first ++ len

/-- A reserved command word (rule R58). -/
def isReserved (w : Word) : Bool :=
  !(cmdOp w == 1 || cmdOp w == 2 || cmdOp w == 3) || cmdReservedBits w != 0 || (cmdFirst w && cmdOp w != 1)

/-- The command a word names (rules R55, R57, R58). -/
def decodeCmd (w : Word) : Instr :=
  if isReserved w then .reservedCmd w
  else if cmdOp w = 1 then .decodeRow (cmdFirst w) (cmdLen w)
  else if cmdOp w = 2 then .encodeRow (cmdLen w)
  else .convertRow (cmdLen w)

/-! ### The stream tokens -/

/-- A legacy quad; LQ_RUN takes precedence (rule R61). -/
def decodeQuad (b0 b1 b2 b3 : Byte) : Instr :=
  if b0 = 1 ∧ b1 = 1 ∧ b2 = 1 then .lqRun b3 else .lqPixel b0 b1 b2 b3

/-- The four bytes read at the marker position: the adaptive row marker, or else the first pixel of a fallback row
(rules R66, R71, R72). -/
def decodeMarker (b0 b1 b2 b3 : Byte) : Instr :=
  if b0 = 2 ∧ b1 = 2 ∧ b2.getLsbD 7 = false then .adpMarker (b2.extractLsb' 0 7) b3 else .lqPixel b0 b1 b2 b3

/-- The length a marker carries (rule R63). -/
def markerLength (h : BitVec 7) (l : Byte) : Nat := h.toNat * 256 + l.toNat

/-- Is a control byte a run (rule R64: above 128)? -/
def isRunControl (c : Byte) : Bool := 128 < c.toNat

/-- The run length of a control byte (rule R64: `c & 127`). -/
def runCount (c : Byte) : BitVec 7 := c.extractLsb' 0 7

/-- The control byte of a run of length `n` (rules R64, R94). -/
def runControl (n : BitVec 7) : Byte := 1#1 ++ n

/-- Where bytes meet the block. -/
inductive Port where
  /-- The CMD register. -/
  | command
  /-- The input stream inside the legacy loop (rule R77). -/
  | quad
  /-- The input stream after a peeked 2 (rule R71). -/
  | marker
  /-- The input stream inside a plane (rule R74). -/
  | plane
  /-- The output stream of a raw row (rule R88). -/
  | rawOut
  /-- The output stream at the start of an adaptive row (rule R89). -/
  | markerOut
deriving DecidableEq, Repr

/-- Why bytes are not decoded. -/
inductive DecodeError where
  /-- The bytes end before the instruction does. -/
  | incomplete
  /-- Not the marker of a row of 8 to 32767 pixels, so never emitted (rule R89). -/
  | notEmitted
deriving DecidableEq, Repr

/-- The emitted marker's decoding: `02 02` and a length of 8 to 32767 (rules R63, R89). -/
def decodeMarkerOut (b0 b1 b2 b3 : Byte) : Except DecodeError Instr :=
  if b0 = 2 ∧ b1 = 2 ∧ b2.getLsbD 7 = false ∧ 8 ≤ b2.toNat * 256 + b3.toNat
  then .ok (.encMarker (b2.extractLsb' 0 7) b3) else .error .notEmitted

/-- A plane token (rule R64). -/
def decodePlane : List Byte → Except DecodeError (Instr × List Byte)
  | [] => .error .incomplete
  | c :: rest =>
    if isRunControl c then
      match rest with
      | [] => .error .incomplete
      | v :: rest' => .ok (.adpRun (runCount c) v, rest')
    else if c.toNat ≤ rest.length then .ok (.adpLit (rest.take c.toNat), rest.drop c.toNat)
    else .error .incomplete

/-- The decoder: the instruction at the head of the bytes at a port, and the bytes after it. -/
def decode (p : Port) (bytes : List Byte) : Except DecodeError (Instr × List Byte) :=
  match p with
  | .plane => decodePlane bytes
  | .command | .quad | .marker | .rawOut | .markerOut =>
    match bytes with
    | b0 :: b1 :: b2 :: b3 :: rest =>
      match p with
      | .command => .ok (decodeCmd (wordOfBytes b0 b1 b2 b3), rest)
      | .quad => .ok (decodeQuad b0 b1 b2 b3, rest)
      | .marker => .ok (decodeMarker b0 b1 b2 b3, rest)
      | .rawOut => .ok (.rawPixel b0 b1 b2 b3, rest)
      | .markerOut => (decodeMarkerOut b0 b1 b2 b3).map (fun i => (i, rest))
      | .plane => .error .incomplete
    | _ => .error .incomplete

/-- The instruction decoded at a port, if the bytes hold a whole one. -/
def decodedInstr (p : Port) (bytes : List Byte) : Option Instr :=
  match decode p bytes with
  | .ok (i, _) => some i
  | .error _ => none

/-! ### The encoder -/

/-- The port at which an instruction stands. -/
def Instr.port : Instr → Port
  | .decodeRow _ _ => .command
  | .encodeRow _ => .command
  | .convertRow _ => .command
  | .reservedCmd _ => .command
  | .lqPixel _ _ _ _ => .quad
  | .lqRun _ => .quad
  | .adpMarker _ _ => .marker
  | .adpRun _ _ => .plane
  | .adpLit _ => .plane
  | .encMarker _ _ => .markerOut
  | .rawPixel _ _ _ _ => .rawOut

/-- The bytes of an instruction in the order the hardware has them: a command word little-endian as on the bus, a
stream token in stream order (rules R35, R46, R59, R61, R63, R64, R65). -/
def encode : Instr → List Byte
  | .decodeRow first len => wordBytes (cmdWord 1 first len)
  | .encodeRow len => wordBytes (cmdWord 2 false len)
  | .convertRow len => wordBytes (cmdWord 3 false len)
  | .reservedCmd w => wordBytes w
  | .lqPixel r g b e => [r, g, b, e]
  | .lqRun c => [1, 1, 1, c]
  | .adpMarker h l => [2, 2, 0#1 ++ h, l]
  | .adpRun n v => [runControl n, v]
  | .adpLit data => BitVec.ofNat 8 data.length :: data
  | .encMarker h l => [2, 2, 0#1 ++ h, l]
  | .rawPixel r g b e => [r, g, b, e]

/-! ### The opcode table's numbering

The table numbers a command word as the 32-bit word, and a stream token with its FIRST byte in the highest bits
(rule R61's `01 01 01 c` has `c` in bits 7:0). Rows of the two families share numbers, so a number is read as the
row with the most fixed bits; log entry 21 says which rows this leaves out. -/

/-- The port a table word is meant for: 8 and 16 bits are plane tokens; of 32 bits, `01 01 01 c` is LQ_RUN,
`02 02 0h l` is ADP_MARKER, every other word is a command word. -/
def tablePort (nbits w : Nat) : Port :=
  if nbits = 32 then
    if w / 2 ^ 8 = 0x010101 then .quad else if w / 2 ^ 15 = 0x404 then .marker else .command
  else .plane

/-- The `n` bytes of a number, highest first. -/
def bigEndianBytes : Nat → Nat → List Byte
  | 0, _ => []
  | n + 1, w => BitVec.ofNat 8 (w / 256 ^ n) :: bigEndianBytes n w

/-- A table word laid out as the hardware stores it, every bit above the row's bits 0. -/
def tableBytes (nbits w : Nat) : List Byte :=
  match tablePort nbits w with
  | .command => wordBytes (BitVec.ofNat 32 w)
  | _ => bigEndianBytes (nbits / 8) w ++ List.replicate 128 0

/-- The instruction the decoder reads from a table word. -/
def decodeTableWord (nbits w : Nat) : Option Instr :=
  if nbits = 8 ∨ nbits = 16 ∨ nbits = 32 then decodedInstr (tablePort nbits w) (tableBytes nbits w) else none

end Sys2Proof
end

