-- ==== Sys2Proof/WellFormed.lean ====
section
/-! DEFINITION. Well-formed instructions: the conditions the opcode table puts on a row's fields, beyond what their
types say. -/

namespace Sys2Proof

/-- Is the instruction one its row of the table admits? A command's LEN is any 16-bit number: out of range it is legal
in form and fails with ERR_BADLEN (rule R58). -/
def Instr.wf : Instr → Bool
  | .decodeRow _ _ => true
  | .encodeRow _ => true
  | .convertRow _ => true
  | .reservedCmd w => isReserved w
  | .lqPixel r g b _ => !(r == 1 && g == 1 && b == 1)
  | .lqRun _ => true
  | .adpMarker _ _ => true
  | .adpRun n _ => n != 0
  | .adpLit data => decide (data.length ≤ 128)
  | .encMarker h l => decide (8 ≤ markerLength h l)
  | .rawPixel _ _ _ _ => true

end Sys2Proof
end

