-- ==== Sys2Proof/Machine/Operands.lean ====
section
/-! DEFINITION. The operands of commands and bus accesses: LEN, the path a row takes, and the address map. -/

namespace Sys2Proof.Machine

/-! ### The running command -/

/-- STATUS.BUSY: the engine is not IDLE (rules R19, R26). -/
def State.busy (s : State) : Bool := s.fsm != .idle

/-- LEN of the command in CMD, 16 bits (rule R56). -/
def State.lenField (s : State) : BitVec 16 := cmdLen s.cmd

/-- LEN as a number of pixels (rule R56). -/
def State.len (s : State) : Nat := s.lenField.toNat

/-- Is a row of this length an adaptive one, 8 to 32767 (rules R66, R70, R87)? -/
def adaptiveLen (n : Nat) : Bool := decide (8 ≤ n ∧ n ≤ 32767)

/-- Is LEN outside 1 to P_ROWMAX (rules R56, R115)? -/
def badLen (p : Params) (len : BitVec 16) : Bool := decide (len.toNat = 0 ∨ p.rowMax.toNat < len.toNat)

/-! ### Error codes (rule R113) -/

def errEos : BitVec 4 := 1
def errOverrun : BitVec 4 := 2
def errNoPrev : BitVec 4 := 3
def errLenMismatch : BitVec 4 := 4
def errWrite : BitVec 4 := 5
def errBadLen : BitVec 4 := 6
def errBadOp : BitVec 4 := 7

/-! ### The PATH field (rule R19) -/

def pathNone : BitVec 2 := 0
def pathLegacy : BitVec 2 := 1
def pathAdaptive : BitVec 2 := 2
def pathFallback : BitVec 2 := 3

/-- PLANE at a successful end: 3 on the adaptive path, else 0 (rules R82, R99). -/
def finalPlane (path : BitVec 2) : BitVec 2 := if path = pathAdaptive then 3 else 0

/-! ### Buffer addresses -/

/-- The bus address of byte `p` of pixel `i` of ROWBUF (rules R35, R39). -/
def rowAddr (i p : Nat) : Nat := 0x040000 + 4 * i + p

/-- The bus address of byte 0 of word `c` of pixel `i` of FBUF (rule R40). -/
def fbAddr (i c : Nat) : Nat := 0x100000 + 16 * i + 4 * c

/-! ### The address map (rule R38) -/

/-- The registers of rule R14. -/
inductive Reg where
  | id | param | ctrl | cmd | status | incount | outcount | pos | prevpix
deriving DecidableEq, Repr

/-- What an aligned bus address reaches (rules R38 to R40). -/
inductive Target where
  | reg (r : Reg)
  | row (i : Nat)
  | fb (i c : Nat)
  | reserved
deriving DecidableEq, Repr

/-- The register at a word offset (rule R14). -/
def regAt : Nat → Target
  | 0 => .reg .id
  | 1 => .reg .param
  | 2 => .reg .ctrl
  | 3 => .reg .cmd
  | 4 => .reg .status
  | 5 => .reg .incount
  | 6 => .reg .outcount
  | 7 => .reg .pos
  | 8 => .reg .prevpix
  | _ => .reserved

/-- The address map (rules R38 to R40). -/
def target (p : Params) (a : Nat) : Target :=
  if a < 0x40000 then regAt (a / 4)
  else if a < 0x80000 then
    if (a - 0x40000) / 4 < p.rowMax.toNat then .row ((a - 0x40000) / 4) else .reserved
  else if a < 0x100000 then .reserved
  else if a < 0x200000 then
    if (a - 0x100000) / 16 < p.rowMax.toNat then .fb ((a - 0x100000) / 16) (a / 4 % 4) else .reserved
  else .reserved

/-- Is the access one aligned 32-bit word (rule R34)? -/
def wordAccess (addr : Word) (size : Nat) : Bool := decide (size = 4 ∧ addr.toNat % 4 = 0)

/-- Does the interconnect route the address to the block (rule R38)? -/
def inAddressSpace (addr : Word) : Bool := decide (addr.toNat < 0x200000)

/-- The bus address of CMD (rule R14). -/
def cmdAddr : Word := 0x00C

/-! ### Register constants -/

/-- ID (rule R15). -/
def idWord : Word := 0x48445231

/-- PARAM (rule R16). -/
def paramWord (p : Params) : Word :=
  0#14 ++ BitVec.ofBool (p.convRound == .f32Step) ++ BitVec.ofBool p.lenChk ++ p.rowMax

/-- Binary32 1.0 (rule R105). -/
def oneWord : Word := 0x3F800000

end Sys2Proof.Machine
end

