-- ==== Sys2Proof/Machine/Flags.lean ====
section
/-! DEFINITION. The flags of rule R25: the STATUS fields as a word, their W1C writes, what acceptance clears, and the
interrupt line. -/

namespace Sys2Proof.Machine

/-- STATUS as the host reads it while the engine is IDLE (rule R19). -/
def idleStatusWord (s : State) : Word :=
  0#20 ++ s.plane ++ s.path ++ s.errcode ++ BitVec.ofBool s.prevValid ++ BitVec.ofBool s.err ++
    BitVec.ofBool s.done ++ 0#1

/-- STATUS as the host reads it while BUSY = 1: BUSY is 1, DONE, ERR and ERRCODE are 0, PREV_VALID, PATH and PLANE
are any value (rule R14), here bits 3 and 11:8 of a free word. -/
def busyStatusWord (free : Word) : Word :=
  0#20 ++ free.extractLsb' 8 4 ++ 0#4 ++ free.extractLsb' 3 1 ++ 0#2 ++ 1#1

/-- POS as a register: bits 31:16 read 0 (rule R23). -/
def posWord (p : BitVec 16) : Word := 0#16 ++ p

/-- CTRL as the host reads it (rule R17). -/
def ctrlWord (ie : Bool) : Word := 0#31 ++ BitVec.ofBool ie

/-- A host write of `v` to STATUS (rule R20). -/
def writeStatus (v : Word) (s : State) : State :=
  { s with
    done := if v.getLsbD 1 then false else s.done
    err := if v.getLsbD 2 then false else s.err
    errcode := if v.getLsbD 2 then 0 else s.errcode }

/-- What acceptance stores and clears before it looks at the word (rule R115). -/
def acceptClear (w : Word) (s : State) : State :=
  { s with
    cmd := w, done := false, err := false, errcode := 0,
    incount := 0, outcount := 0, pos := 0, path := 0, plane := 0 }

/-- IRQ, a level (rules R31, R119). -/
def State.irq (s : State) : Bool := s.ie && (s.done || s.err)

end Sys2Proof.Machine
end

