-- ==== Sys2Proof/Machine/Ops.lean ====
section
/-! DEFINITION. The shared operations: the buffers, the two streams, ending a command (rules R112, R117), the failed
decode (rule R83), the failed encode (rule R98), and the resets (rules R128 to R130). -/

namespace Sys2Proof.Machine

/-! ### Memory -/

/-- The written byte at an address, if there is one. -/
def Memory.get? : Memory → Nat → Option Byte
  | [], _ => none
  | (a, b) :: m, x => if x = a then some b else Memory.get? m x

/-- Write a byte, keeping addresses strictly rising. -/
def Memory.set : Memory → Nat → Byte → Memory
  | [], x, v => [(x, v)]
  | (a, b) :: m, x, v =>
    if x < a then (x, v) :: (a, b) :: m
    else if x = a then (x, v) :: m
    else (a, b) :: Memory.set m x v

/-- All addresses of the memory lie above a bound. -/
def Memory.above : Nat → Memory → Bool
  | _, [] => true
  | lo, (a, _) :: m => decide (lo < a) && Memory.above lo m

/-- The canonical form: addresses strictly rising. An unlisted address has no value of its own, so no entry can be
equal to it. -/
def Memory.wf : Memory → Bool
  | [] => true
  | (a, _) :: m => Memory.above a m && Memory.wf m

/-- What a buffer byte holds: the written byte, or a free value of the draw `memTag` (rules R32, R128). -/
def State.readByte (s : State) (a : Nat) : Byte := (s.mem.get? a).getD (Config.bufferByte s.memTag a)

/-- The word at a bus address (rule R35). -/
def State.readWord (s : State) (a : Nat) : Word :=
  wordOfBytes (s.readByte a) (s.readByte (a + 1)) (s.readByte (a + 2)) (s.readByte (a + 3))

/-- ROW[i] (rule R28). -/
def State.rowPixel (s : State) (i : Nat) : Word := s.readWord (rowAddr i 0)

/-- ROW[i].byte[p] (rule R28). -/
def State.rowByte (s : State) (i p : Nat) : Byte := s.readByte (rowAddr i p)

/-- FB[i][c] (rule R29). -/
def State.fbWord (s : State) (i c : Nat) : Word := s.readWord (fbAddr i c)

/-- Write bytes at an address and up. -/
def Memory.setBytes : List Byte → Nat → Memory → Memory
  | [], _, m => m
  | b :: bs, a, m => Memory.setBytes bs (a + 1) (m.set a b)

/-- Write a word at a bus address (rule R35). -/
def Memory.setWord (m : Memory) (a : Nat) (w : Word) : Memory := Memory.setBytes (wordBytes w) a m

/-- ROW[i], ROW[i+1], ... <- the words. -/
def Memory.setPixels : List Word → Nat → Memory → Memory
  | [], _, m => m
  | w :: ws, i, m => Memory.setPixels ws (i + 1) (m.setWord (rowAddr i 0) w)

/-- ROW[i].byte[p], ROW[i+1].byte[p], ... <- the bytes. -/
def Memory.setPlane (p : Nat) : List Byte → Nat → Memory → Memory
  | [], _, m => m
  | b :: bs, i, m => Memory.setPlane p bs (i + 1) (m.set (rowAddr i p) b)

/-- Make byte `p` of pixel `i` a free value of the draw `tag`, unless the filled set holds it. -/
def Memory.spoilByte (filled : Nat → Nat → Bool) (tag i p : Nat) (m : Memory) : Memory :=
  if filled i p then m else m.set (rowAddr i p) (Config.bufferByte tag (rowAddr i p))

/-- The bytes of ROW[0 .. n-1] outside the filled set become free values of the draw `tag` (rule R83). -/
def Memory.spoil (filled : Nat → Nat → Bool) (tag : Nat) : Nat → Memory → Memory
  | 0, m => m
  | n + 1, m =>
    Memory.spoilByte filled tag n 3 (Memory.spoilByte filled tag n 2 (Memory.spoilByte filled tag n 1
      (Memory.spoilByte filled tag n 0 (Memory.spoil filled tag n m))))

/-! ### The input stream -/

/-- `n` times InGet, where the stream has the bytes (rule R43). -/
def takeBytes (n : Nat) (s : State) : State :=
  { s with q := s.q.drop n, incount := s.incount + BitVec.ofNat 32 n }

/-- Consume what is left of a token of `n` bytes, of which `hold` has the first ones. -/
def takeToken (n : Nat) (s : State) : State :=
  { takeBytes (n - s.hold.length) s with hold := [] }

/-- Consume all that is there of a token that is not complete. -/
def holdBytes (s : State) : State :=
  { takeBytes s.q.length s with hold := s.hold ++ s.q }

/-! ### The end of a command -/

/-- The engine goes to IDLE: no byte is on offer, no token is in progress (rules R26, R112, R117). -/
def toIdle (s : State) : State := { s with fsm := .idle, hold := [], offer := none }

/-- `raise Error(code)` (rule R112). -/
def raiseError (code : BitVec 4) (s : State) : State :=
  toIdle { s with errcode := code, err := true, done := false }

/-- `complete()` (rule R117). -/
def complete (s : State) : State :=
  toIdle { s with done := true, err := false, errcode := 0 }

/-! ### The failed decode (rule R83) -/

/-- The filled set of a legacy or fallback row: pixels below `pos`. -/
def filledLegacy (pos : BitVec 16) (k _q : Nat) : Bool := decide (k < pos.toNat)

/-- The filled set of an adaptive row: all of the planes before `plane`, and `pos` bytes of that one. -/
def filledAdaptive (pos : BitVec 16) (plane : BitVec 2) (k q : Nat) : Bool :=
  decide (q < plane.toNat ∨ (q = plane.toNat ∧ k < pos.toNat))

/-- The state after a failed DECODE_ROW (rules R83, R112). -/
def failDecode (code : BitVec 4) (pos : BitVec 16) (plane : BitVec 2) (filled : Nat → Nat → Bool) (s : State) :
    State :=
  raiseError code
    { s with
      prevValid := false, pos := pos, plane := plane,
      mem := s.mem.spoil filled s.fresh s.len, fresh := s.fresh + 1 }

/-- An error at the peek or the marker: POS and PLANE 0, nothing filled (rule R83). -/
def failMarker (code : BitVec 4) (s : State) : State := failDecode code 0 0 (filledLegacy 0) s

/-- An error on the legacy or fallback path: POS <- I (rule R83). -/
def failLegacy (code : BitVec 4) (s : State) : State := failDecode code s.i 0 (filledLegacy s.i) s

/-- An error on the adaptive path: POS <- J, PLANE <- PL (rule R83). -/
def failAdaptive (code : BitVec 4) (s : State) : State := failDecode code s.j s.pl (filledAdaptive s.j s.pl) s

/-- An InGet or InPeek that finds Q empty: ERR_EOS by `fail` if the stream has ended, else the engine waits
(rule R42). -/
def atEmpty (fail : BitVec 4 → State → State) (s : State) : State :=
  if s.ended then fail errEos s else s

/-! ### The output stream (rule R45) -/

/-- The outcome of offering bytes. -/
inductive Emitted where
  | accepted (s : State)
  | failed (s : State)
  | waiting (s : State)
deriving DecidableEq, Repr

/-- The sink takes a byte. -/
def deliver (b : Byte) (s : State) : State :=
  { s with sunk := s.sunk ++ [b], outcount := s.outcount + 1, offer := none }

/-- `OutPut(b)`: offer a byte and look for the sink's answer (rule R45). DESIGN CHOICE (log entry 26): SINK FAIL AT n stays
in force after the command it fails. -/
def outPut (b : Byte) (s : State) : Emitted :=
  match s.sink with
  | .acceptAll => .accepted (deliver b s)
  | .failAt n => if s.outcount.toNat < n then .accepted (deliver b s) else .failed { s with offer := none }
  | .answers [] => .waiting { s with offer := some b }
  | .answers (.accept :: as) => .accepted (deliver b { s with sink := .answers as })
  | .answers (.fail :: as) => .failed { s with sink := .answers as, offer := none }

/-- Offer bytes one after the other, counting in K the ones accepted before the last (rule R96, E_RAW and E_MARK). -/
def outPutAll : List Byte → State → Emitted
  | [], s => .accepted s
  | [b], s => outPut b s
  | b :: bs, s =>
    match outPut b s with
    | .accepted t => outPutAll bs { t with k := t.k + 1 }
    | .failed t => .failed t
    | .waiting t => .waiting t

/-- A write failure: ERR_WRITE, PLANE <- PL in a plane and 0 elsewhere, POS any value (rule R98). -/
def failEncode (inPlane : Bool) (s : State) : State :=
  raiseError errWrite
    { s with
      plane := if inPlane then s.pl else 0,
      pos := Config.posAfterWriteError s.fresh, fresh := s.fresh + 1 }

/-- Go on with `go` when the bytes were accepted; fail or wait otherwise (rules R96, R98). -/
def afterOutput (inPlane : Bool) (go : State → State) : Emitted → State
  | .accepted t => go t
  | .failed t => failEncode inPlane t
  | .waiting t => t

/-! ### Reset (rules R32, R128 to R130) -/

/-- Every register at its value of rule R32. The streams, the parameters and the buffers stay (rules R129, R130); a byte on
offer is withdrawn. DESIGN CHOICE (log entry 25): an answer the sink has queued and the engine not taken stays queued. -/
def resetRegisters (s : State) : State :=
  toIdle
    { s with
      ie := false, cmd := 0, done := false, err := false, prevValid := false, errcode := 0, path := 0, plane := 0,
      incount := 0, outcount := 0, pos := 0, prevpix := 0,
      i := 0, j := 0, pl := 0, shift := 0, cur := 0, beg := 0, rc := 0, ln := 0, k := 0 }

/-- Both buffers become unspecified: no byte holds a known value, and all read from a new draw (rules R128, R129). -/
def loseBuffers (s : State) : State := { s with mem := [], memTag := s.fresh, fresh := s.fresh + 1 }

/-- The hard reset (rule R128). -/
def hardReset (s : State) : State := resetRegisters (loseBuffers s)

/-- The soft reset: the buffers stay if the engine was IDLE (rule R129). -/
def softReset (s : State) : State := if s.busy then resetRegisters (loseBuffers s) else resetRegisters s

/-! ### The bus's answer -/

/-- The response and data of a bus access (rules R36, R37). -/
def respond (r : Resp) (d : Word) (s : State) : State := { s with reply := some { resp := r, data := d } }

/-- SLVERR: data 0 and no other effect (rule R118). -/
def slverr (s : State) : State := respond .slverr 0 s

end Sys2Proof.Machine
end

