-- ==== Sys2Proof/Machine/Command.lean ====
section
/-! DEFINITION. Command acceptance (rules R18, R58, R115): the meaning of a command word is the host's write of it
to CMD. A write during reset or while BUSY = 1 gets SLVERR and is dropped (rules R128, R132). -/

namespace Sys2Proof.Machine

/-- A write of `w` to CMD: refused on the bus, or accepted with `start` to follow (rules R18, R115). -/
def writeCmd (w : Word) (start : State → State) (s : State) : State :=
  if s.inReset || s.busy then slverr s else respond .okay 0 (start (acceptClear w s))

/-- An acceptance failure: BUSY stays 0 (rule R115). -/
def failAccept (code : BitVec 4) (s : State) : State := { s with errcode := code, err := true }

/-- Start a valid command, or fail with ERR_BADLEN (rule R115). -/
def startIfLen (len : BitVec 16) (start : State → State) (s : State) : State :=
  if badLen s.params len then failAccept errBadLen s else start s

/-- RESERVED_CMD: ERR_BADOP at acceptance (rules R58, R115). -/
def execReservedCmd (w : Word) (s : State) : Out := .next (writeCmd w (failAccept errBadOp) s)

end Sys2Proof.Machine
end

