-- ==== Sys2Proof/Machine/Converter.lean ====
section
/-! DEFINITION. CONVERT_ROW (42_converter.md). Real values are exact fractions `p / q` of natural numbers, in units of
2^-149, the least positive binary32 value, so that a rounded fraction's integer part is its binary32 pattern up to the
exponent. -/

namespace Sys2Proof.Machine

/-! ### binary32 (rules R106, R107) -/

/-- The integer nearest to `p / q`; on a tie the even one (rule R107). -/
def roundEven (p q : Nat) : Nat :=
  if 2 * (p % q) < q then p / q
  else if q < 2 * (p % q) then p / q + 1
  else p / q + p / q % 2

/-- RNE32 of `p / q` units: the binary32 pattern, with gradual underflow (rule R107). With `x = log2 - 23` binary
places below the last fraction bit, the biased exponent is `x + 1` and the 24-bit significand adds its own leading 1.
For values below 2^128, as all are here (rule R108). -/
def rne32 (p q : Nat) : Word :=
  let x := Nat.log2 (p / q) - 23
  BitVec.ofNat 32 (x * 2 ^ 23 + roundEven p (q * 2 ^ x))

/-- The value of a non-negative finite binary32 pattern, in units (rule R106). -/
def unitsOf (w : Word) : Nat :=
  let e := (w.extractLsb' 23 8).toNat
  let f := (w.extractLsb' 0 23).toNat
  if e = 0 then f else (f + 2 ^ 23) * 2 ^ (e - 1)

/-- Channel(m, E) (rules R104, R107, R109). `m/255 * 2^(E-128)` is `m * 2^(E+21) / 255` units. -/
def channel (mode : ConvRound) (m e : Byte) : Word :=
  match mode with
  | .cr => rne32 (m.toNat * 2 ^ (e.toNat + 21)) 255
  | .f32Step => rne32 (unitsOf (rne32 (m.toNat * 2 ^ 149) 255) * 2 ^ e.toNat) (2 ^ 128)

/-! ### The row (rule R103) -/

/-- The four words of a converted pixel: R, G, B, and alpha 1.0 (rules R103, R105). -/
def convertPixel (mode : ConvRound) (w : Word) : List Word :=
  let e := w.extractLsb' 24 8
  [channel mode (w.extractLsb' 0 8) e, channel mode (w.extractLsb' 8 8) e, channel mode (w.extractLsb' 16 8) e, oneWord]

/-- Write FB[i][0..3]. -/
def Memory.setFb (m : Memory) (i : Nat) (ws : List Word) : Memory :=
  Memory.setBytes (ws.flatMap wordBytes) (fbAddr i 0) m

/-- FB[0 .. n-1] from the pixels of `s`, pixel 0 first. -/
def convertPixels (s : State) : Nat → Memory → Memory
  | 0, m => m
  | n + 1, m => (convertPixels s n m).setFb n (convertPixel s.params.convRound (s.rowPixel n))

/-- The first step of CONVERT_ROW (rule R103). -/
def startConvert (s : State) : State := { s with path := pathNone, fsm := .convert }

/-- The rest of CONVERT_ROW; the order of its writes is not observable (rule R103). -/
def convertTurn (s : State) : State :=
  complete { s with mem := convertPixels s s.len s.mem, pos := s.lenField, plane := 0 }

/-- CONVERT_ROW (rules R103, R115). -/
def execConvertRow (len : BitVec 16) (s : State) : Out :=
  .next (writeCmd (cmdWord 3 false len) (startIfLen len startConvert) s)

end Sys2Proof.Machine
end

