-- ==== Sys2Proof/Machine/Decoder.lean ====
section
/-! DEFINITION. DECODE_ROW and the tokens it consumes (40_decoder.md). The meaning of DECODE_ROW is its acceptance and
start (rules R115, R69); the row is then decoded token by token, and each token's meaning consumes its bytes. -/

namespace Sys2Proof.Machine

/-! ### Starting and ending -/

/-- Legacy(0) on the given path: I and SHIFT are 0 (rules R70, R72, R77). -/
def startLegacy (path : BitVec 2) (s : State) : State :=
  { s with path := path, i := 0, shift := 0, fsm := .dQuad, hold := [] }

/-- Adaptive(): plane 0 from its first byte (rule R74). -/
def startAdaptive (s : State) : State :=
  { s with pl := 0, j := 0, fsm := .dCtl }

/-- The first step of DECODE_ROW: the legacy path, or the peek (rules R69, R70). -/
def startDecode (s : State) : State :=
  if adaptiveLen s.len then { s with fsm := .dPeek, hold := [] } else startLegacy pathLegacy s

/-- DecodeFinish() (rule R82). -/
def decodeFinish (s : State) : State :=
  complete
    { s with
      prevpix := s.rowPixel (s.len - 1), prevValid := true, pos := s.lenField, plane := finalPlane s.path }

/-- The legacy loop's test: another quad, or the row is done (rule R77). -/
def closeLegacy (s : State) : State :=
  if s.i.toNat < s.len then { s with fsm := .dQuad } else decodeFinish s

/-- The plane loop's tests: another token of this plane, the next plane, or the row is done (rule R74). -/
def closePlane (s : State) : State :=
  if s.j.toNat < s.len then { s with fsm := .dCtl }
  else if s.pl = 3 then decodeFinish s
  else { s with pl := s.pl + 1, j := 0, fsm := .dCtl }

/-! ### The legacy tokens -/

/-- Write pixels at I and move I past them. -/
def putPixels (ws : List Word) (s : State) : State :=
  { s with mem := s.mem.setPixels ws s.i.toNat, i := s.i + BitVec.ofNat 16 ws.length }

/-- RunSource(): the pixel a run repeats (rule R80). -/
def runSource (s : State) : Option Word :=
  if 0 < s.i.toNat then some (s.rowPixel (s.i.toNat - 1))
  else if s.prevValid then some s.prevpix
  else none

/-- SHIFT rises by 8, held saturated at 16 (rules R27, R81). -/
def raiseShift (s : State) : State :=
  { s with shift := if 16 ≤ s.shift.toNat then 16 else s.shift + 8 }

/-- How often a run marker repeats its pixel (rules R62, R79). -/
def runLength (c : Byte) (s : State) : Nat := c.toNat * 2 ^ s.shift.toNat

/-! ### The adaptive tokens -/

/-- Write bytes of plane PL at J and move J past them. -/
def putPlane (bs : List Byte) (s : State) : State :=
  { s with mem := s.mem.setPlane s.pl.toNat bs s.j.toNat, j := s.j + BitVec.ofNat 16 bs.length }

/-- Would `n` more bytes pass the end of the plane (rules R75, R76)? -/
def overruns (n : Nat) (s : State) : Bool := decide (s.len < s.j.toNat + n)

/-- The run's value byte has been consumed: write the run (rule R75). -/
def finishRun (n : BitVec 7) (v : Byte) (s : State) : State :=
  closePlane (putPlane (List.replicate n.toNat v) s)

/-! ### Meanings -/

/-- DECODE_ROW (rules R69, R115). -/
def execDecodeRow (first : Bool) (len : BitVec 16) (s : State) : Out :=
  .next (writeCmd (cmdWord 1 first len)
    (startIfLen len fun t => startDecode (if first then { t with prevValid := false } else t)) s)

/-- LQ_PIXEL (rule R78). At the marker position the quad is the first pixel of a fallback row (rule R72). -/
def execLqPixel (r g b e : Byte) (s : State) : Out :=
  let t := takeToken 4 s
  let t := if s.fsm = .dMark then startLegacy pathFallback t else t
  .next (closeLegacy { putPixels [wordOfBytes r g b e] t with shift := 0 })

/-- LQ_RUN (rules R79 to R81). -/
def execLqRun (c : Byte) (s : State) : Out :=
  let t := takeToken 4 s
  let n := runLength c t
  if t.len < t.i.toNat + n then .next (failLegacy errOverrun t)
  else if n = 0 then .next (closeLegacy (raiseShift t))
  else
    match runSource t with
    | none => .next (failLegacy errNoPrev t)
    | some w => .next (closeLegacy (raiseShift (putPixels (List.replicate n w) t)))

/-- ADP_MARKER (rules R71, R73). -/
def execAdpMarker (h : BitVec 7) (l : Byte) (s : State) : Out :=
  let t := { takeToken 4 s with path := pathAdaptive }
  if t.params.lenChk && markerLength h l != t.len then .next (failMarker errLenMismatch t)
  else .next (startAdaptive t)

/-- ADP_RUN (rule R75): the overrun check comes before the value byte is consumed. -/
def execAdpRun (n : BitVec 7) (v : Byte) (s : State) : Out :=
  let t := takeBytes 1 s
  if overruns n.toNat t then .next (failAdaptive errOverrun t)
  else .next (finishRun n v (takeBytes 1 t))

/-- ADP_LIT (rule R76): the overrun check comes before any literal is consumed. -/
def execAdpLit (data : List Byte) (s : State) : Out :=
  let t := takeBytes 1 s
  if overruns data.length t then .next (failAdaptive errOverrun t)
  else .next (closePlane (putPlane data (takeBytes data.length t)))

/-! ### The decoder's turns between whole tokens -/

/-- The peek (rule R70): nothing is consumed. -/
def peekTurn (s : State) : State :=
  match s.q with
  | [] => atEmpty failMarker s
  | b :: _ => if b = 2 then { s with fsm := .dMark, hold := [] } else startLegacy pathLegacy s

/-- A quad or marker whose bytes are not all there: take what there is, or fail or wait (rules R42, R43). -/
def partTokenTurn (fail : BitVec 4 → State → State) (s : State) : State :=
  match s.q with
  | [] => atEmpty fail s
  | _ :: _ => holdBytes s

/-- A plane token whose bytes are not all there: consume and check the control byte (rules R75, R76). -/
def controlTurn (s : State) : State :=
  match s.q with
  | [] => atEmpty failAdaptive s
  | c :: _ =>
    let t := takeBytes 1 s
    let n := if isRunControl c then (runCount c).toNat else c.toNat
    if overruns n t then failAdaptive errOverrun t
    else { t with fsm := if isRunControl c then .dRun (runCount c) else .dLit c }

/-- The value byte of a run whose control byte was consumed before (rule R75). -/
def runValueTurn (n : BitVec 7) (s : State) : State :=
  match s.q with
  | [] => atEmpty failAdaptive s
  | v :: _ => finishRun n v (takeBytes 1 s)

/-- More literals of a span whose control byte was consumed before (rule R76). -/
def literalTurn (left : Byte) (s : State) : State :=
  match s.q with
  | [] => atEmpty failAdaptive s
  | _ :: _ =>
    let data := s.q.take left.toNat
    let t := putPlane data (takeBytes data.length s)
    if data.length = left.toNat then closePlane t
    else { t with fsm := .dLit (left - BitVec.ofNat 8 data.length) }

end Sys2Proof.Machine
end

