-- ==== Sys2Proof/Machine/EncodePlane.lean ====
section
/-! DEFINITION. The plane encoding FUNCTION (rules R88 to R94): the bytes ENCODE_ROW emits, as a function of the row.
RunLen is shared with the state machine of Machine/Encoder.lean; that the two agree is rule R97. A plane is given by
its byte at each position. Loops run on fuel, the plane's length, which they never use up. -/

namespace Sys2Proof.Machine

/-- How many of the next `n` bytes from `a` on are equal to `v`, up to the first that is not. -/
def countEqual (f : Nat → Byte) (v : Byte) : Nat → Nat → Nat
  | 0, _ => 0
  | n + 1, a => if f a = v then countEqual f v n (a + 1) + 1 else 0

/-- RunLen(p, beg) (rule R91). -/
def runLen (f : Nat → Byte) (l beg : Nat) : Nat := countEqual f (f beg) (min 127 (l - beg)) beg

/-- FindRun(p, cur) (rule R92): where the next run of 4 or more begins and its length, or `(l, 0)`. -/
def findRun (f : Nat → Byte) (l : Nat) : Nat → Nat → Nat × Nat
  | 0, _ => (l, 0)
  | fuel + 1, beg =>
    if l ≤ beg then (l, 0)
    else if 4 ≤ runLen f l beg then (beg, runLen f l beg)
    else findRun f l fuel (beg + runLen f l beg)

/-- The bytes at positions `a` to `b - 1`. -/
def slice (f : Nat → Byte) (a b : Nat) : List Byte := (List.range (b - a)).map fun k => f (a + k)

/-- Literals of a span (rule R93): chunks of at most 128 bytes, each behind its count. -/
def literals : Nat → List Byte → List Byte
  | _, [] => []
  | 0, _ :: _ => []
  | fuel + 1, b :: bs =>
    BitVec.ofNat 8 (min 128 (bs.length + 1)) :: ((b :: bs).take 128 ++ literals fuel ((b :: bs).drop 128))

/-- The control byte of a run (rule R94). -/
def runControlByte (rc : Nat) : Byte := BitVec.ofNat 8 (128 + rc)

/-- EncodePlane from position `cur` (rule R90). -/
def encodeFrom (f : Nat → Byte) (l : Nat) : Nat → Nat → List Byte
  | 0, _ => []
  | fuel + 1, cur =>
    if l ≤ cur then []
    else
      let run := findRun f l l cur
      literals l (slice f cur run.1) ++
        (if 4 ≤ run.2 then [runControlByte run.2, f run.1] ++ encodeFrom f l fuel (run.1 + run.2) else [])

/-- EncodePlane(p) for a plane of `l` bytes (rule R90). -/
def encodePlane (f : Nat → Byte) (l : Nat) : List Byte := encodeFrom f l l 0

/-- The adaptive row marker of a row of `len` pixels (rule R89). -/
def markerBytes (len : BitVec 16) : List Byte := [2, 2, len.extractLsb' 8 8, len.extractLsb' 0 8]

/-- The bytes of a raw row (rule R88). -/
def rawRow (s : State) (l : Nat) : List Byte := (List.range l).flatMap fun i => wordBytes (s.rowPixel i)

/-- The bytes ENCODE_ROW emits for a row of `len` pixels (rule R87). -/
def encodeRowBytes (s : State) (len : BitVec 16) : List Byte :=
  if adaptiveLen len.toNat then
    markerBytes len ++ (List.range 4).flatMap fun p => encodePlane (fun x => s.rowByte x p) len.toNat
  else rawRow s len.toNat

end Sys2Proof.Machine
end

