-- ==== Sys2Proof/Machine/Encoder.lean ====
section
/-! DEFINITION. ENCODE_ROW, the tokens it emits whole, and its state machine (41_encoder.md). The meaning of ENCODE_ROW
is its acceptance and start (rules R115, R87); the row is then emitted by rule R96's transitions. A transition that
emits stays where it is until the sink answers. -/

namespace Sys2Proof.Machine

/-- The E_IDLE transitions (rule R96). -/
def startEncode (s : State) : State :=
  if adaptiveLen s.len then { s with path := pathAdaptive, k := 0, fsm := .eMark }
  else { s with path := pathLegacy, cur := 0, k := 0, fsm := .eRaw }

/-- EncodeFinish() (rule R99). -/
def encodeFinish (s : State) : State :=
  complete { s with pos := s.lenField, plane := finalPlane s.path }

/-- `plane[x]` of rule R96: ROW[x].byte[PL]. -/
def planeByte (s : State) (x : Nat) : Byte := s.rowByte x s.pl.toNat

/-! ### Meanings -/

/-- ENCODE_ROW (rules R87, R115). -/
def execEncodeRow (len : BitVec 16) (s : State) : Out :=
  .next (writeCmd (cmdWord 2 false len) (startIfLen len startEncode) s)

/-- The whole pixel has been accepted (rule R96, E_RAW with K = 3). -/
def nextRawPixel (s : State) : State :=
  { s with k := 0, cur := s.cur + 1, fsm := if s.cur + 1 = s.lenField then .eDone else .eRaw }

/-- RAW_PIXEL (rules R88, R96): emit the pixel's bytes from byte K on. -/
def execRawPixel (r g b e : Byte) (s : State) : Out :=
  .next (afterOutput false nextRawPixel (outPutAll ([r, g, b, e].drop s.k.toNat) s))

/-- The whole marker has been accepted (rule R96, E_MARK with K = 3). -/
def startPlanes (s : State) : State := { s with pl := 0, cur := 0, beg := 0, fsm := .eScan }

/-- ENC_MARKER (rules R89, R96): emit the marker's bytes from byte K on. -/
def execEncMarker (h : BitVec 7) (l : Byte) (s : State) : Out :=
  .next (afterOutput false startPlanes (outPutAll ([2, 2, 0#1 ++ h, l].drop s.k.toNat) s))

/-! ### The other transitions (rule R96) -/

/-- RunLen(BEG) in plane PL. -/
def scanRunLen (s : State) : Nat := runLen (planeByte s) s.len s.beg.toNat

/-- E_SCAN. -/
def scanTurn (s : State) : State :=
  if s.len ≤ s.beg.toNat then { s with rc := 0, fsm := if s.cur < s.beg then .eLitCtl else .eNext }
  else if 4 ≤ scanRunLen s then
    { s with rc := BitVec.ofNat 7 (scanRunLen s), fsm := if s.cur < s.beg then .eLitCtl else .eRunCtl }
  else { s with beg := s.beg + BitVec.ofNat 16 (scanRunLen s) }

/-- E_LITCTL. -/
def literalControlTurn (s : State) : State :=
  let n : Byte := BitVec.ofNat 8 (min 128 (s.beg.toNat - s.cur.toNat))
  afterOutput true (fun t => { t with fsm := .eLitDat }) (outPut n { s with ln := n })

/-- A literal byte has been accepted (rule R96, E_LITDAT). -/
def nextLiteral (s : State) : State :=
  { s with
    cur := s.cur + 1, ln := s.ln - 1,
    fsm := if 0 < s.ln - 1 then .eLitDat
      else if s.cur + 1 < s.beg then .eLitCtl
      else if 4 ≤ s.rc.toNat then .eRunCtl
      else .eNext }

/-- E_LITDAT. -/
def literalDataTurn (s : State) : State :=
  afterOutput true nextLiteral (outPut (planeByte s s.cur.toNat) s)

/-- E_RUNCTL. -/
def runControlTurn (s : State) : State :=
  afterOutput true (fun t => { t with fsm := .eRunVal }) (outPut (runControlByte s.rc.toNat) s)

/-- A run's value byte has been accepted (rule R96, E_RUNVAL). -/
def nextAfterRun (s : State) : State :=
  let c := s.beg + BitVec.ofNat 16 s.rc.toNat
  { s with cur := c, beg := c, fsm := if c < s.lenField then .eScan else .eNext }

/-- E_RUNVAL. -/
def runByteTurn (s : State) : State :=
  afterOutput true nextAfterRun (outPut (planeByte s s.beg.toNat) s)

/-- E_NEXT. -/
def nextPlaneTurn (s : State) : State :=
  if s.pl = 3 then { s with fsm := .eDone } else { s with pl := s.pl + 1, cur := 0, beg := 0, fsm := .eScan }

end Sys2Proof.Machine
end

