-- ==== Sys2Proof/Machine/Dispatch.lean ====
section
/-! DEFINITION. One arm per instruction. -/

namespace Sys2Proof.Machine

def exec (i : Instr) (s : State) : Host.Outcome State Fault Refusal :=
  match i with
  | .decodeRow first len => Sys2Proof.Machine.execDecodeRow first len s
  | .encodeRow len => Sys2Proof.Machine.execEncodeRow len s
  | .convertRow len => Sys2Proof.Machine.execConvertRow len s
  | .reservedCmd w => Sys2Proof.Machine.execReservedCmd w s
  | .lqPixel r g b e => Sys2Proof.Machine.execLqPixel r g b e s
  | .lqRun c => Sys2Proof.Machine.execLqRun c s
  | .adpMarker h l => Sys2Proof.Machine.execAdpMarker h l s
  | .adpRun n v => Sys2Proof.Machine.execAdpRun n v s
  | .adpLit data => Sys2Proof.Machine.execAdpLit data s
  | .encMarker h l => Sys2Proof.Machine.execEncMarker h l s
  | .rawPixel r g b e => Sys2Proof.Machine.execRawPixel r g b e s

end Sys2Proof.Machine
end

