-- ==== Sys2Proof/Machine/Engine.lean ====
section
/-! DEFINITION. The engine's turn. Where a whole token stands before the engine it is decoded and executed; otherwise
the engine makes the one move its state allows: the peek, a part of a token, a transition of rule R96, the conversion,
or nothing while it waits (rules R42, R45, R96). -/

namespace Sys2Proof.Machine

/-- The token the engine's next move executes: the whole token at the head of the input stream in the decoder's
states, the pixel or marker to emit in E_RAW and E_MARK. -/
def nextInstr (s : State) : Option Instr :=
  match s.fsm with
  | .dQuad => decodedInstr .quad (s.hold ++ s.q)
  | .dMark => decodedInstr .marker (s.hold ++ s.q)
  | .dCtl => decodedInstr .plane s.q
  | .eRaw => some (.rawPixel (s.rowByte s.cur.toNat 0) (s.rowByte s.cur.toNat 1) (s.rowByte s.cur.toNat 2)
      (s.rowByte s.cur.toNat 3))
  | .eMark => some (.encMarker (s.lenField.extractLsb' 8 7) (s.lenField.extractLsb' 0 8))
  | .idle | .dPeek | .dRun _ | .dLit _ | .eScan | .eLitCtl | .eLitDat | .eRunCtl | .eRunVal | .eNext | .eDone
  | .convert => none

/-- The engine's move where no whole token is to be executed. -/
def partTurn (s : State) : State :=
  match s.fsm with
  | .idle => s
  | .dPeek => peekTurn s
  | .dMark => partTokenTurn failMarker s
  | .dQuad => partTokenTurn failLegacy s
  | .dCtl => controlTurn s
  | .dRun n => runValueTurn n s
  | .dLit left => literalTurn left s
  | .eRaw => s
  | .eMark => s
  | .eScan => scanTurn s
  | .eLitCtl => literalControlTurn s
  | .eLitDat => literalDataTurn s
  | .eRunCtl => runControlTurn s
  | .eRunVal => runByteTurn s
  | .eNext => nextPlaneTurn s
  | .eDone => encodeFinish s
  | .convert => convertTurn s

/-- The engine moves; during reset it does not (rule R128). -/
def engineTurn (s : State) : Out :=
  if s.inReset then .next s
  else
    match nextInstr s with
    | some i => exec i s
    | none => .next (partTurn s)

/-- Change the state of a next outcome. -/
def mapNext (f : State → State) : Out → Out
  | .next s => .next (f s)
  | .fault r => .fault r
  | .refused r => .refused r

/-- The state as the engine sees it when only the first `n` bytes of Q have reached it. -/
def seenState (n : Nat) (s : State) : State :=
  { s with q := s.q.take n, ended := s.ended && decide (s.q.length ≤ n) }

/-- The engine moves while it sees only the first `n` bytes of Q: how far it comes before the host's next event is
not specified (rule R139, B16). -/
def limitedTurn (n : Nat) (s : State) : Out :=
  mapNext (fun t => { t with q := t.q ++ s.q.drop n, ended := s.ended }) (engineTurn (seenState n s))

end Sys2Proof.Machine
end

