-- ==== Sys2Proof/Machine/Bus.lean ====
section
/-! DEFINITION. What the host does: bus accesses (rules R34 to R41), the stream ports (rules R42, R45), the reset input
(rule R128), and the host program notation of rule R60. -/

namespace Sys2Proof.Machine

/-! ### Bus reads -/

/-- A register read whose value is unspecified while BUSY = 1 (rule R14): the value `idle` when the engine is IDLE,
else `free` applied to a new draw. -/
def readOrDraw (idle : Word) (free : Word → Word) (s : State) : State :=
  if s.busy then respond .okay (free (Config.busyRead s.fresh)) { s with fresh := s.fresh + 1 }
  else respond .okay idle s

/-- A register read (rules R14 to R24). -/
def readReg (r : Reg) (s : State) : State :=
  match r with
  | .id => respond .okay idWord s
  | .param => respond .okay (paramWord s.params) s
  | .ctrl => respond .okay (ctrlWord s.ie) s
  | .cmd => respond .okay s.cmd s
  | .status => readOrDraw (idleStatusWord s) busyStatusWord s
  | .incount => readOrDraw s.incount (fun w => w) s
  | .outcount => readOrDraw s.outcount (fun w => w) s
  | .pos => readOrDraw (posWord s.pos) (fun w => posWord (w.extractLsb' 0 16)) s
  | .prevpix => readOrDraw s.prevpix (fun w => w) s

/-- MemRead (rules R34, R36, R41, R128). -/
def busRead (addr : Word) (size : Nat) (s : State) : State :=
  if s.inReset || !wordAccess addr size then slverr s
  else
    match target s.params addr.toNat with
    | .reg r => readReg r s
    | .row i => if s.busy then slverr s else respond .okay (s.rowPixel i) s
    | .fb i c => if s.busy then slverr s else respond .okay (s.fbWord i c) s
    | .reserved => slverr s

/-! ### Bus writes -/

/-- A write of `v` to CTRL: IE first, then the soft reset (rules R17, R129). -/
def writeCtrl (v : Word) (s : State) : State :=
  let t := { s with ie := v.getLsbD 0 }
  if v.getLsbD 1 then softReset t else t

/-- A register write; a write to CMD runs the command it names (rules R17 to R20, R37). -/
def writeReg (r : Reg) (v : Word) (s : State) : Out :=
  match r with
  | .ctrl => .next (respond .okay 0 (writeCtrl v s))
  | .cmd => exec (decodeCmd v) s
  | .status => .next (respond .okay 0 (writeStatus v s))
  | .id => .next (slverr s)
  | .param => .next (slverr s)
  | .incount => .next (slverr s)
  | .outcount => .next (slverr s)
  | .pos => .next (slverr s)
  | .prevpix => .next (slverr s)

/-- MemWrite (rules R34, R37, R41, R128). -/
def busWrite (addr : Word) (size : Nat) (v : Word) (s : State) : Out :=
  if s.inReset || !wordAccess addr size then .next (slverr s)
  else
    match target s.params addr.toNat with
    | .reg r => writeReg r v s
    | .row i =>
      if s.busy then .next (slverr s)
      else .next (respond .okay 0 { s with mem := s.mem.setWord (rowAddr i 0) v })
    | .fb _ _ => .next (slverr s)
    | .reserved => .next (slverr s)

/-! ### The host's turn -/

/-- One more answer of the sink (rule R45). -/
def addAnswer (a : SinkAnswer) : Sink → Sink
  | .answers as => .answers (as ++ [a])
  | .acceptAll => .answers [a]
  | .failAt _ => .answers [a]

/-- WAIT (rule R60): read STATUS, and read again after the engine's next turn while BUSY reads 1. -/
def waitTurn (s : State) : State :=
  let t := busRead 0x010 4 s
  if s.busy && !s.inReset then { t with agenda := .engine none :: .host .wait :: t.agenda } else t

/-- What the host does (rules R36, R37, R42, R45, R60, R128). DESIGN CHOICE (log entry 24): asserting an input that is
asserted, and releasing one that is not, reset the block too. -/
def hostTurn (op : HostOp) (s : State) : Out :=
  match op with
  | .read addr size => if inAddressSpace addr then .next (busRead addr size s) else .fault .outsideAddressSpace
  | .write addr size v => if inAddressSpace addr then busWrite addr size v s else .fault .outsideAddressSpace
  | .push bytes => if s.ended then .refused .pushAfterEnd else .next { s with q := s.q ++ bytes }
  | .endStream => .next { s with ended := true }
  | .reopen => if s.busy then .refused .reopenWhileBusy else .next { s with ended := false }
  | .sink mode => .next { s with sink := mode }
  | .answer a => .next { s with sink := addAnswer a s.sink }
  | .wait => .next (waitTurn s)
  | .assertReset => .next { hardReset s with inReset := true }
  | .releaseReset => .next { hardReset s with inReset := false }

/-! ### The host program notation (rule R60) -/

/-- ISSUE <command>: write the command's word to CMD. -/
def issue (w : Word) : Turn := .host (.write cmdAddr 4 w)

/-- ACK: clear DONE and ERR. -/
def ack : Turn := .host (.write 0x010 4 6)

/-- RDROW i. -/
def rdRow (i : Nat) : Turn := .host (.read (BitVec.ofNat 32 (rowAddr i 0)) 4)

/-- WRROW i, v. -/
def wrRow (i : Nat) (v : Word) : Turn := .host (.write (BitVec.ofNat 32 (rowAddr i 0)) 4 v)

/-- RDFB i, c. -/
def rdFb (i c : Nat) : Turn := .host (.read (BitVec.ofNat 32 (fbAddr i c)) 4)

/-- EXPECT OUT: the bytes the sink accepted during the last command, in order, as many as OUTCOUNT says. DESIGN CHOICE (log
entry 23): a reset clears OUTCOUNT, so after a reset that abandoned a command this shows no bytes. -/
def lastOutput (s : State) : List Byte := s.sunk.drop (s.sunk.length - s.outcount.toNat)

/-! ### Placing one instruction -/

/-- Place a command word: the engine is IDLE, and the host's next event writes the word to CMD. -/
def placeCommand (w : Word) (s : State) : State :=
  { s with inReset := false, fsm := .idle, agenda := issue w :: s.agenda }

/-- Place a stream token: the decoder of a row of 300 pixels stands where such a token is read, its bytes are next in
the stream, and the next turn is the engine's. -/
def placeToken (fsm : Fsm) (path : BitVec 2) (bytes : List Byte) (s : State) : State :=
  { s with
    inReset := false, fsm := fsm, hold := [], cmd := cmdWord 1 false 300, path := path,
    q := bytes ++ s.q, agenda := .engine none :: s.agenda }

/-- Place a table word where its row's instruction is read. -/
def placeTableWord (nbits w : Nat) (s : State) : State :=
  match tablePort nbits w with
  | .quad => placeToken .dQuad pathLegacy (tableBytes nbits w |>.take 4) s
  | .marker => placeToken .dMark pathNone (tableBytes nbits w |>.take 4) s
  | .plane => placeToken .dCtl pathAdaptive (tableBytes nbits w) s
  | .command | .rawOut | .markerOut => placeCommand (BitVec.ofNat 32 w) s

end Sys2Proof.Machine
end

