-- ==== Sys2Proof/Machine/Step.lean ====
section
/-! DEFINITION. One step: the turn at the head of the agenda, or the engine's own move when the agenda is empty. -/

namespace Sys2Proof.Machine

/-- One step of the machine. -/
def step (s : State) : Host.Outcome State Fault Refusal :=
  match s.agenda with
  | [] => engineTurn s
  | .engine none :: rest => engineTurn { s with agenda := rest }
  | .engine (some n) :: rest => limitedTurn n { s with agenda := rest }
  | .host op :: rest => hostTurn op { s with agenda := rest }

/-- `s` with the instruction of a table word stored where the next step reads it. -/
def State.withFetchWord (s : State) (nbits w : Nat) : State := placeTableWord nbits w s

end Sys2Proof.Machine
end

