-- ==== Sys2Proof/Safety.lean ====
section
/-! DEFINITION. What counts as a sound state: the invariant of the machine, and the words claims are stated in. -/

namespace Sys2Proof.Machine

/-! ### Words for claims -/

/-- The state after `n` steps, or the stop met before. -/
def runSteps (n : Nat) (s : State) : Out := Sys2Proof.core.run n s

/-- Address `a` belongs to pixels `i` to `i + n - 1` of ROWBUF (rule R39). -/
def inRow (i n a : Nat) : Prop := rowAddr i 0 ≤ a ∧ a < rowAddr (i + n) 0

/-- Address `a` belongs to pixels 0 to `n - 1` of FBUF (rule R40). -/
def inFb (n a : Nat) : Prop := fbAddr 0 0 ≤ a ∧ a < fbAddr n 0

/-- Address `a` is byte `p` of one of the pixels `i` to `i + n - 1` of ROWBUF. -/
def inPlane (p i n a : Nat) : Prop := ∃ k, i ≤ k ∧ k < i + n ∧ a = rowAddr k p

/-- Every buffer byte outside the addresses of `P` reads the same in both states. -/
def sameOutside (P : Nat → Prop) (s t : State) : Prop := ∀ a, ¬ P a → t.readByte a = s.readByte a

/-- The reply OKAY with data `d` (rule R36). -/
def okReply (d : Word) : Option Reply := some { resp := .okay, data := d }

/-- The reply SLVERR, with data 0 (rules R36, R118). -/
def slverrReply : Option Reply := some { resp := .slverr, data := 0 }

/-- LEN is in 1 to P_ROWMAX (rule R56). -/
def lenInRange (p : Params) (len : BitVec 16) : Prop := 1 ≤ len.toNat ∧ len.toNat ≤ p.rowMax.toNat

/-- The engine is IDLE and the reset input is not asserted. -/
def ready (s : State) : Prop := s.inReset = false ∧ s.fsm = .idle

/-- The sink refuses the next byte (rule R45). -/
def sinkRefuses (s : State) : Prop :=
  (∃ n, s.sink = .failAt n ∧ n ≤ s.outcount.toNat) ∨ ∃ as, s.sink = .answers (.fail :: as)

/-- An address of the ROWBUF or FBUF window that holds a pixel (rules R39, R40). -/
def bufferAddr (p : Params) (a : Nat) : Bool :=
  match target p a with
  | .row _ => true
  | .fb _ _ => true
  | .reg _ => false
  | .reserved => false

/-- The command in CMD has operation `op`, is not reserved and its LEN is in range (rules R56, R58, R115). -/
def validCmd (op : BitVec 4) (s : State) : Prop :=
  cmdOp s.cmd = op ∧ isReserved s.cmd = false ∧ badLen s.params s.lenField = false

/-- Does the state wait for the input stream? -/
def Fsm.decoding : Fsm → Bool
  | .dPeek => true
  | .dMark => true
  | .dQuad => true
  | .dCtl => true
  | .dRun _ => true
  | .dLit _ => true
  | _ => false

/-- Does the state wait for the sink? -/
def Fsm.emitting : Fsm → Bool
  | .eRaw => true
  | .eMark => true
  | .eLitCtl => true
  | .eLitDat => true
  | .eRunCtl => true
  | .eRunVal => true
  | _ => false

/-- Is the state one in which the encoder emits a plane (rule R98: E_LITCTL to E_RUNVAL)? -/
def Fsm.inPlane : Fsm → Bool
  | .eLitCtl => true
  | .eLitDat => true
  | .eRunCtl => true
  | .eRunVal => true
  | _ => false

/-- Is the state one in which the decoder fills a plane (rules R74 to R76)? -/
def Fsm.decodingPlane : Fsm → Bool
  | .dCtl => true
  | .dRun _ => true
  | .dLit _ => true
  | _ => false

/-- Is the state one of the encoder's (rule R95)? -/
def Fsm.encoding : Fsm → Bool
  | .eRaw => true
  | .eMark => true
  | .eScan => true
  | .eLitCtl => true
  | .eLitDat => true
  | .eRunCtl => true
  | .eRunVal => true
  | .eNext => true
  | .eDone => true
  | _ => false

/-! ### The invariant -/

/-- An adaptive decode is running, and J is a position of the plane or its end. -/
def planeOk (s : State) : Prop :=
  validCmd 1 s ∧ adaptiveLen s.len = true ∧ s.path = pathAdaptive ∧ s.hold = []

/-- A legacy or fallback decode is running, and I is a position of the row; on the fallback path it is past the first
pixel, so that a run always has a pixel to repeat (rule R80). -/
def quadOk (s : State) : Prop :=
  validCmd 1 s ∧ s.hold.length < 4 ∧ s.i.toNat < s.len ∧
    (s.path = pathLegacy ∨ (s.path = pathFallback ∧ 0 < s.i.toNat))

/-- An adaptive encode is running. -/
def encodeOk (s : State) : Prop := validCmd 2 s ∧ adaptiveLen s.len = true ∧ s.path = pathAdaptive

/-- The literal span ends at the plane's end, or at a run of 4 to 127 bytes inside the plane (rule R96). -/
def spanOk (s : State) : Prop :=
  s.beg.toNat ≤ s.len ∧ ((s.rc = 0 ∧ s.beg.toNat = s.len) ∨ (4 ≤ s.rc.toNat ∧ s.beg.toNat + s.rc.toNat ≤ s.len))

/-- What holds in each state of the sequencer. -/
def fsmOk (s : State) : Prop :=
  match s.fsm with
  | .idle => s.hold = []
  | .dPeek => validCmd 1 s ∧ adaptiveLen s.len = true ∧ s.hold = []
  | .dMark => validCmd 1 s ∧ adaptiveLen s.len = true ∧ s.hold.length < 4
  | .dQuad => quadOk s
  | .dCtl => planeOk s ∧ s.j.toNat < s.len
  | .dRun n => planeOk s ∧ n ≠ 0 ∧ s.j.toNat + n.toNat ≤ s.len
  | .dLit left => planeOk s ∧ left ≠ 0 ∧ left.toNat ≤ 128 ∧ s.j.toNat + left.toNat ≤ s.len
  | .eRaw => validCmd 2 s ∧ adaptiveLen s.len = false ∧ s.path = pathLegacy ∧ s.cur.toNat < s.len
  | .eMark => encodeOk s
  | .eScan => encodeOk s ∧ s.cur.toNat < s.len ∧ s.cur.toNat ≤ s.beg.toNat ∧ s.beg.toNat ≤ s.len
  | .eLitCtl => encodeOk s ∧ s.cur.toNat < s.beg.toNat ∧ spanOk s
  | .eLitDat => encodeOk s ∧ s.ln ≠ 0 ∧ s.ln.toNat ≤ 128 ∧ s.cur.toNat + s.ln.toNat ≤ s.beg.toNat ∧ spanOk s
  | .eRunCtl => encodeOk s ∧ s.cur = s.beg ∧ spanOk s ∧ s.rc ≠ 0
  | .eRunVal => encodeOk s ∧ s.cur = s.beg ∧ spanOk s ∧ s.rc ≠ 0
  | .eNext => encodeOk s
  | .eDone => validCmd 2 s ∧ (s.path = pathLegacy ∨ s.path = pathAdaptive)
  | .convert => validCmd 3 s ∧ s.path = pathNone

/-- The invariant every step keeps. -/
structure Inv (s : State) : Prop where
  /-- The parameters are legal (rule R4). -/
  legal : s.params.legal = true
  /-- The memory is in its canonical form. -/
  canonical : s.mem.wf = true
  /-- Only bytes of ROWBUF and FBUF are stored (rules R39, R40). -/
  mapped : ∀ e ∈ s.mem, bufferAddr s.params e.1 = true
  /-- DONE and ERR are never both 1 (rule R19). -/
  exclusive : ¬ (s.done = true ∧ s.err = true)
  /-- ERRCODE is nonzero exactly when ERR = 1 (rule R127). -/
  errCode : s.errcode ≠ 0 ↔ s.err = true
  /-- ERRCODE 8 to 15 are never produced (rule R113). -/
  errRange : s.errcode.toNat ≤ 7
  /-- While a command runs, DONE and ERR are 0 (rules R14, R115). -/
  running : s.busy = true → s.done = false ∧ s.err = false
  /-- After DONE, POS is LEN (rule R23). -/
  donePos : s.done = true → s.pos = s.lenField
  /-- While the reset input is asserted the engine is IDLE (rule R128). -/
  reset : s.inReset = true → s.busy = false
  /-- A byte is on offer only while the engine waits for the sink (rules R32, R45). -/
  offer : s.offer ≠ none → s.fsm.emitting = true
  /-- SHIFT is 0, 8 or the saturated 16 (rule R27). -/
  shift : s.shift = 0 ∨ s.shift = 8 ∨ s.shift = 16
  /-- The engine's registers fit its state. -/
  fsm : fsmOk s

end Sys2Proof.Machine
end

