-- ==== Sys2Proof/Certificates/Slice0/Obligations.lean ====
section
/-! DEFINITION. The statements for the provers. Each says what the rules it names say of the machine; a next state is
given whole, as the state before with the fields that change, and memory by what each byte reads as. In every reply to a
write the data is 0, the model's choice of log entry 18. -/

open Sys2Proof Sys2Proof.Machine

/-! ### Decoding -/

/-- Rules R54, R59, R61, R63, R64, R65: decoding the encoding of a well-formed instruction gives it back, and leaves
the bytes after it. -/
def Obligations.DecodeInvertsEncode : Prop :=
  ∀ (i : Instr) (rest : List Byte), i.wf = true → decode i.port (encode i ++ rest) = .ok (i, rest)

/-- Rules R54, R55, R58: every command word is the encoding of the command it names, and that command is
well-formed. -/
def Obligations.CommandWordsKeepEveryBit : Prop :=
  ∀ w : Word, (decodeCmd w).wf = true ∧ encode (decodeCmd w) = wordBytes w

/-- Rules R55, R61, R63, R64: words written out from the spec's encodings decode to what they stand for. -/
def Obligations.WrittenOutWordsDecode : Prop :=
  decodeCmd 0x1001000A = .decodeRow true 10 ∧ decodeCmd 0x20000008 = .encodeRow 8 ∧
  decodeCmd 0x3000012C = .convertRow 300 ∧ decodeCmd 0x10020008 = .reservedCmd 0x10020008 ∧
  decode .quad [0x05, 0x06, 0x07, 0x08] = .ok (.lqPixel 5 6 7 8, []) ∧
  decode .quad [0x01, 0x01, 0x01, 0x2B] = .ok (.lqRun 0x2B, []) ∧
  decode .marker [0x02, 0x02, 0x01, 0x2C] = .ok (.adpMarker 1 0x2C, []) ∧
  decode .marker [0x02, 0x02, 0x80, 0x05] = .ok (.lqPixel 2 2 0x80 5, []) ∧
  decode .plane [0x89, 0x55] = .ok (.adpRun 9 0x55, []) ∧
  decode .plane [0x03, 0x0A, 0x0B, 0x0C, 0x84] = .ok (.adpLit [0x0A, 0x0B, 0x0C], [0x84])

/-- Rules R18, R66, R77: a step executes what the decoder reads. The host's write of a word to CMD runs the decoded
command; the engine's turn runs the token decoded at the head of the stream; a raw pixel and the marker to emit are
taken from ROW and LEN. The step itself only takes the turn off the agenda. -/
def Obligations.StepRunsDecodedInstruction : Prop :=
  ∀ (s : State) (rest : List Turn), s.inReset = false →
    (∀ w, s.agenda = .host (.write 0x00C 4 w) :: rest →
      step s = exec (decodeCmd w) { s with agenda := rest }) ∧
    (∀ (p : Port) (i : Instr) (more : List Byte),
      ((p = .quad ∧ s.fsm = .dQuad ∧ decode p (s.hold ++ s.q) = .ok (i, more)) ∨
        (p = .marker ∧ s.fsm = .dMark ∧ decode p (s.hold ++ s.q) = .ok (i, more)) ∨
        (p = .plane ∧ s.fsm = .dCtl ∧ decode p s.q = .ok (i, more)) ∨
        (p = .rawOut ∧ s.fsm = .eRaw ∧ decode p (wordBytes (s.rowPixel s.cur.toNat)) = .ok (i, more)) ∨
        (p = .markerOut ∧ s.fsm = .eMark ∧
          decode p [2, 2, s.lenField.extractLsb' 8 8, s.lenField.extractLsb' 0 8] = .ok (i, more))) →
      (s.agenda = .engine none :: rest → step s = exec i { s with agenda := rest }) ∧
      (s.agenda = [] → step s = exec i s))

/-! ### Acceptance -/

/-- Rules R69, R70, R87, R96, R103, R115: an IDLE block accepts the three commands with LEN in 1 to P_ROWMAX and starts
them, each in its first state. -/
def Obligations.ValidCommandStarts : Prop :=
  ∀ (s : State) (len : BitVec 16), ready s → lenInRange s.params len →
    (∀ first, exec (.decodeRow first len) s = .next { s with
      cmd := cmdWord 1 first len, done := false, err := false, errcode := 0, incount := 0, outcount := 0, pos := 0,
      plane := 0, prevValid := s.prevValid && !first, hold := [], reply := okReply 0,
      path := if 8 ≤ len.toNat ∧ len.toNat ≤ 32767 then 0 else 1,
      i := if 8 ≤ len.toNat ∧ len.toNat ≤ 32767 then s.i else 0,
      shift := if 8 ≤ len.toNat ∧ len.toNat ≤ 32767 then s.shift else 0,
      fsm := if 8 ≤ len.toNat ∧ len.toNat ≤ 32767 then .dPeek else .dQuad }) ∧
    exec (.encodeRow len) s = .next { s with
      cmd := cmdWord 2 false len, done := false, err := false, errcode := 0, incount := 0, outcount := 0, pos := 0,
      plane := 0, k := 0, reply := okReply 0,
      path := if 8 ≤ len.toNat ∧ len.toNat ≤ 32767 then 2 else 1,
      cur := if 8 ≤ len.toNat ∧ len.toNat ≤ 32767 then s.cur else 0,
      fsm := if 8 ≤ len.toNat ∧ len.toNat ≤ 32767 then .eMark else .eRaw } ∧
    exec (.convertRow len) s = .next { s with
      cmd := cmdWord 3 false len, done := false, err := false, errcode := 0, incount := 0, outcount := 0, pos := 0,
      plane := 0, path := 0, reply := okReply 0, fsm := .convert }

/-- Rule R58: a word is reserved by its OP, its reserved bits or its FIRST; written to CMD of an IDLE block it fails with
ERR_BADOP and nothing else happens. A word that is not reserved but has LEN out of range fails with ERR_BADLEN. What
acceptance stores and clears in both cases is rule R115's. -/
def Obligations.ReservedOrOutOfRangeCommandFails : Prop :=
  ∀ (s : State) (w : Word) (rest : List Turn), ready s → s.agenda = .host (.write 0x00C 4 w) :: rest →
    let reserved := ¬ (1 ≤ w.toNat / 2 ^ 28 ∧ w.toNat / 2 ^ 28 ≤ 3) ∨ w.toNat / 2 ^ 17 % 2 ^ 11 ≠ 0 ∨
      (w.toNat / 2 ^ 16 % 2 = 1 ∧ w.toNat / 2 ^ 28 ≠ 1)
    let failed := fun code : BitVec 4 => { s with
      cmd := w, done := false, err := true, errcode := code, incount := 0, outcount := 0, pos := 0, path := 0,
      plane := 0, reply := okReply 0, agenda := rest }
    (reserved → decodeCmd w = .reservedCmd w ∧ step s = .next (failed 7)) ∧
    (¬ reserved → (w.toNat % 2 ^ 16 = 0 ∨ s.params.rowMax.toNat < w.toNat % 2 ^ 16) → step s = .next (failed 6))

/-- Rules R58, R115: RESERVED_CMD at an IDLE block fails with ERR_BADOP: BUSY stays 0, and only what acceptance stores and
clears changes. -/
def Obligations.ReservedCommandIsBadOp : Prop :=
  ∀ (s : State) (w : Word), ready s → exec (.reservedCmd w) s = .next { s with
    cmd := w, done := false, err := true, errcode := 7, incount := 0, outcount := 0, pos := 0, path := 0, plane := 0,
    reply := okReply 0 }

/-- Rules R18, R132: while BUSY = 1 a write to CMD gets SLVERR and is dropped. -/
def Obligations.CommandWhileBusyIsDropped : Prop :=
  ∀ (s : State) (w : Word) (rest : List Turn), s.fsm ≠ .idle → s.agenda = .host (.write 0x00C 4 w) :: rest →
    step s = .next { s with agenda := rest, reply := slverrReply }

/-! ### The legacy tokens -/

/-- Rules R61, R78, R82, R117: a quad whose first three bytes are not all 1 is a pixel. It is written at I, I rises by 1
and SHIFT becomes 0; the bytes consumed are those not already in hand. The pixel that fills the row also ends the
command with DONE: PREVPIX is that pixel, PREV_VALID is 1, POS is LEN. -/
def Obligations.LqPixelWritesPixel : Prop :=
  ∀ (s : State) (r g b e : Byte), s.fsm = .dQuad → s.hold.length < 4 → s.i.toNat < s.len →
    (¬ (r = 1 ∧ g = 1 ∧ b = 1) → decodeQuad r g b e = .lqPixel r g b e) ∧
    ∃ t, exec (.lqPixel r g b e) s = .next t ∧
      t.rowPixel s.i.toNat = e ++ b ++ g ++ r ∧ sameOutside (inRow s.i.toNat 1) s t ∧
      (s.i.toNat + 1 < s.len → t = { s with
        mem := t.mem, q := s.q.drop (4 - s.hold.length),
        incount := s.incount + BitVec.ofNat 32 (4 - s.hold.length), hold := [], i := s.i + 1, shift := 0 }) ∧
      (s.i.toNat + 1 = s.len → t = { s with
        mem := t.mem, q := s.q.drop (4 - s.hold.length),
        incount := s.incount + BitVec.ofNat 32 (4 - s.hold.length), hold := [], i := s.i + 1, shift := 0,
        prevpix := e ++ b ++ g ++ r, prevValid := true, pos := s.lenField, plane := if s.path = 2 then 3 else 0,
        done := true, err := false, errcode := 0, fsm := .idle, offer := none })

/-- Rules R71, R72: four bytes at the marker position that are no marker are the first pixel of a fallback row: PATH is 3,
ROW[0] is the pixel with R = 2, and the legacy algorithm goes on at position 1 with SHIFT 0. -/
def Obligations.FallbackFirstPixel : Prop :=
  ∀ (s : State) (b1 b2 b3 : Byte), s.fsm = .dMark → s.hold.length < 4 → 1 < s.len →
    (¬ (b1 = 2 ∧ b2.toNat < 128) → decodeMarker 2 b1 b2 b3 = .lqPixel 2 b1 b2 b3) ∧
    ∃ t, exec (.lqPixel 2 b1 b2 b3) s = .next t ∧
      t.rowPixel 0 = b3 ++ b2 ++ b1 ++ 2#8 ∧ sameOutside (inRow 0 1) s t ∧
      t = { s with
        mem := t.mem, q := s.q.drop (4 - s.hold.length),
        incount := s.incount + BitVec.ofNat 32 (4 - s.hold.length), hold := [], path := 3, i := 1, shift := 0,
        fsm := .dQuad }

/-- Rules R79, R80, R81, R82: a run marker with a count of at least 1 that fits the row repeats the pixel before it, or
PREVPIX at position 0; then SHIFT rises by 8, and the row goes on or ends. That SHIFT is held at 16 is the model's choice
of log entry 13, which rule R27 permits. -/
def Obligations.LqRunRepeatsPixel : Prop :=
  ∀ (s : State) (c : Byte) (w : Word), s.fsm = .dQuad → s.hold.length < 4 →
    1 ≤ c.toNat * 2 ^ s.shift.toNat → s.i.toNat + c.toNat * 2 ^ s.shift.toNat ≤ s.len →
    ((0 < s.i.toNat ∧ w = s.rowPixel (s.i.toNat - 1)) ∨
      (s.i.toNat = 0 ∧ s.prevValid = true ∧ w = s.prevpix)) →
    let n := c.toNat * 2 ^ s.shift.toNat
    ∃ t, exec (.lqRun c) s = .next t ∧
      (∀ k, k < n → t.rowPixel (s.i.toNat + k) = w) ∧ sameOutside (inRow s.i.toNat n) s t ∧
      (s.i.toNat + n < s.len → t = { s with
        mem := t.mem, q := s.q.drop (4 - s.hold.length),
        incount := s.incount + BitVec.ofNat 32 (4 - s.hold.length), hold := [], i := s.i + BitVec.ofNat 16 n,
        shift := if 16 ≤ s.shift.toNat then 16 else s.shift + 8 }) ∧
      (s.i.toNat + n = s.len → t = { s with
        mem := t.mem, q := s.q.drop (4 - s.hold.length),
        incount := s.incount + BitVec.ofNat 32 (4 - s.hold.length), hold := [], i := s.i + BitVec.ofNat 16 n,
        shift := if 16 ≤ s.shift.toNat then 16 else s.shift + 8,
        prevpix := w, prevValid := true, pos := s.lenField, plane := if s.path = 2 then 3 else 0,
        done := true, err := false, errcode := 0, fsm := .idle, offer := none })

/-- Rules R67, R79, R81: a run marker with count 0 writes nothing and raises SHIFT by 8. That SHIFT is held at 16 is the
model's choice of log entry 13, which rule R27 permits. -/
def Obligations.LqRunOfZeroRaisesShift : Prop :=
  ∀ s : State, s.fsm = .dQuad → s.hold.length < 4 → s.i.toNat < s.len →
    exec (.lqRun 0) s = .next { s with
      q := s.q.drop (4 - s.hold.length), incount := s.incount + BitVec.ofNat 32 (4 - s.hold.length), hold := [],
      shift := if 16 ≤ s.shift.toNat then 16 else s.shift + 8 }

/-- Rules R79, R80, R83, R112, R116: a run past the end of the row is ERR_OVERRUN, whether or not there is a pixel to
repeat; a run that fits, at position 0 with PREV_VALID 0, is ERR_NOPREV. Then POS is I, PREV_VALID is 0, and every
byte outside the unfilled pixels reads as before. -/
def Obligations.LqRunErrors : Prop :=
  ∀ (s : State) (c : Byte) (code : BitVec 4), s.fsm = .dQuad → s.hold.length < 4 → s.i.toNat < s.len →
    ((s.len < s.i.toNat + c.toNat * 2 ^ s.shift.toNat ∧ code = 2) ∨
      (s.i.toNat + c.toNat * 2 ^ s.shift.toNat ≤ s.len ∧ c ≠ 0 ∧ s.i = 0 ∧ s.prevValid = false ∧ code = 3)) →
    ∃ t, exec (.lqRun c) s = .next t ∧ sameOutside (inRow s.i.toNat (s.len - s.i.toNat)) s t ∧
      t = { s with
        mem := t.mem, q := s.q.drop (4 - s.hold.length),
        incount := s.incount + BitVec.ofNat 32 (4 - s.hold.length), hold := [], prevValid := false, pos := s.i,
        plane := 0, errcode := code, err := true, done := false, fsm := .idle, offer := none, fresh := s.fresh + 1 }

/-- Rules R27, R79, R81: holding SHIFT saturated at 16, the model's choice of log entry 13, is not observable. For a true
shift `a` that is a multiple of 8,
the saturated register stays its saturation, and in a row of at most 65535 pixels the saturated count overruns exactly
when the true count does, and equals it when it does not. -/
def Obligations.ShiftSaturationIsInvisible : Prop :=
  ∀ (s : State) (a : Nat) (c : Byte) (room : Nat), s.shift.toNat = min a 16 → a % 8 = 0 → room ≤ 65535 →
    (raiseShift s).shift.toNat = min (a + 8) 16 ∧
    (room < runLength c s ↔ room < c.toNat * 2 ^ a) ∧
    (c.toNat * 2 ^ a ≤ room → runLength c s = c.toNat * 2 ^ a)

/-! ### The adaptive tokens -/

/-- Rules R71, R73, R74: the marker starts plane 0 at its first byte, on PATH 2, when P_LENCHK is 0 or its length is
LEN. -/
def Obligations.AdpMarkerStartsPlanes : Prop :=
  ∀ (s : State) (h : BitVec 7) (l : Byte), s.fsm = .dMark → s.hold.length < 4 →
    (s.params.lenChk = false ∨ h.toNat * 256 + l.toNat = s.len) →
    exec (.adpMarker h l) s = .next { s with
      q := s.q.drop (4 - s.hold.length), incount := s.incount + BitVec.ofNat 32 (4 - s.hold.length), hold := [],
      path := 2, pl := 0, j := 0, fsm := .dCtl }

/-- Rules R73, R83, R116: with P_LENCHK 1 a marker whose length is not LEN is ERR_LENMISMATCH once its four bytes are
consumed: PATH 2, POS 0, PLANE 0. -/
def Obligations.AdpMarkerLengthMismatch : Prop :=
  ∀ (s : State) (h : BitVec 7) (l : Byte), s.fsm = .dMark → s.hold.length < 4 →
    s.params.lenChk = true → h.toNat * 256 + l.toNat ≠ s.len →
    ∃ t, exec (.adpMarker h l) s = .next t ∧ sameOutside (inRow 0 s.len) s t ∧
      t = { s with
        mem := t.mem, q := s.q.drop (4 - s.hold.length),
        incount := s.incount + BitVec.ofNat 32 (4 - s.hold.length), hold := [], path := 2, prevValid := false,
        pos := 0, plane := 0, errcode := 4, err := true, done := false, fsm := .idle, offer := none,
        fresh := s.fresh + 1 }

/-- Rules R74, R75, R82: a run that fits writes its value into plane PL from J on and nothing else; then the plane goes
on, the next plane starts, or the row is done. -/
def Obligations.AdpRunFillsPlane : Prop :=
  ∀ (s : State) (n : BitVec 7) (v : Byte), s.fsm = .dCtl → s.j.toNat + n.toNat ≤ s.len →
    ∃ t, exec (.adpRun n v) s = .next t ∧
      (∀ k, k < n.toNat → t.rowByte (s.j.toNat + k) s.pl.toNat = v) ∧
      sameOutside (inPlane s.pl.toNat s.j.toNat n.toNat) s t ∧
      (s.j.toNat + n.toNat < s.len → t = { s with
        mem := t.mem, q := s.q.drop 2, incount := s.incount + 2, j := s.j + BitVec.ofNat 16 n.toNat }) ∧
      (s.j.toNat + n.toNat = s.len → s.pl ≠ 3 → t = { s with
        mem := t.mem, q := s.q.drop 2, incount := s.incount + 2, pl := s.pl + 1, j := 0 }) ∧
      (s.j.toNat + n.toNat = s.len → s.pl = 3 → t = { s with
        mem := t.mem, q := s.q.drop 2, incount := s.incount + 2, j := s.j + BitVec.ofNat 16 n.toNat,
        prevpix := t.rowPixel (s.len - 1), prevValid := true, pos := s.lenField,
        plane := if s.path = 2 then 3 else 0, done := true, err := false, errcode := 0, fsm := .idle, hold := [],
        offer := none })

/-- Rules R74, R76, R82: a literal that fits writes its bytes into plane PL from J on and nothing else; then the plane
goes on, the next plane starts, or the row is done. -/
def Obligations.AdpLitFillsPlane : Prop :=
  ∀ (s : State) (data : List Byte), s.fsm = .dCtl → s.j.toNat + data.length ≤ s.len →
    ∃ t, exec (.adpLit data) s = .next t ∧
      (∀ k, ∀ h : k < data.length, t.rowByte (s.j.toNat + k) s.pl.toNat = data[k]) ∧
      sameOutside (inPlane s.pl.toNat s.j.toNat data.length) s t ∧
      (s.j.toNat + data.length < s.len → t = { s with
        mem := t.mem, q := s.q.drop (1 + data.length), incount := s.incount + BitVec.ofNat 32 (1 + data.length),
        j := s.j + BitVec.ofNat 16 data.length }) ∧
      (s.j.toNat + data.length = s.len → s.pl ≠ 3 → t = { s with
        mem := t.mem, q := s.q.drop (1 + data.length), incount := s.incount + BitVec.ofNat 32 (1 + data.length),
        pl := s.pl + 1, j := 0 }) ∧
      (s.j.toNat + data.length = s.len → s.pl = 3 → t = { s with
        mem := t.mem, q := s.q.drop (1 + data.length), incount := s.incount + BitVec.ofNat 32 (1 + data.length),
        j := s.j + BitVec.ofNat 16 data.length,
        prevpix := t.rowPixel (s.len - 1), prevValid := true, pos := s.lenField,
        plane := if s.path = 2 then 3 else 0, done := true, err := false, errcode := 0, fsm := .idle, hold := [],
        offer := none })

/-- Rules R75, R76, R83, R116: a run or literal that would pass the end of the plane is ERR_OVERRUN right after its
control byte, also when the token's data bytes are missing from the stream: one byte is consumed, POS is J, PLANE is PL,
and the filled set and all else outside the row's unfilled bytes read as before. The first part says so of the whole
token, the second of the engine's step at a control byte, whatever follows it. -/
def Obligations.AdaptiveOverrun : Prop :=
  ∀ s : State, s.fsm = .dCtl →
    let fails := fun out : Out => ∃ t, out = .next t ∧
      sameOutside (fun a => ∃ k p, k < s.len ∧ p < 4 ∧ a = rowAddr k p ∧
        (s.pl.toNat < p ∨ (p = s.pl.toNat ∧ s.j.toNat ≤ k))) s t ∧
      t = { s with
        mem := t.mem, q := s.q.drop 1, incount := s.incount + 1, hold := [], prevValid := false, pos := s.j,
        plane := s.pl, errcode := 2, err := true, done := false, fsm := .idle, offer := none, fresh := s.fresh + 1 }
    (∀ (i : Instr) (n : Nat),
      ((∃ m v, i = .adpRun m v ∧ n = m.toNat) ∨ (∃ d, i = .adpLit d ∧ n = d.length)) →
      s.len < s.j.toNat + n → fails (exec i s)) ∧
    (∀ (c : Byte) (more : List Byte), s.inReset = false → s.agenda = [] → s.q = c :: more →
      s.len < s.j.toNat + (if 128 < c.toNat then c.toNat - 128 else c.toNat) → fails (step s))

/-! ### The input stream -/

/-- Rules R30, R42, R70: the peek consumes nothing; a 2 leads to the marker position, any other byte to the legacy
algorithm with I and SHIFT 0. -/
def Obligations.PeekConsumesNothing : Prop :=
  ∀ (s : State) (b : Byte) (bs : List Byte), s.inReset = false → s.agenda = [] → s.fsm = .dPeek → s.q = b :: bs →
    (b = 2 → step s = .next { s with fsm := .dMark, hold := [] }) ∧
    (b ≠ 2 → step s = .next { s with path := 1, i := 0, shift := 0, fsm := .dQuad, hold := [] })

/-- Rules R42, R43, R44, R83, R112: the decoder at an empty stream that has ended fails with ERR_EOS. Nothing is
consumed, the end stays, POS and PLANE are where the row stood, and the row's bytes before them are kept. -/
def Obligations.EndOfStreamFails : Prop :=
  ∀ s : State, s.inReset = false → s.agenda = [] → s.fsm.decoding = true → s.hold.length < 4 → s.q = [] →
    s.ended = true →
    ∃ t, step s = .next t ∧
      sameOutside (fun a => ∃ k p, k < s.len ∧ p < 4 ∧ a = rowAddr k p ∧
        (s.fsm = .dPeek ∨ s.fsm = .dMark ∨ (s.fsm = .dQuad ∧ s.i.toNat ≤ k) ∨
          (s.fsm.decodingPlane = true ∧ (s.pl.toNat < p ∨ (p = s.pl.toNat ∧ s.j.toNat ≤ k))))) s t ∧
      t = { s with
        mem := t.mem, hold := [], prevValid := false,
        pos := if s.fsm = .dQuad then s.i else if s.fsm.decodingPlane then s.j else 0,
        plane := if s.fsm.decodingPlane then s.pl else 0,
        errcode := 1, err := true, done := false, fsm := .idle, offer := none, fresh := s.fresh + 1 }

/-- Rules R42, R85: the decoder at an empty stream that has not ended waits: nothing changes. -/
def Obligations.DecoderWaitsForInput : Prop :=
  ∀ s : State, s.agenda = [] → s.fsm.decoding = true → s.hold.length < 4 → s.q = [] → s.ended = false →
    step s = .next s

/-- Rules R42, R43: the engine's turn consumes bytes only from the head of Q, in order, and INCOUNT counts exactly
those, modulo 2^32. -/
def Obligations.InputIsConsumedInOrder : Prop :=
  ∀ s t : State, engineTurn s = .next t →
    ∃ n, n ≤ s.q.length ∧ t.q = s.q.drop n ∧ t.incount = s.incount + BitVec.ofNat 32 n ∧ t.ended = s.ended

/-- Rules R6, R139: handing the decoder a whole token at once, or byte by byte in as many turns, leads to the same
state. The turns that show the engine one byte are the limited turns of log entry 2, the model's choice. -/
def Obligations.TokenInOneByteTurns : Prop :=
  ∀ (s : State) (i : Instr) (rest : List Turn), s.inReset = false →
    (s.fsm = .dQuad ∨ s.fsm = .dMark ∨ s.fsm = .dCtl) → s.hold.length < 4 → nextInstr s = some i →
    let n := (encode i).length - (if s.fsm = .dCtl then 0 else s.hold.length)
    runSteps n { s with agenda := List.replicate n (.engine (some 1)) ++ rest } =
      step { s with agenda := .engine none :: rest }

/-! ### The encoder -/

/-- Rule R89: an adaptive row's marker is `[2, 2, highByte(len), lowByte(len)]`. With a sink that accepts, ENC_MARKER emits
its bytes from byte K on and goes to the scan of plane 0; the engine takes the length from LEN. -/
def Obligations.EncMarkerEmitsLength : Prop :=
  ∀ (s : State) (h : BitVec 7) (l : Byte), s.fsm = .eMark → s.sink = .acceptAll →
    exec (.encMarker h l) s = .next { s with
      sunk := s.sunk ++ [2, 2, 0#1 ++ h, l].drop s.k.toNat,
      outcount := s.outcount + BitVec.ofNat 32 (4 - s.k.toNat), offer := none, k := 3, pl := 0, cur := 0, beg := 0,
      fsm := .eScan } ∧
    (s.inReset = false → s.agenda = [] → s.k = 0 → s.len ≤ 32767 →
      ∃ t, step s = .next t ∧
        t.sunk = s.sunk ++ [2, 2, s.lenField.extractLsb' 8 8, s.lenField.extractLsb' 0 8])

/-- Rules R88, R96: with a sink that accepts, RAW_PIXEL emits its bytes from byte K on and goes to the next pixel, or to
E_DONE after the last one. -/
def Obligations.RawPixelEmitsFourBytes : Prop :=
  ∀ (s : State) (r g b e : Byte), s.fsm = .eRaw → s.sink = .acceptAll →
    exec (.rawPixel r g b e) s = .next { s with
      sunk := s.sunk ++ [r, g, b, e].drop s.k.toNat,
      outcount := s.outcount + BitVec.ofNat 32 (4 - s.k.toNat), offer := none, k := 0, cur := s.cur + 1,
      fsm := if s.cur + 1 = s.lenField then .eDone else .eRaw }

/-- Rules R45, R98, R112: a sink that refuses the next byte ends the command with ERR_WRITE at once. The byte is not
delivered, PLANE is PL in a plane and 0 elsewhere, POS is left open, and ROW is unchanged. -/
def Obligations.WriteFailureEndsCommand : Prop :=
  ∀ s : State, s.inReset = false → s.agenda = [] → s.fsm.emitting = true → sinkRefuses s →
    ∃ t, step s = .next t ∧
      t = { s with
        plane := if s.fsm.inPlane then s.pl else 0, pos := t.pos, errcode := 5, err := true, done := false,
        fsm := .idle, hold := [], offer := none, ln := t.ln, sink := t.sink, fresh := t.fresh }

/-- Rules R45, R96: while the sink gives no answer the encoder stays in its state with the byte of that state on offer:
byte K of the pixel, byte K of the marker (of a row of at most 32767 pixels, the only ones that have one), the literal
count (which LN then holds), the literal at CUR, 128 + RC, or the run's byte at BEG. -/
def Obligations.EncoderWaitsForSink : Prop :=
  ∀ s : State, s.inReset = false → s.agenda = [] → s.fsm.emitting = true → s.sink = .answers [] →
    let count : Byte := BitVec.ofNat 8 (min 128 (s.beg.toNat - s.cur.toNat))
    ∃ b : Byte,
      step s = .next { s with offer := some b, ln := if s.fsm = .eLitCtl then count else s.ln } ∧
      (s.fsm = .eRaw → b = s.rowByte s.cur.toNat s.k.toNat) ∧
      (s.fsm = .eMark → s.len ≤ 32767 →
        [2, 2, s.lenField.extractLsb' 8 8, s.lenField.extractLsb' 0 8][s.k.toNat]? = some b) ∧
      (s.fsm = .eLitCtl → b = count) ∧
      (s.fsm = .eLitDat → b = s.rowByte s.cur.toNat s.pl.toNat) ∧
      (s.fsm = .eRunCtl → b = BitVec.ofNat 8 (128 + s.rc.toNat)) ∧
      (s.fsm = .eRunVal → b = s.rowByte s.beg.toNat s.pl.toNat)

/-- Rule R91: RunLen is the largest `k` with `1 <= k <= min(127, L - beg)` such that `k` bytes from `beg` on are
equal. -/
def Obligations.RunLenIsLargest : Prop :=
  ∀ (f : Nat → Byte) (l beg : Nat), beg < l →
    (1 ≤ runLen f l beg ∧ runLen f l beg ≤ min 127 (l - beg) ∧ ∀ j, j < runLen f l beg → f (beg + j) = f beg) ∧
    ∀ k, 1 ≤ k → k ≤ min 127 (l - beg) → (∀ j, j < k → f (beg + j) = f beg) → k ≤ runLen f l beg

/-- Rule R100: a plane of `l` bytes is encoded in at most `l + ceil(l / 128)` bytes. -/
def Obligations.EncodedPlaneIsBounded : Prop :=
  ∀ (f : Nat → Byte) (l : Nat), (encodePlane f l).length ≤ l + (l + 127) / 128

/-- Rules R87, R97, R99: with a sink that accepts, ENCODE_ROW runs to DONE and its state machine has emitted exactly the
bytes of the encoding function: marker and four planes, or the raw row. -/
def Obligations.StateMachineEmitsEncoding : Prop :=
  ∀ (s : State) (len : BitVec 16), ready s → lenInRange s.params len → s.sink = .acceptAll → s.agenda = [] →
    ∃ a n t, exec (.encodeRow len) s = .next a ∧ runSteps n a = .next t ∧
      t.sunk = s.sunk ++ encodeRowBytes s len ∧
      t.outcount = BitVec.ofNat 32 (encodeRowBytes s len).length ∧
      t.fsm = .idle ∧ t.done = true ∧ t.err = false ∧ t.errcode = 0 ∧ t.pos = len ∧
      t.path = (if 8 ≤ len.toNat ∧ len.toNat ≤ 32767 then 2 else 1) ∧
      t.plane = (if 8 ≤ len.toNat ∧ len.toNat ≤ 32767 then 3 else 0) ∧
      t.mem = s.mem ∧ t.memTag = s.memTag ∧ t.prevpix = s.prevpix ∧ t.prevValid = s.prevValid ∧ t.q = s.q ∧
      t.incount = 0

/-- Rules R45, R98: a sink that fails after `n` bytes, fewer than the row's encoding has, ends ENCODE_ROW with ERR_WRITE:
exactly the first `n` bytes of the encoding are accepted, OUTCOUNT is `n`, and the buffers are unchanged. -/
def Obligations.SinkFailureTruncatesRow : Prop :=
  ∀ (s : State) (len : BitVec 16) (n : Nat), ready s → lenInRange s.params len → s.sink = .failAt n → s.agenda = [] →
    n < (encodeRowBytes s len).length →
    ∃ a m t, exec (.encodeRow len) s = .next a ∧ runSteps m a = .next t ∧
      t.sunk = s.sunk ++ (encodeRowBytes s len).take n ∧ t.outcount = BitVec.ofNat 32 n ∧
      t.fsm = .idle ∧ t.done = false ∧ t.err = true ∧ t.errcode = 5 ∧ t.offer = none ∧
      t.mem = s.mem ∧ t.memTag = s.memTag ∧ t.prevpix = s.prevpix ∧ t.prevValid = s.prevValid ∧ t.q = s.q

/-! ### Encoder against decoder -/

/-- Rule R102: the encoding of a plane decodes to exactly the plane's bytes, with no overrun, and the bytes after it stay
in the stream. -/
def Obligations.EncodedPlaneDecodes : Prop :=
  ∀ (s : State) (f : Nat → Byte) (rest : List Byte), s.inReset = false → s.agenda = [] → s.fsm = .dCtl → s.j = 0 →
    8 ≤ s.len → s.len ≤ 32767 → s.q = encodePlane f s.len ++ rest →
    ∃ n t, runSteps n s = .next t ∧ (∀ x, x < s.len → t.rowByte x s.pl.toNat = f x) ∧
      sameOutside (inPlane s.pl.toNat 0 s.len) s t ∧ t.q = rest ∧
      t.incount = s.incount + BitVec.ofNat 32 (encodePlane f s.len).length ∧
      (s.pl = 3 → t.fsm = .idle ∧ t.done = true ∧ t.err = false) ∧
      (s.pl ≠ 3 → t.fsm = .dCtl ∧ t.pl = s.pl + 1 ∧ t.j = 0)

/-- Rule R86, first item: for 8 to 32767 pixels and any ROW contents, DECODE_ROW on the bytes ENCODE_ROW emits restores the
row, on the adaptive path, consuming exactly those bytes. -/
def Obligations.AdaptiveRowRoundTrip : Prop :=
  ∀ (s d : State) (len : BitVec 16) (first : Bool) (rest : List Byte),
    8 ≤ len.toNat → len.toNat ≤ 32767 → ready d → lenInRange d.params len → d.agenda = [] →
    d.q = encodeRowBytes s len ++ rest →
    ∃ a n t, exec (.decodeRow first len) d = .next a ∧ runSteps n a = .next t ∧
      t.fsm = .idle ∧ t.done = true ∧ t.path = 2 ∧ t.q = rest ∧
      t.incount = BitVec.ofNat 32 (encodeRowBytes s len).length ∧
      (∀ x, x < len.toNat → t.rowPixel x = s.rowPixel x) ∧ t.prevpix = s.rowPixel (len.toNat - 1) ∧
      t.prevValid = true

/-- Rule R86, second item: for a raw row the same holds when no pixel of the row has R = G = B = 1. -/
def Obligations.RawRowRoundTrip : Prop :=
  ∀ (s d : State) (len : BitVec 16) (first : Bool) (rest : List Byte),
    (len.toNat < 8 ∨ 32767 < len.toNat) → ready d → lenInRange d.params len → d.agenda = [] →
    (∀ x, x < len.toNat → (s.rowPixel x).extractLsb' 0 24 ≠ 0x010101#24) →
    d.q = encodeRowBytes s len ++ rest →
    ∃ a n t, exec (.decodeRow first len) d = .next a ∧ runSteps n a = .next t ∧
      t.fsm = .idle ∧ t.done = true ∧ t.path = 1 ∧ t.q = rest ∧
      t.incount = BitVec.ofNat 32 (encodeRowBytes s len).length ∧
      (∀ x, x < len.toNat → t.rowPixel x = s.rowPixel x) ∧ t.prevpix = s.rowPixel (len.toNat - 1) ∧
      t.prevValid = true

/-! ### The converter -/

/-- Rules R103, R105, R111: the conversion completes. Each pixel of the row gives its three channels with the shared
exponent and alpha 1.0; FBUF beyond LEN, ROW and every other register are unchanged. -/
def Obligations.ConvertRowFillsFbuf : Prop :=
  ∀ s : State, s.inReset = false → s.agenda = [] → s.fsm = .convert →
    ∃ t, step s = .next t ∧
      (∀ x, x < s.len →
        t.fbWord x 0 = channel s.params.convRound (s.rowByte x 0) (s.rowByte x 3) ∧
        t.fbWord x 1 = channel s.params.convRound (s.rowByte x 1) (s.rowByte x 3) ∧
        t.fbWord x 2 = channel s.params.convRound (s.rowByte x 2) (s.rowByte x 3) ∧
        t.fbWord x 3 = 0x3F800000) ∧
      sameOutside (inFb s.len) s t ∧
      t = { s with
        mem := t.mem, pos := s.lenField, plane := 0, done := true, err := false, errcode := 0, fsm := .idle,
        hold := [], offer := none }

/-- Rule R107: rounding a fraction takes a nearest integer, and on a tie the even one. -/
def Obligations.RoundEvenIsNearest : Prop :=
  ∀ p q : Nat, 0 < q →
    2 * ((p : Int) - q * roundEven p q).natAbs ≤ q ∧
    (2 * ((p : Int) - q * roundEven p q).natAbs = q → roundEven p q % 2 = 0)

/-- Rules R104, R107: in mode CR a channel is a binary32 value nearest to `m/255 * 2^(E-128)` among all finite
non-negative ones, and the one with an even fraction if another value is as near. Values are in units of 2^-149. -/
def Obligations.ChannelIsCorrectlyRounded : Prop :=
  ∀ (m e : Byte) (w : Word), w.toNat < 0x7F800000 →
    let dist := fun v : Word => ((255 * unitsOf v : Int) - (m.toNat * 2 ^ (e.toNat + 21) : Nat)).natAbs
    dist (channel .cr m e) ≤ dist w ∧
    (dist (channel .cr m e) = dist w → w ≠ channel .cr m e → (channel .cr m e).getLsbD 0 = false)

/-- Rule R108: the range of the converter in both modes. Zero mantissas give +0.0, all others lie between 0x00002020 and
0x7F000000, both reached; a result is subnormal exactly when `m * 2^E < 1020`, and (255, 2) gives 0x00800000. -/
def Obligations.ChannelRange : Prop :=
  ∀ (mode : ConvRound) (m e : Byte),
    (m = 0 → channel mode m e = 0) ∧
    (m ≠ 0 → 0x00002020 ≤ (channel mode m e).toNat ∧ (channel mode m e).toNat ≤ 0x7F000000 ∧
      ((channel mode m e).toNat < 0x00800000 ↔ m.toNat * 2 ^ e.toNat < 1020)) ∧
    channel mode 255 255 = 0x7F000000 ∧ channel mode 1 0 = 0x00002020 ∧ channel mode 255 2 = 0x00800000

/-- Rule R110, third item: for `E >= 4` the two modes agree on every `m`. -/
def Obligations.RoundingModesAgreeFromFour : Prop :=
  ∀ m e : Byte, 4 ≤ e.toNat → channel .f32Step m e = channel .cr m e

/-! ### The host's accesses -/

/-- Rules R36, R118: an access that is answered with SLVERR has no other effect, and a refused read returns 0. That the data
of a refused write is 0 too is the model's choice of log entry 18. -/
def Obligations.SlverrHasNoEffect : Prop :=
  ∀ (s t : State) (op : HostOp) (rest : List Turn) (d : Word),
    s.agenda = .host op :: rest → ((∃ a z, op = .read a z) ∨ ∃ a z v, op = .write a z v) →
    step s = .next t → t.reply = some { resp := .slverr, data := d } →
    d = 0 ∧ t = { s with agenda := rest, reply := slverrReply }

/-- Rules R34, R36 to R41, R128: which accesses are answered with SLVERR. -/
def Obligations.RefusedAccesses : Prop :=
  ∀ (s : State) (addr : Word) (size : Nat) (v : Word) (rest : List Turn), addr.toNat < 0x200000 →
    let a := addr.toNat
    let always := s.inReset = true ∨ size ≠ 4 ∨ a % 4 ≠ 0 ∨ (0x24 ≤ a ∧ a < 0x40000) ∨ (0x80000 ≤ a ∧ a < 0x100000)
    let noPixel := (0x40000 ≤ a ∧ a < 0x80000 ∧ s.params.rowMax.toNat ≤ (a - 0x40000) / 4) ∨
      (0x100000 ≤ a ∧ s.params.rowMax.toNat ≤ (a - 0x100000) / 16)
    let window := (0x40000 ≤ a ∧ a < 0x80000) ∨ 0x100000 ≤ a
    let readOnly := a < 0x8 ∨ (0x14 ≤ a ∧ a < 0x24) ∨ 0x100000 ≤ a
    (s.agenda = .host (.read addr size) :: rest → (always ∨ noPixel ∨ (window ∧ s.fsm ≠ .idle)) →
      step s = .next { s with agenda := rest, reply := slverrReply }) ∧
    (s.agenda = .host (.write addr size v) :: rest →
      (always ∨ noPixel ∨ readOnly ∨ (window ∧ s.fsm ≠ .idle) ∨ (a = 0x00C ∧ s.fsm ≠ .idle)) →
      step s = .next { s with agenda := rest, reply := slverrReply })

/-- Rule R15: ID always reads 0x48445231, its bytes lowest address first are 31 52 44 48, and a write to it gets SLVERR and
changes nothing. -/
def Obligations.IdReadsItsConstant : Prop :=
  wordBytes idWord = [0x31, 0x52, 0x44, 0x48] ∧
  ∀ (s : State) (rest : List Turn), s.inReset = false →
    (s.agenda = .host (.read 0 4) :: rest → step s = .next { s with agenda := rest, reply := okReply 0x48445231 }) ∧
    (∀ v, s.agenda = .host (.write 0 4 v) :: rest → step s = .next { s with agenda := rest, reply := slverrReply })

/-- Rules R14, R16 to R24, R36: what the host reads from the registers; reading changes nothing. PARAM, CTRL and CMD read
so whether or not the engine is busy, the other registers of an IDLE block. PARAM, CTRL and STATUS are given field by
field. -/
def Obligations.IdleRegistersReadTheirValues : Prop :=
  ∀ (s : State) (addr : Word) (rest : List Turn), s.inReset = false → s.agenda = .host (.read addr 4) :: rest →
    (addr = 0x004 → ∃ w : Word, step s = .next { s with agenda := rest, reply := okReply w } ∧
      w.extractLsb' 0 16 = s.params.rowMax ∧ w.getLsbD 16 = s.params.lenChk ∧
      w.getLsbD 17 = (s.params.convRound == .f32Step) ∧ w.extractLsb' 18 14 = 0) ∧
    (addr = 0x008 → ∃ w : Word, step s = .next { s with agenda := rest, reply := okReply w } ∧
      w.getLsbD 0 = s.ie ∧ w.extractLsb' 1 31 = 0) ∧
    (addr = 0x00C → step s = .next { s with agenda := rest, reply := okReply s.cmd }) ∧
    (s.fsm = .idle →
      (addr = 0x010 → ∃ w : Word, step s = .next { s with agenda := rest, reply := okReply w } ∧
        w.getLsbD 0 = false ∧ w.getLsbD 1 = s.done ∧ w.getLsbD 2 = s.err ∧ w.getLsbD 3 = s.prevValid ∧
        w.extractLsb' 4 4 = s.errcode ∧ w.extractLsb' 8 2 = s.path ∧ w.extractLsb' 10 2 = s.plane ∧
        w.extractLsb' 12 20 = 0) ∧
      (addr = 0x014 → step s = .next { s with agenda := rest, reply := okReply s.incount }) ∧
      (addr = 0x018 → step s = .next { s with agenda := rest, reply := okReply s.outcount }) ∧
      (addr = 0x01C → step s = .next { s with agenda := rest, reply := okReply (0#16 ++ s.pos) }) ∧
      (addr = 0x020 → step s = .next { s with agenda := rest, reply := okReply s.prevpix }))

/-- Rule R14: while BUSY = 1 a STATUS read gives BUSY 1 and DONE, ERR and ERRCODE 0, and a read of STATUS, INCOUNT,
OUTCOUNT, POS or PREVPIX changes nothing but the draw of its unspecified value. -/
def Obligations.BusyReadsShowOnlyBusy : Prop :=
  ∀ (s : State) (addr : Word) (rest : List Turn), s.inReset = false → s.fsm ≠ .idle →
    s.agenda = .host (.read addr 4) :: rest →
    (addr = 0x010 ∨ addr = 0x014 ∨ addr = 0x018 ∨ addr = 0x01C ∨ addr = 0x020) →
    ∃ w : Word, step s = .next { s with agenda := rest, reply := okReply w, fresh := s.fresh + 1 } ∧
      (addr = 0x010 → w.getLsbD 0 = true ∧ w.getLsbD 1 = false ∧ w.getLsbD 2 = false ∧ w.extractLsb' 4 4 = 0 ∧
        w.extractLsb' 12 20 = 0)

/-- Rule R20: a host write of `v` to STATUS clears DONE if bit 1 is set, and ERR and ERRCODE if bit 2 is set; every other
bit is ignored, and the response is OKAY whether or not the engine is busy. -/
def Obligations.StatusWriteClearsFlags : Prop :=
  ∀ (s : State) (v : Word) (rest : List Turn), s.inReset = false → s.agenda = .host (.write 0x010 4 v) :: rest →
    step s = .next { s with
      agenda := rest, reply := okReply 0,
      done := if v.getLsbD 1 then false else s.done,
      err := if v.getLsbD 2 then false else s.err,
      errcode := if v.getLsbD 2 then 0 else s.errcode }

/-- Rules R31, R119: the interrupt line follows DONE and ERR while IE = 1: it rises with the end of a command and when IE is
set after it, and falls with the ACK and with IE. -/
def Obligations.InterruptFollowsDoneAndErr : Prop :=
  ∀ s : State,
    ((complete s).irq = s.ie) ∧ (∀ code, (raiseError code s).irq = s.ie) ∧
    (∀ v rest, s.inReset = false → s.agenda = .host (.write 0x008 4 v) :: rest → v.getLsbD 1 = false →
      ∃ t, step s = .next t ∧ t.irq = (v.getLsbD 0 && (s.done || s.err)) ∧ t = { s with
        agenda := rest, reply := okReply 0, ie := v.getLsbD 0 }) ∧
    (∀ rest, s.inReset = false → s.agenda = .host (.write 0x010 4 6) :: rest → ∃ t, step s = .next t ∧ t.irq = false)

/-- Rules R17, R32, R129, R130: a write to CTRL with SRST = 1 resets every register and the engine, with OKAY. The streams
stay, no byte is on offer, and the buffers stay if the engine was IDLE. The engine's internal registers are left
open. That the sink's mode stays, and with it an answer queued for the byte that is withdrawn, is the model's choice of
log entry 25, of which rule R130 does not speak. -/
def Obligations.SoftResetClearsRegisters : Prop :=
  ∀ (s : State) (v : Word) (rest : List Turn), s.inReset = false → s.agenda = .host (.write 0x008 4 v) :: rest →
    v.getLsbD 1 = true →
    ∃ t, step s = .next t ∧ (s.fsm = .idle → t.mem = s.mem ∧ t.memTag = s.memTag) ∧ t.irq = false ∧
      t = { t with
        params := s.params, inReset := false, ie := false, cmd := 0, done := false, err := false, prevValid := false,
        errcode := 0, path := 0, plane := 0, incount := 0, outcount := 0, pos := 0, prevpix := 0, fsm := .idle,
        q := s.q, ended := s.ended, offer := none, sink := s.sink, sunk := s.sunk, reply := okReply 0, agenda := rest }

/-- Rules R32, R128, R130: after the release of the reset input every register has its reset value and no stream byte has
moved; while the input is asserted the engine does not move. That the registers take these values already when the input
is asserted is the model's choice of log entry 14, that a release of an input that is not asserted resets the block too
is its choice of log entry 24, and that the sink's mode stays, with an answer queued for the byte that is withdrawn, is
its choice of log entry 25. -/
def Obligations.HardResetClearsRegisters : Prop :=
  ∀ (s : State) (rest : List Turn) (held : Bool),
    s.agenda = .host (if held then .assertReset else .releaseReset) :: rest →
    ∃ t, step s = .next t ∧ t.irq = false ∧
      t = { t with
        params := s.params, inReset := held, ie := false, cmd := 0, done := false, err := false, prevValid := false,
        errcode := 0, path := 0, plane := 0, incount := 0, outcount := 0, pos := 0, prevpix := 0, fsm := .idle,
        q := s.q, ended := s.ended, offer := none, sink := s.sink, sunk := s.sunk, agenda := rest } ∧
      (held = true → engineTurn t = .next t)

/-- Rules R28, R35, R37, R39: a write to word `i` of the ROWBUF window of an IDLE block stores ROW[i] and nothing else, and
a read of that word then gives it. -/
def Obligations.RowbufWriteThenRead : Prop :=
  ∀ (s : State) (addr : Word) (i : Nat) (v : Word) (rest : List Turn), ready s → i < s.params.rowMax.toNat →
    addr.toNat = 0x040000 + 4 * i → s.agenda = .host (.write addr 4 v) :: .host (.read addr 4) :: rest →
    ∃ t, step s = .next t ∧ t.rowPixel i = v ∧
      (∀ p, p < 4 → t.rowByte i p = v.extractLsb' (8 * p) 8) ∧ sameOutside (inRow i 1) s t ∧
      t = { s with mem := t.mem, reply := okReply 0, agenda := .host (.read addr 4) :: rest } ∧
      step t = .next { t with reply := okReply v, agenda := rest }

/-- Rules R29, R36, R40: a read of the FBUF window of an IDLE block gives FB[i][c] and changes nothing else. -/
def Obligations.FbufReads : Prop :=
  ∀ (s : State) (addr : Word) (i c : Nat) (rest : List Turn), ready s → i < s.params.rowMax.toNat → c < 4 →
    addr.toNat = 0x100000 + 16 * i + 4 * c → s.agenda = .host (.read addr 4) :: rest →
    step s = .next { s with reply := okReply (s.fbWord i c), agenda := rest }

/-- Log entries 9 and 17, the model's choices: an access outside the 21-bit space, read or write, is a fault; bytes after
the end of the stream, and clearing the end while BUSY = 1, are refused; otherwise PUSH, END and REOPEN change the input
stream as rule R42 says. -/
def Obligations.InputStreamEvents : Prop :=
  ∀ (s : State) (rest : List Turn) (bytes : List Byte) (addr : Word) (size : Nat) (v : Word),
    (s.agenda = .host (.push bytes) :: rest →
      (s.ended = false → step s = .next { s with q := s.q ++ bytes, agenda := rest }) ∧
      (s.ended = true → step s = .refused .pushAfterEnd)) ∧
    (s.agenda = .host .endStream :: rest → step s = .next { s with ended := true, agenda := rest }) ∧
    (s.agenda = .host .reopen :: rest →
      (s.fsm = .idle → step s = .next { s with ended := false, agenda := rest }) ∧
      (s.fsm ≠ .idle → step s = .refused .reopenWhileBusy)) ∧
    ((s.agenda = .host (.read addr size) :: rest ∨ s.agenda = .host (.write addr size v) :: rest) →
      0x200000 ≤ addr.toNat → step s = .fault .outsideAddressSpace)

/-! ### The whole machine -/

/-- Rules R4, R16, R32: the registers and the engine right after reset. That PARAM reads 0x00004000 there rests on log
entry 6, the model's choice: State.reset has the default parameters of rule R4. -/
def Obligations.ResetValues : Prop :=
  State.reset.ie = false ∧ State.reset.cmd = 0 ∧ idleStatusWord State.reset = 0 ∧ State.reset.busy = false ∧
  State.reset.incount = 0 ∧ State.reset.outcount = 0 ∧ State.reset.pos = 0 ∧ State.reset.prevpix = 0 ∧
  State.reset.irq = false ∧ State.reset.fsm = .idle ∧ State.reset.offer = none ∧
  paramWord State.reset.params = 0x00004000 ∧ State.reset.inReset = false

/-- The state after reset (rule R32) meets the invariant. That its parameters are legal and its SHIFT is 0 rests on log
entries 6 and 10, the model's choices. -/
def Obligations.ResetMeetsInvariant : Prop := Inv State.reset

/-- Every step keeps the invariant: the memory's canonical form and its addresses, DONE and ERR exclusive, ERRCODE against
ERR, POS after DONE, and what each state of the engine needs of its registers (rules R4, R14, R19, R23, R27, R32, R45,
R80, R96, R113, R127). That SHIFT is 0, 8 or 16 is log entry 13, the model's choice. -/
def Obligations.EveryStepKeepsInvariant : Prop :=
  ∀ s t : State, Inv s → step s = .next t → Inv t

/-- Rule R51: the engine's turn changes no buffer byte outside ROW[0 .. LEN-1] and FB[0 .. LEN-1]. -/
def Obligations.EngineStaysInItsRow : Prop :=
  ∀ s t : State, Inv s → engineTurn s = .next t →
    sameOutside (fun a => inRow 0 s.len a ∨ inFb s.len a) s t

/-- Rules R24, R98, R99, R111: a turn of ENCODE_ROW or CONVERT_ROW changes neither ROW, nor PREVPIX, nor PREV_VALID, nor the
input stream. -/
def Obligations.EncodeAndConvertKeepRow : Prop :=
  ∀ s t : State, (s.fsm.encoding = true ∨ s.fsm = .convert) → engineTurn s = .next t →
    (∀ a, a < 0x080000 → t.readByte a = s.readByte a) ∧ t.prevpix = s.prevpix ∧ t.prevValid = s.prevValid ∧
    t.q = s.q ∧ t.incount = s.incount ∧ t.ended = s.ended

/-- Rules R45, R112, R130: what the sink has accepted stays accepted: no step takes a byte back. -/
def Obligations.AcceptedOutputIsNeverLost : Prop :=
  ∀ s t : State, step s = .next t → s.sunk <+: t.sunk

/-- Rule R127: an IDLE engine starts nothing by itself: only a write to CMD makes it leave IDLE. -/
def Obligations.IdleEngineStartsNothing : Prop :=
  ∀ s t : State, s.fsm = .idle → (∀ w rest, s.agenda ≠ .host (.write 0x00C 4 w) :: rest) → step s = .next t →
    t.fsm = .idle

/-- Rule R16: no step changes the implementation parameters. -/
def Obligations.ParametersAreConstant : Prop :=
  ∀ s t : State, step s = .next t → t.params = s.params
end

