-- ==== Sys2Proof/Laws/Decode.lean ====
section
/-! SUPPORT. The fields of a command word, and bytes against words. -/

namespace Sys2Proof

@[simp] theorem cmdOp_cmdWord (op : BitVec 4) (first : Bool) (len : BitVec 16) : cmdOp (cmdWord op first len) = op := by
  apply BitVec.eq_of_getLsbD_eq
  intro i hi
  simp only [cmdOp, cmdWord, BitVec.getLsbD_extractLsb', BitVec.getLsbD_append]
  interval_cases i <;> simp

@[simp] theorem cmdReservedBits_cmdWord (op : BitVec 4) (first : Bool) (len : BitVec 16) :
    cmdReservedBits (cmdWord op first len) = 0 := by
  apply BitVec.eq_of_getLsbD_eq
  intro i hi
  simp only [cmdReservedBits, cmdWord, BitVec.getLsbD_extractLsb', BitVec.getLsbD_append]
  interval_cases i <;> simp

@[simp] theorem cmdFirst_cmdWord (op : BitVec 4) (first : Bool) (len : BitVec 16) :
    cmdFirst (cmdWord op first len) = first := by
  simp only [cmdFirst, cmdWord, BitVec.getLsbD_append]
  cases first <;> simp

@[simp] theorem cmdLen_cmdWord (op : BitVec 4) (first : Bool) (len : BitVec 16) : cmdLen (cmdWord op first len) = len := by
  apply BitVec.eq_of_getLsbD_eq
  intro i hi
  simp only [cmdLen, cmdWord, BitVec.getLsbD_extractLsb', BitVec.getLsbD_append]
  interval_cases i <;> simp

/-- A word built from OP 1, 2 or 3, with FIRST only on DECODE_ROW, is not reserved. -/
theorem isReserved_cmdWord (op : BitVec 4) (first : Bool) (len : BitVec 16) :
    isReserved (cmdWord op first len) = (!(op == 1 || op == 2 || op == 3) || (first && op != 1)) := by
  simp [isReserved]

/-- The bytes of a word, put back in order, are the word. -/
theorem wordOfBytes_wordBytes (w : Word) :
    wordOfBytes (w.extractLsb' 0 8) (w.extractLsb' 8 8) (w.extractLsb' 16 8) (w.extractLsb' 24 8) = w := by
  apply BitVec.eq_of_getLsbD_eq
  intro i hi
  simp only [wordOfBytes, BitVec.getLsbD_extractLsb', BitVec.getLsbD_append]
  interval_cases i <;> simp

/-- The bytes of a word built from four bytes are those bytes. -/
theorem wordBytes_wordOfBytes (b0 b1 b2 b3 : Byte) : wordBytes (wordOfBytes b0 b1 b2 b3) = [b0, b1, b2, b3] := by
  simp only [wordBytes, List.cons.injEq, and_true]
  refine ⟨?_, ?_, ?_, ?_⟩ <;>
  · apply BitVec.eq_of_getLsbD_eq
    intro i hi
    simp only [wordOfBytes, BitVec.getLsbD_extractLsb', BitVec.getLsbD_append]
    interval_cases i <;> simp

@[simp] theorem wordBytes_length (w : Word) : (wordBytes w).length = 4 := rfl

@[simp] theorem runCount_runControl (n : BitVec 7) : runCount (runControl n) = n := by
  apply BitVec.eq_of_getLsbD_eq
  intro i hi
  simp only [runCount, runControl, BitVec.getLsbD_extractLsb', BitVec.getLsbD_append]
  interval_cases i <;> simp

theorem runControl_toNat (n : BitVec 7) : (runControl n).toNat = 128 + n.toNat := by
  have h : n.toNat < 2 ^ 7 := n.isLt
  have e := Nat.two_pow_add_eq_or_of_lt h 1
  rw [runControl, BitVec.toNat_append]
  exact e.symm

end Sys2Proof
end

