-- ==== Sys2Proof/Laws/State.lean ====
section
/-! SUPPORT. What each record update does to each field of State, and to the views that depend on fields it leaves
alone. Every lemma is true by unfolding the update once. -/

namespace Sys2Proof.Machine

/-! ### takeBytes -/

section
variable (n : Nat) (s : State)
@[simp] theorem takeBytes_params : (takeBytes n s).params = s.params := rfl
@[simp] theorem takeBytes_inReset : (takeBytes n s).inReset = s.inReset := rfl
@[simp] theorem takeBytes_ie : (takeBytes n s).ie = s.ie := rfl
@[simp] theorem takeBytes_cmd : (takeBytes n s).cmd = s.cmd := rfl
@[simp] theorem takeBytes_done : (takeBytes n s).done = s.done := rfl
@[simp] theorem takeBytes_err : (takeBytes n s).err = s.err := rfl
@[simp] theorem takeBytes_prevValid : (takeBytes n s).prevValid = s.prevValid := rfl
@[simp] theorem takeBytes_errcode : (takeBytes n s).errcode = s.errcode := rfl
@[simp] theorem takeBytes_path : (takeBytes n s).path = s.path := rfl
@[simp] theorem takeBytes_plane : (takeBytes n s).plane = s.plane := rfl
@[simp] theorem takeBytes_incount : (takeBytes n s).incount = s.incount + BitVec.ofNat 32 n := rfl
@[simp] theorem takeBytes_outcount : (takeBytes n s).outcount = s.outcount := rfl
@[simp] theorem takeBytes_pos : (takeBytes n s).pos = s.pos := rfl
@[simp] theorem takeBytes_prevpix : (takeBytes n s).prevpix = s.prevpix := rfl
@[simp] theorem takeBytes_i : (takeBytes n s).i = s.i := rfl
@[simp] theorem takeBytes_j : (takeBytes n s).j = s.j := rfl
@[simp] theorem takeBytes_pl : (takeBytes n s).pl = s.pl := rfl
@[simp] theorem takeBytes_shift : (takeBytes n s).shift = s.shift := rfl
@[simp] theorem takeBytes_cur : (takeBytes n s).cur = s.cur := rfl
@[simp] theorem takeBytes_beg : (takeBytes n s).beg = s.beg := rfl
@[simp] theorem takeBytes_rc : (takeBytes n s).rc = s.rc := rfl
@[simp] theorem takeBytes_ln : (takeBytes n s).ln = s.ln := rfl
@[simp] theorem takeBytes_k : (takeBytes n s).k = s.k := rfl
@[simp] theorem takeBytes_fsm : (takeBytes n s).fsm = s.fsm := rfl
@[simp] theorem takeBytes_hold : (takeBytes n s).hold = s.hold := rfl
@[simp] theorem takeBytes_mem : (takeBytes n s).mem = s.mem := rfl
@[simp] theorem takeBytes_memTag : (takeBytes n s).memTag = s.memTag := rfl
@[simp] theorem takeBytes_q : (takeBytes n s).q = s.q.drop n := rfl
@[simp] theorem takeBytes_ended : (takeBytes n s).ended = s.ended := rfl
@[simp] theorem takeBytes_offer : (takeBytes n s).offer = s.offer := rfl
@[simp] theorem takeBytes_sink : (takeBytes n s).sink = s.sink := rfl
@[simp] theorem takeBytes_sunk : (takeBytes n s).sunk = s.sunk := rfl
@[simp] theorem takeBytes_reply : (takeBytes n s).reply = s.reply := rfl
@[simp] theorem takeBytes_agenda : (takeBytes n s).agenda = s.agenda := rfl
@[simp] theorem takeBytes_fresh : (takeBytes n s).fresh = s.fresh := rfl
@[simp] theorem takeBytes_lenField : (takeBytes n s).lenField = s.lenField := rfl
@[simp] theorem takeBytes_len : (takeBytes n s).len = s.len := rfl
@[simp] theorem takeBytes_busy : (takeBytes n s).busy = s.busy := rfl
@[simp] theorem takeBytes_readByte (a : Nat) : (takeBytes n s).readByte a = s.readByte a := rfl
@[simp] theorem takeBytes_rowPixel (x : Nat) : (takeBytes n s).rowPixel x = s.rowPixel x := rfl
end

/-! ### takeToken -/

section
variable (n : Nat) (s : State)
@[simp] theorem takeToken_params : (takeToken n s).params = s.params := rfl
@[simp] theorem takeToken_inReset : (takeToken n s).inReset = s.inReset := rfl
@[simp] theorem takeToken_ie : (takeToken n s).ie = s.ie := rfl
@[simp] theorem takeToken_cmd : (takeToken n s).cmd = s.cmd := rfl
@[simp] theorem takeToken_done : (takeToken n s).done = s.done := rfl
@[simp] theorem takeToken_err : (takeToken n s).err = s.err := rfl
@[simp] theorem takeToken_prevValid : (takeToken n s).prevValid = s.prevValid := rfl
@[simp] theorem takeToken_errcode : (takeToken n s).errcode = s.errcode := rfl
@[simp] theorem takeToken_path : (takeToken n s).path = s.path := rfl
@[simp] theorem takeToken_plane : (takeToken n s).plane = s.plane := rfl
@[simp] theorem takeToken_incount : (takeToken n s).incount = s.incount + BitVec.ofNat 32 (n - s.hold.length) := rfl
@[simp] theorem takeToken_outcount : (takeToken n s).outcount = s.outcount := rfl
@[simp] theorem takeToken_pos : (takeToken n s).pos = s.pos := rfl
@[simp] theorem takeToken_prevpix : (takeToken n s).prevpix = s.prevpix := rfl
@[simp] theorem takeToken_i : (takeToken n s).i = s.i := rfl
@[simp] theorem takeToken_j : (takeToken n s).j = s.j := rfl
@[simp] theorem takeToken_pl : (takeToken n s).pl = s.pl := rfl
@[simp] theorem takeToken_shift : (takeToken n s).shift = s.shift := rfl
@[simp] theorem takeToken_cur : (takeToken n s).cur = s.cur := rfl
@[simp] theorem takeToken_beg : (takeToken n s).beg = s.beg := rfl
@[simp] theorem takeToken_rc : (takeToken n s).rc = s.rc := rfl
@[simp] theorem takeToken_ln : (takeToken n s).ln = s.ln := rfl
@[simp] theorem takeToken_k : (takeToken n s).k = s.k := rfl
@[simp] theorem takeToken_fsm : (takeToken n s).fsm = s.fsm := rfl
@[simp] theorem takeToken_hold : (takeToken n s).hold = [] := rfl
@[simp] theorem takeToken_mem : (takeToken n s).mem = s.mem := rfl
@[simp] theorem takeToken_memTag : (takeToken n s).memTag = s.memTag := rfl
@[simp] theorem takeToken_q : (takeToken n s).q = s.q.drop (n - s.hold.length) := rfl
@[simp] theorem takeToken_ended : (takeToken n s).ended = s.ended := rfl
@[simp] theorem takeToken_offer : (takeToken n s).offer = s.offer := rfl
@[simp] theorem takeToken_sink : (takeToken n s).sink = s.sink := rfl
@[simp] theorem takeToken_sunk : (takeToken n s).sunk = s.sunk := rfl
@[simp] theorem takeToken_reply : (takeToken n s).reply = s.reply := rfl
@[simp] theorem takeToken_agenda : (takeToken n s).agenda = s.agenda := rfl
@[simp] theorem takeToken_fresh : (takeToken n s).fresh = s.fresh := rfl
@[simp] theorem takeToken_lenField : (takeToken n s).lenField = s.lenField := rfl
@[simp] theorem takeToken_len : (takeToken n s).len = s.len := rfl
@[simp] theorem takeToken_busy : (takeToken n s).busy = s.busy := rfl
@[simp] theorem takeToken_readByte (a : Nat) : (takeToken n s).readByte a = s.readByte a := rfl
@[simp] theorem takeToken_rowPixel (x : Nat) : (takeToken n s).rowPixel x = s.rowPixel x := rfl
end

/-! ### holdBytes -/

section
variable (s : State)
@[simp] theorem holdBytes_params : (holdBytes s).params = s.params := rfl
@[simp] theorem holdBytes_inReset : (holdBytes s).inReset = s.inReset := rfl
@[simp] theorem holdBytes_ie : (holdBytes s).ie = s.ie := rfl
@[simp] theorem holdBytes_cmd : (holdBytes s).cmd = s.cmd := rfl
@[simp] theorem holdBytes_done : (holdBytes s).done = s.done := rfl
@[simp] theorem holdBytes_err : (holdBytes s).err = s.err := rfl
@[simp] theorem holdBytes_prevValid : (holdBytes s).prevValid = s.prevValid := rfl
@[simp] theorem holdBytes_errcode : (holdBytes s).errcode = s.errcode := rfl
@[simp] theorem holdBytes_path : (holdBytes s).path = s.path := rfl
@[simp] theorem holdBytes_plane : (holdBytes s).plane = s.plane := rfl
@[simp] theorem holdBytes_incount : (holdBytes s).incount = s.incount + BitVec.ofNat 32 s.q.length := rfl
@[simp] theorem holdBytes_outcount : (holdBytes s).outcount = s.outcount := rfl
@[simp] theorem holdBytes_pos : (holdBytes s).pos = s.pos := rfl
@[simp] theorem holdBytes_prevpix : (holdBytes s).prevpix = s.prevpix := rfl
@[simp] theorem holdBytes_i : (holdBytes s).i = s.i := rfl
@[simp] theorem holdBytes_j : (holdBytes s).j = s.j := rfl
@[simp] theorem holdBytes_pl : (holdBytes s).pl = s.pl := rfl
@[simp] theorem holdBytes_shift : (holdBytes s).shift = s.shift := rfl
@[simp] theorem holdBytes_cur : (holdBytes s).cur = s.cur := rfl
@[simp] theorem holdBytes_beg : (holdBytes s).beg = s.beg := rfl
@[simp] theorem holdBytes_rc : (holdBytes s).rc = s.rc := rfl
@[simp] theorem holdBytes_ln : (holdBytes s).ln = s.ln := rfl
@[simp] theorem holdBytes_k : (holdBytes s).k = s.k := rfl
@[simp] theorem holdBytes_fsm : (holdBytes s).fsm = s.fsm := rfl
@[simp] theorem holdBytes_hold : (holdBytes s).hold = s.hold ++ s.q := rfl
@[simp] theorem holdBytes_mem : (holdBytes s).mem = s.mem := rfl
@[simp] theorem holdBytes_memTag : (holdBytes s).memTag = s.memTag := rfl
@[simp] theorem holdBytes_q : (holdBytes s).q = s.q.drop s.q.length := rfl
@[simp] theorem holdBytes_ended : (holdBytes s).ended = s.ended := rfl
@[simp] theorem holdBytes_offer : (holdBytes s).offer = s.offer := rfl
@[simp] theorem holdBytes_sink : (holdBytes s).sink = s.sink := rfl
@[simp] theorem holdBytes_sunk : (holdBytes s).sunk = s.sunk := rfl
@[simp] theorem holdBytes_reply : (holdBytes s).reply = s.reply := rfl
@[simp] theorem holdBytes_agenda : (holdBytes s).agenda = s.agenda := rfl
@[simp] theorem holdBytes_fresh : (holdBytes s).fresh = s.fresh := rfl
@[simp] theorem holdBytes_lenField : (holdBytes s).lenField = s.lenField := rfl
@[simp] theorem holdBytes_len : (holdBytes s).len = s.len := rfl
@[simp] theorem holdBytes_busy : (holdBytes s).busy = s.busy := rfl
@[simp] theorem holdBytes_readByte (a : Nat) : (holdBytes s).readByte a = s.readByte a := rfl
@[simp] theorem holdBytes_rowPixel (x : Nat) : (holdBytes s).rowPixel x = s.rowPixel x := rfl
end

/-! ### toIdle -/

section
variable (s : State)
@[simp] theorem toIdle_params : (toIdle s).params = s.params := rfl
@[simp] theorem toIdle_inReset : (toIdle s).inReset = s.inReset := rfl
@[simp] theorem toIdle_ie : (toIdle s).ie = s.ie := rfl
@[simp] theorem toIdle_cmd : (toIdle s).cmd = s.cmd := rfl
@[simp] theorem toIdle_done : (toIdle s).done = s.done := rfl
@[simp] theorem toIdle_err : (toIdle s).err = s.err := rfl
@[simp] theorem toIdle_prevValid : (toIdle s).prevValid = s.prevValid := rfl
@[simp] theorem toIdle_errcode : (toIdle s).errcode = s.errcode := rfl
@[simp] theorem toIdle_path : (toIdle s).path = s.path := rfl
@[simp] theorem toIdle_plane : (toIdle s).plane = s.plane := rfl
@[simp] theorem toIdle_incount : (toIdle s).incount = s.incount := rfl
@[simp] theorem toIdle_outcount : (toIdle s).outcount = s.outcount := rfl
@[simp] theorem toIdle_pos : (toIdle s).pos = s.pos := rfl
@[simp] theorem toIdle_prevpix : (toIdle s).prevpix = s.prevpix := rfl
@[simp] theorem toIdle_i : (toIdle s).i = s.i := rfl
@[simp] theorem toIdle_j : (toIdle s).j = s.j := rfl
@[simp] theorem toIdle_pl : (toIdle s).pl = s.pl := rfl
@[simp] theorem toIdle_shift : (toIdle s).shift = s.shift := rfl
@[simp] theorem toIdle_cur : (toIdle s).cur = s.cur := rfl
@[simp] theorem toIdle_beg : (toIdle s).beg = s.beg := rfl
@[simp] theorem toIdle_rc : (toIdle s).rc = s.rc := rfl
@[simp] theorem toIdle_ln : (toIdle s).ln = s.ln := rfl
@[simp] theorem toIdle_k : (toIdle s).k = s.k := rfl
@[simp] theorem toIdle_fsm : (toIdle s).fsm = .idle := rfl
@[simp] theorem toIdle_hold : (toIdle s).hold = [] := rfl
@[simp] theorem toIdle_mem : (toIdle s).mem = s.mem := rfl
@[simp] theorem toIdle_memTag : (toIdle s).memTag = s.memTag := rfl
@[simp] theorem toIdle_q : (toIdle s).q = s.q := rfl
@[simp] theorem toIdle_ended : (toIdle s).ended = s.ended := rfl
@[simp] theorem toIdle_offer : (toIdle s).offer = none := rfl
@[simp] theorem toIdle_sink : (toIdle s).sink = s.sink := rfl
@[simp] theorem toIdle_sunk : (toIdle s).sunk = s.sunk := rfl
@[simp] theorem toIdle_reply : (toIdle s).reply = s.reply := rfl
@[simp] theorem toIdle_agenda : (toIdle s).agenda = s.agenda := rfl
@[simp] theorem toIdle_fresh : (toIdle s).fresh = s.fresh := rfl
@[simp] theorem toIdle_lenField : (toIdle s).lenField = s.lenField := rfl
@[simp] theorem toIdle_len : (toIdle s).len = s.len := rfl
@[simp] theorem toIdle_busy : (toIdle s).busy = false := rfl
@[simp] theorem toIdle_readByte (a : Nat) : (toIdle s).readByte a = s.readByte a := rfl
@[simp] theorem toIdle_rowPixel (x : Nat) : (toIdle s).rowPixel x = s.rowPixel x := rfl
end

/-! ### raiseError -/

section
variable (code : BitVec 4) (s : State)
@[simp] theorem raiseError_params : (raiseError code s).params = s.params := rfl
@[simp] theorem raiseError_inReset : (raiseError code s).inReset = s.inReset := rfl
@[simp] theorem raiseError_ie : (raiseError code s).ie = s.ie := rfl
@[simp] theorem raiseError_cmd : (raiseError code s).cmd = s.cmd := rfl
@[simp] theorem raiseError_done : (raiseError code s).done = false := rfl
@[simp] theorem raiseError_err : (raiseError code s).err = true := rfl
@[simp] theorem raiseError_prevValid : (raiseError code s).prevValid = s.prevValid := rfl
@[simp] theorem raiseError_errcode : (raiseError code s).errcode = code := rfl
@[simp] theorem raiseError_path : (raiseError code s).path = s.path := rfl
@[simp] theorem raiseError_plane : (raiseError code s).plane = s.plane := rfl
@[simp] theorem raiseError_incount : (raiseError code s).incount = s.incount := rfl
@[simp] theorem raiseError_outcount : (raiseError code s).outcount = s.outcount := rfl
@[simp] theorem raiseError_pos : (raiseError code s).pos = s.pos := rfl
@[simp] theorem raiseError_prevpix : (raiseError code s).prevpix = s.prevpix := rfl
@[simp] theorem raiseError_i : (raiseError code s).i = s.i := rfl
@[simp] theorem raiseError_j : (raiseError code s).j = s.j := rfl
@[simp] theorem raiseError_pl : (raiseError code s).pl = s.pl := rfl
@[simp] theorem raiseError_shift : (raiseError code s).shift = s.shift := rfl
@[simp] theorem raiseError_cur : (raiseError code s).cur = s.cur := rfl
@[simp] theorem raiseError_beg : (raiseError code s).beg = s.beg := rfl
@[simp] theorem raiseError_rc : (raiseError code s).rc = s.rc := rfl
@[simp] theorem raiseError_ln : (raiseError code s).ln = s.ln := rfl
@[simp] theorem raiseError_k : (raiseError code s).k = s.k := rfl
@[simp] theorem raiseError_fsm : (raiseError code s).fsm = .idle := rfl
@[simp] theorem raiseError_hold : (raiseError code s).hold = [] := rfl
@[simp] theorem raiseError_mem : (raiseError code s).mem = s.mem := rfl
@[simp] theorem raiseError_memTag : (raiseError code s).memTag = s.memTag := rfl
@[simp] theorem raiseError_q : (raiseError code s).q = s.q := rfl
@[simp] theorem raiseError_ended : (raiseError code s).ended = s.ended := rfl
@[simp] theorem raiseError_offer : (raiseError code s).offer = none := rfl
@[simp] theorem raiseError_sink : (raiseError code s).sink = s.sink := rfl
@[simp] theorem raiseError_sunk : (raiseError code s).sunk = s.sunk := rfl
@[simp] theorem raiseError_reply : (raiseError code s).reply = s.reply := rfl
@[simp] theorem raiseError_agenda : (raiseError code s).agenda = s.agenda := rfl
@[simp] theorem raiseError_fresh : (raiseError code s).fresh = s.fresh := rfl
@[simp] theorem raiseError_lenField : (raiseError code s).lenField = s.lenField := rfl
@[simp] theorem raiseError_len : (raiseError code s).len = s.len := rfl
@[simp] theorem raiseError_busy : (raiseError code s).busy = false := rfl
@[simp] theorem raiseError_readByte (a : Nat) : (raiseError code s).readByte a = s.readByte a := rfl
@[simp] theorem raiseError_rowPixel (x : Nat) : (raiseError code s).rowPixel x = s.rowPixel x := rfl
end

/-! ### complete -/

section
variable (s : State)
@[simp] theorem complete_params : (complete s).params = s.params := rfl
@[simp] theorem complete_inReset : (complete s).inReset = s.inReset := rfl
@[simp] theorem complete_ie : (complete s).ie = s.ie := rfl
@[simp] theorem complete_cmd : (complete s).cmd = s.cmd := rfl
@[simp] theorem complete_done : (complete s).done = true := rfl
@[simp] theorem complete_err : (complete s).err = false := rfl
@[simp] theorem complete_prevValid : (complete s).prevValid = s.prevValid := rfl
@[simp] theorem complete_errcode : (complete s).errcode = 0 := rfl
@[simp] theorem complete_path : (complete s).path = s.path := rfl
@[simp] theorem complete_plane : (complete s).plane = s.plane := rfl
@[simp] theorem complete_incount : (complete s).incount = s.incount := rfl
@[simp] theorem complete_outcount : (complete s).outcount = s.outcount := rfl
@[simp] theorem complete_pos : (complete s).pos = s.pos := rfl
@[simp] theorem complete_prevpix : (complete s).prevpix = s.prevpix := rfl
@[simp] theorem complete_i : (complete s).i = s.i := rfl
@[simp] theorem complete_j : (complete s).j = s.j := rfl
@[simp] theorem complete_pl : (complete s).pl = s.pl := rfl
@[simp] theorem complete_shift : (complete s).shift = s.shift := rfl
@[simp] theorem complete_cur : (complete s).cur = s.cur := rfl
@[simp] theorem complete_beg : (complete s).beg = s.beg := rfl
@[simp] theorem complete_rc : (complete s).rc = s.rc := rfl
@[simp] theorem complete_ln : (complete s).ln = s.ln := rfl
@[simp] theorem complete_k : (complete s).k = s.k := rfl
@[simp] theorem complete_fsm : (complete s).fsm = .idle := rfl
@[simp] theorem complete_hold : (complete s).hold = [] := rfl
@[simp] theorem complete_mem : (complete s).mem = s.mem := rfl
@[simp] theorem complete_memTag : (complete s).memTag = s.memTag := rfl
@[simp] theorem complete_q : (complete s).q = s.q := rfl
@[simp] theorem complete_ended : (complete s).ended = s.ended := rfl
@[simp] theorem complete_offer : (complete s).offer = none := rfl
@[simp] theorem complete_sink : (complete s).sink = s.sink := rfl
@[simp] theorem complete_sunk : (complete s).sunk = s.sunk := rfl
@[simp] theorem complete_reply : (complete s).reply = s.reply := rfl
@[simp] theorem complete_agenda : (complete s).agenda = s.agenda := rfl
@[simp] theorem complete_fresh : (complete s).fresh = s.fresh := rfl
@[simp] theorem complete_lenField : (complete s).lenField = s.lenField := rfl
@[simp] theorem complete_len : (complete s).len = s.len := rfl
@[simp] theorem complete_busy : (complete s).busy = false := rfl
@[simp] theorem complete_readByte (a : Nat) : (complete s).readByte a = s.readByte a := rfl
@[simp] theorem complete_rowPixel (x : Nat) : (complete s).rowPixel x = s.rowPixel x := rfl
end

/-! ### failDecode -/

section
variable (code : BitVec 4) (pos : BitVec 16) (plane : BitVec 2) (filled : Nat → Nat → Bool) (s : State)
@[simp] theorem failDecode_params : (failDecode code pos plane filled s).params = s.params := rfl
@[simp] theorem failDecode_inReset : (failDecode code pos plane filled s).inReset = s.inReset := rfl
@[simp] theorem failDecode_ie : (failDecode code pos plane filled s).ie = s.ie := rfl
@[simp] theorem failDecode_cmd : (failDecode code pos plane filled s).cmd = s.cmd := rfl
@[simp] theorem failDecode_done : (failDecode code pos plane filled s).done = false := rfl
@[simp] theorem failDecode_err : (failDecode code pos plane filled s).err = true := rfl
@[simp] theorem failDecode_prevValid : (failDecode code pos plane filled s).prevValid = false := rfl
@[simp] theorem failDecode_errcode : (failDecode code pos plane filled s).errcode = code := rfl
@[simp] theorem failDecode_path : (failDecode code pos plane filled s).path = s.path := rfl
@[simp] theorem failDecode_plane : (failDecode code pos plane filled s).plane = plane := rfl
@[simp] theorem failDecode_incount : (failDecode code pos plane filled s).incount = s.incount := rfl
@[simp] theorem failDecode_outcount : (failDecode code pos plane filled s).outcount = s.outcount := rfl
@[simp] theorem failDecode_pos : (failDecode code pos plane filled s).pos = pos := rfl
@[simp] theorem failDecode_prevpix : (failDecode code pos plane filled s).prevpix = s.prevpix := rfl
@[simp] theorem failDecode_i : (failDecode code pos plane filled s).i = s.i := rfl
@[simp] theorem failDecode_j : (failDecode code pos plane filled s).j = s.j := rfl
@[simp] theorem failDecode_pl : (failDecode code pos plane filled s).pl = s.pl := rfl
@[simp] theorem failDecode_shift : (failDecode code pos plane filled s).shift = s.shift := rfl
@[simp] theorem failDecode_cur : (failDecode code pos plane filled s).cur = s.cur := rfl
@[simp] theorem failDecode_beg : (failDecode code pos plane filled s).beg = s.beg := rfl
@[simp] theorem failDecode_rc : (failDecode code pos plane filled s).rc = s.rc := rfl
@[simp] theorem failDecode_ln : (failDecode code pos plane filled s).ln = s.ln := rfl
@[simp] theorem failDecode_k : (failDecode code pos plane filled s).k = s.k := rfl
@[simp] theorem failDecode_fsm : (failDecode code pos plane filled s).fsm = .idle := rfl
@[simp] theorem failDecode_hold : (failDecode code pos plane filled s).hold = [] := rfl
@[simp] theorem failDecode_mem : (failDecode code pos plane filled s).mem = s.mem.spoil filled s.fresh s.len := rfl
@[simp] theorem failDecode_memTag : (failDecode code pos plane filled s).memTag = s.memTag := rfl
@[simp] theorem failDecode_q : (failDecode code pos plane filled s).q = s.q := rfl
@[simp] theorem failDecode_ended : (failDecode code pos plane filled s).ended = s.ended := rfl
@[simp] theorem failDecode_offer : (failDecode code pos plane filled s).offer = none := rfl
@[simp] theorem failDecode_sink : (failDecode code pos plane filled s).sink = s.sink := rfl
@[simp] theorem failDecode_sunk : (failDecode code pos plane filled s).sunk = s.sunk := rfl
@[simp] theorem failDecode_reply : (failDecode code pos plane filled s).reply = s.reply := rfl
@[simp] theorem failDecode_agenda : (failDecode code pos plane filled s).agenda = s.agenda := rfl
@[simp] theorem failDecode_fresh : (failDecode code pos plane filled s).fresh = s.fresh + 1 := rfl
@[simp] theorem failDecode_lenField : (failDecode code pos plane filled s).lenField = s.lenField := rfl
@[simp] theorem failDecode_len : (failDecode code pos plane filled s).len = s.len := rfl
@[simp] theorem failDecode_busy : (failDecode code pos plane filled s).busy = false := rfl
end

/-! ### deliver -/

section
variable (b : Byte) (s : State)
@[simp] theorem deliver_params : (deliver b s).params = s.params := rfl
@[simp] theorem deliver_inReset : (deliver b s).inReset = s.inReset := rfl
@[simp] theorem deliver_ie : (deliver b s).ie = s.ie := rfl
@[simp] theorem deliver_cmd : (deliver b s).cmd = s.cmd := rfl
@[simp] theorem deliver_done : (deliver b s).done = s.done := rfl
@[simp] theorem deliver_err : (deliver b s).err = s.err := rfl
@[simp] theorem deliver_prevValid : (deliver b s).prevValid = s.prevValid := rfl
@[simp] theorem deliver_errcode : (deliver b s).errcode = s.errcode := rfl
@[simp] theorem deliver_path : (deliver b s).path = s.path := rfl
@[simp] theorem deliver_plane : (deliver b s).plane = s.plane := rfl
@[simp] theorem deliver_incount : (deliver b s).incount = s.incount := rfl
@[simp] theorem deliver_outcount : (deliver b s).outcount = s.outcount + 1 := rfl
@[simp] theorem deliver_pos : (deliver b s).pos = s.pos := rfl
@[simp] theorem deliver_prevpix : (deliver b s).prevpix = s.prevpix := rfl
@[simp] theorem deliver_i : (deliver b s).i = s.i := rfl
@[simp] theorem deliver_j : (deliver b s).j = s.j := rfl
@[simp] theorem deliver_pl : (deliver b s).pl = s.pl := rfl
@[simp] theorem deliver_shift : (deliver b s).shift = s.shift := rfl
@[simp] theorem deliver_cur : (deliver b s).cur = s.cur := rfl
@[simp] theorem deliver_beg : (deliver b s).beg = s.beg := rfl
@[simp] theorem deliver_rc : (deliver b s).rc = s.rc := rfl
@[simp] theorem deliver_ln : (deliver b s).ln = s.ln := rfl
@[simp] theorem deliver_k : (deliver b s).k = s.k := rfl
@[simp] theorem deliver_fsm : (deliver b s).fsm = s.fsm := rfl
@[simp] theorem deliver_hold : (deliver b s).hold = s.hold := rfl
@[simp] theorem deliver_mem : (deliver b s).mem = s.mem := rfl
@[simp] theorem deliver_memTag : (deliver b s).memTag = s.memTag := rfl
@[simp] theorem deliver_q : (deliver b s).q = s.q := rfl
@[simp] theorem deliver_ended : (deliver b s).ended = s.ended := rfl
@[simp] theorem deliver_offer : (deliver b s).offer = none := rfl
@[simp] theorem deliver_sink : (deliver b s).sink = s.sink := rfl
@[simp] theorem deliver_sunk : (deliver b s).sunk = s.sunk ++ [b] := rfl
@[simp] theorem deliver_reply : (deliver b s).reply = s.reply := rfl
@[simp] theorem deliver_agenda : (deliver b s).agenda = s.agenda := rfl
@[simp] theorem deliver_fresh : (deliver b s).fresh = s.fresh := rfl
@[simp] theorem deliver_lenField : (deliver b s).lenField = s.lenField := rfl
@[simp] theorem deliver_len : (deliver b s).len = s.len := rfl
@[simp] theorem deliver_busy : (deliver b s).busy = s.busy := rfl
@[simp] theorem deliver_readByte (a : Nat) : (deliver b s).readByte a = s.readByte a := rfl
@[simp] theorem deliver_rowPixel (x : Nat) : (deliver b s).rowPixel x = s.rowPixel x := rfl
end

/-! ### failEncode -/

section
variable (inPlane : Bool) (s : State)
@[simp] theorem failEncode_params : (failEncode inPlane s).params = s.params := rfl
@[simp] theorem failEncode_inReset : (failEncode inPlane s).inReset = s.inReset := rfl
@[simp] theorem failEncode_ie : (failEncode inPlane s).ie = s.ie := rfl
@[simp] theorem failEncode_cmd : (failEncode inPlane s).cmd = s.cmd := rfl
@[simp] theorem failEncode_done : (failEncode inPlane s).done = false := rfl
@[simp] theorem failEncode_err : (failEncode inPlane s).err = true := rfl
@[simp] theorem failEncode_prevValid : (failEncode inPlane s).prevValid = s.prevValid := rfl
@[simp] theorem failEncode_errcode : (failEncode inPlane s).errcode = errWrite := rfl
@[simp] theorem failEncode_path : (failEncode inPlane s).path = s.path := rfl
@[simp] theorem failEncode_plane : (failEncode inPlane s).plane = if inPlane then s.pl else 0 := rfl
@[simp] theorem failEncode_incount : (failEncode inPlane s).incount = s.incount := rfl
@[simp] theorem failEncode_outcount : (failEncode inPlane s).outcount = s.outcount := rfl
@[simp] theorem failEncode_pos : (failEncode inPlane s).pos = Config.posAfterWriteError s.fresh := rfl
@[simp] theorem failEncode_prevpix : (failEncode inPlane s).prevpix = s.prevpix := rfl
@[simp] theorem failEncode_i : (failEncode inPlane s).i = s.i := rfl
@[simp] theorem failEncode_j : (failEncode inPlane s).j = s.j := rfl
@[simp] theorem failEncode_pl : (failEncode inPlane s).pl = s.pl := rfl
@[simp] theorem failEncode_shift : (failEncode inPlane s).shift = s.shift := rfl
@[simp] theorem failEncode_cur : (failEncode inPlane s).cur = s.cur := rfl
@[simp] theorem failEncode_beg : (failEncode inPlane s).beg = s.beg := rfl
@[simp] theorem failEncode_rc : (failEncode inPlane s).rc = s.rc := rfl
@[simp] theorem failEncode_ln : (failEncode inPlane s).ln = s.ln := rfl
@[simp] theorem failEncode_k : (failEncode inPlane s).k = s.k := rfl
@[simp] theorem failEncode_fsm : (failEncode inPlane s).fsm = .idle := rfl
@[simp] theorem failEncode_hold : (failEncode inPlane s).hold = [] := rfl
@[simp] theorem failEncode_mem : (failEncode inPlane s).mem = s.mem := rfl
@[simp] theorem failEncode_memTag : (failEncode inPlane s).memTag = s.memTag := rfl
@[simp] theorem failEncode_q : (failEncode inPlane s).q = s.q := rfl
@[simp] theorem failEncode_ended : (failEncode inPlane s).ended = s.ended := rfl
@[simp] theorem failEncode_offer : (failEncode inPlane s).offer = none := rfl
@[simp] theorem failEncode_sink : (failEncode inPlane s).sink = s.sink := rfl
@[simp] theorem failEncode_sunk : (failEncode inPlane s).sunk = s.sunk := rfl
@[simp] theorem failEncode_reply : (failEncode inPlane s).reply = s.reply := rfl
@[simp] theorem failEncode_agenda : (failEncode inPlane s).agenda = s.agenda := rfl
@[simp] theorem failEncode_fresh : (failEncode inPlane s).fresh = s.fresh + 1 := rfl
@[simp] theorem failEncode_lenField : (failEncode inPlane s).lenField = s.lenField := rfl
@[simp] theorem failEncode_len : (failEncode inPlane s).len = s.len := rfl
@[simp] theorem failEncode_busy : (failEncode inPlane s).busy = false := rfl
@[simp] theorem failEncode_readByte (a : Nat) : (failEncode inPlane s).readByte a = s.readByte a := rfl
@[simp] theorem failEncode_rowPixel (x : Nat) : (failEncode inPlane s).rowPixel x = s.rowPixel x := rfl
end

/-! ### resetRegisters -/

section
variable (s : State)
@[simp] theorem resetRegisters_params : (resetRegisters s).params = s.params := rfl
@[simp] theorem resetRegisters_inReset : (resetRegisters s).inReset = s.inReset := rfl
@[simp] theorem resetRegisters_ie : (resetRegisters s).ie = false := rfl
@[simp] theorem resetRegisters_cmd : (resetRegisters s).cmd = 0 := rfl
@[simp] theorem resetRegisters_done : (resetRegisters s).done = false := rfl
@[simp] theorem resetRegisters_err : (resetRegisters s).err = false := rfl
@[simp] theorem resetRegisters_prevValid : (resetRegisters s).prevValid = false := rfl
@[simp] theorem resetRegisters_errcode : (resetRegisters s).errcode = 0 := rfl
@[simp] theorem resetRegisters_path : (resetRegisters s).path = 0 := rfl
@[simp] theorem resetRegisters_plane : (resetRegisters s).plane = 0 := rfl
@[simp] theorem resetRegisters_incount : (resetRegisters s).incount = 0 := rfl
@[simp] theorem resetRegisters_outcount : (resetRegisters s).outcount = 0 := rfl
@[simp] theorem resetRegisters_pos : (resetRegisters s).pos = 0 := rfl
@[simp] theorem resetRegisters_prevpix : (resetRegisters s).prevpix = 0 := rfl
@[simp] theorem resetRegisters_i : (resetRegisters s).i = 0 := rfl
@[simp] theorem resetRegisters_j : (resetRegisters s).j = 0 := rfl
@[simp] theorem resetRegisters_pl : (resetRegisters s).pl = 0 := rfl
@[simp] theorem resetRegisters_shift : (resetRegisters s).shift = 0 := rfl
@[simp] theorem resetRegisters_cur : (resetRegisters s).cur = 0 := rfl
@[simp] theorem resetRegisters_beg : (resetRegisters s).beg = 0 := rfl
@[simp] theorem resetRegisters_rc : (resetRegisters s).rc = 0 := rfl
@[simp] theorem resetRegisters_ln : (resetRegisters s).ln = 0 := rfl
@[simp] theorem resetRegisters_k : (resetRegisters s).k = 0 := rfl
@[simp] theorem resetRegisters_fsm : (resetRegisters s).fsm = .idle := rfl
@[simp] theorem resetRegisters_hold : (resetRegisters s).hold = [] := rfl
@[simp] theorem resetRegisters_mem : (resetRegisters s).mem = s.mem := rfl
@[simp] theorem resetRegisters_memTag : (resetRegisters s).memTag = s.memTag := rfl
@[simp] theorem resetRegisters_q : (resetRegisters s).q = s.q := rfl
@[simp] theorem resetRegisters_ended : (resetRegisters s).ended = s.ended := rfl
@[simp] theorem resetRegisters_offer : (resetRegisters s).offer = none := rfl
@[simp] theorem resetRegisters_sink : (resetRegisters s).sink = s.sink := rfl
@[simp] theorem resetRegisters_sunk : (resetRegisters s).sunk = s.sunk := rfl
@[simp] theorem resetRegisters_reply : (resetRegisters s).reply = s.reply := rfl
@[simp] theorem resetRegisters_agenda : (resetRegisters s).agenda = s.agenda := rfl
@[simp] theorem resetRegisters_fresh : (resetRegisters s).fresh = s.fresh := rfl
@[simp] theorem resetRegisters_busy : (resetRegisters s).busy = false := rfl
@[simp] theorem resetRegisters_readByte (a : Nat) : (resetRegisters s).readByte a = s.readByte a := rfl
@[simp] theorem resetRegisters_rowPixel (x : Nat) : (resetRegisters s).rowPixel x = s.rowPixel x := rfl
end

/-! ### loseBuffers -/

section
variable (s : State)
@[simp] theorem loseBuffers_params : (loseBuffers s).params = s.params := rfl
@[simp] theorem loseBuffers_inReset : (loseBuffers s).inReset = s.inReset := rfl
@[simp] theorem loseBuffers_ie : (loseBuffers s).ie = s.ie := rfl
@[simp] theorem loseBuffers_cmd : (loseBuffers s).cmd = s.cmd := rfl
@[simp] theorem loseBuffers_done : (loseBuffers s).done = s.done := rfl
@[simp] theorem loseBuffers_err : (loseBuffers s).err = s.err := rfl
@[simp] theorem loseBuffers_prevValid : (loseBuffers s).prevValid = s.prevValid := rfl
@[simp] theorem loseBuffers_errcode : (loseBuffers s).errcode = s.errcode := rfl
@[simp] theorem loseBuffers_path : (loseBuffers s).path = s.path := rfl
@[simp] theorem loseBuffers_plane : (loseBuffers s).plane = s.plane := rfl
@[simp] theorem loseBuffers_incount : (loseBuffers s).incount = s.incount := rfl
@[simp] theorem loseBuffers_outcount : (loseBuffers s).outcount = s.outcount := rfl
@[simp] theorem loseBuffers_pos : (loseBuffers s).pos = s.pos := rfl
@[simp] theorem loseBuffers_prevpix : (loseBuffers s).prevpix = s.prevpix := rfl
@[simp] theorem loseBuffers_i : (loseBuffers s).i = s.i := rfl
@[simp] theorem loseBuffers_j : (loseBuffers s).j = s.j := rfl
@[simp] theorem loseBuffers_pl : (loseBuffers s).pl = s.pl := rfl
@[simp] theorem loseBuffers_shift : (loseBuffers s).shift = s.shift := rfl
@[simp] theorem loseBuffers_cur : (loseBuffers s).cur = s.cur := rfl
@[simp] theorem loseBuffers_beg : (loseBuffers s).beg = s.beg := rfl
@[simp] theorem loseBuffers_rc : (loseBuffers s).rc = s.rc := rfl
@[simp] theorem loseBuffers_ln : (loseBuffers s).ln = s.ln := rfl
@[simp] theorem loseBuffers_k : (loseBuffers s).k = s.k := rfl
@[simp] theorem loseBuffers_fsm : (loseBuffers s).fsm = s.fsm := rfl
@[simp] theorem loseBuffers_hold : (loseBuffers s).hold = s.hold := rfl
@[simp] theorem loseBuffers_mem : (loseBuffers s).mem = [] := rfl
@[simp] theorem loseBuffers_memTag : (loseBuffers s).memTag = s.fresh := rfl
@[simp] theorem loseBuffers_q : (loseBuffers s).q = s.q := rfl
@[simp] theorem loseBuffers_ended : (loseBuffers s).ended = s.ended := rfl
@[simp] theorem loseBuffers_offer : (loseBuffers s).offer = s.offer := rfl
@[simp] theorem loseBuffers_sink : (loseBuffers s).sink = s.sink := rfl
@[simp] theorem loseBuffers_sunk : (loseBuffers s).sunk = s.sunk := rfl
@[simp] theorem loseBuffers_reply : (loseBuffers s).reply = s.reply := rfl
@[simp] theorem loseBuffers_agenda : (loseBuffers s).agenda = s.agenda := rfl
@[simp] theorem loseBuffers_fresh : (loseBuffers s).fresh = s.fresh + 1 := rfl
@[simp] theorem loseBuffers_lenField : (loseBuffers s).lenField = s.lenField := rfl
@[simp] theorem loseBuffers_len : (loseBuffers s).len = s.len := rfl
@[simp] theorem loseBuffers_busy : (loseBuffers s).busy = s.busy := rfl
end

/-! ### respond -/

section
variable (r : Resp) (d : Word) (s : State)
@[simp] theorem respond_params : (respond r d s).params = s.params := rfl
@[simp] theorem respond_inReset : (respond r d s).inReset = s.inReset := rfl
@[simp] theorem respond_ie : (respond r d s).ie = s.ie := rfl
@[simp] theorem respond_cmd : (respond r d s).cmd = s.cmd := rfl
@[simp] theorem respond_done : (respond r d s).done = s.done := rfl
@[simp] theorem respond_err : (respond r d s).err = s.err := rfl
@[simp] theorem respond_prevValid : (respond r d s).prevValid = s.prevValid := rfl
@[simp] theorem respond_errcode : (respond r d s).errcode = s.errcode := rfl
@[simp] theorem respond_path : (respond r d s).path = s.path := rfl
@[simp] theorem respond_plane : (respond r d s).plane = s.plane := rfl
@[simp] theorem respond_incount : (respond r d s).incount = s.incount := rfl
@[simp] theorem respond_outcount : (respond r d s).outcount = s.outcount := rfl
@[simp] theorem respond_pos : (respond r d s).pos = s.pos := rfl
@[simp] theorem respond_prevpix : (respond r d s).prevpix = s.prevpix := rfl
@[simp] theorem respond_i : (respond r d s).i = s.i := rfl
@[simp] theorem respond_j : (respond r d s).j = s.j := rfl
@[simp] theorem respond_pl : (respond r d s).pl = s.pl := rfl
@[simp] theorem respond_shift : (respond r d s).shift = s.shift := rfl
@[simp] theorem respond_cur : (respond r d s).cur = s.cur := rfl
@[simp] theorem respond_beg : (respond r d s).beg = s.beg := rfl
@[simp] theorem respond_rc : (respond r d s).rc = s.rc := rfl
@[simp] theorem respond_ln : (respond r d s).ln = s.ln := rfl
@[simp] theorem respond_k : (respond r d s).k = s.k := rfl
@[simp] theorem respond_fsm : (respond r d s).fsm = s.fsm := rfl
@[simp] theorem respond_hold : (respond r d s).hold = s.hold := rfl
@[simp] theorem respond_mem : (respond r d s).mem = s.mem := rfl
@[simp] theorem respond_memTag : (respond r d s).memTag = s.memTag := rfl
@[simp] theorem respond_q : (respond r d s).q = s.q := rfl
@[simp] theorem respond_ended : (respond r d s).ended = s.ended := rfl
@[simp] theorem respond_offer : (respond r d s).offer = s.offer := rfl
@[simp] theorem respond_sink : (respond r d s).sink = s.sink := rfl
@[simp] theorem respond_sunk : (respond r d s).sunk = s.sunk := rfl
@[simp] theorem respond_reply : (respond r d s).reply = some { resp := r, data := d } := rfl
@[simp] theorem respond_agenda : (respond r d s).agenda = s.agenda := rfl
@[simp] theorem respond_fresh : (respond r d s).fresh = s.fresh := rfl
@[simp] theorem respond_lenField : (respond r d s).lenField = s.lenField := rfl
@[simp] theorem respond_len : (respond r d s).len = s.len := rfl
@[simp] theorem respond_busy : (respond r d s).busy = s.busy := rfl
@[simp] theorem respond_readByte (a : Nat) : (respond r d s).readByte a = s.readByte a := rfl
@[simp] theorem respond_rowPixel (x : Nat) : (respond r d s).rowPixel x = s.rowPixel x := rfl
end

/-! ### slverr -/

section
variable (s : State)
@[simp] theorem slverr_params : (slverr s).params = s.params := rfl
@[simp] theorem slverr_inReset : (slverr s).inReset = s.inReset := rfl
@[simp] theorem slverr_ie : (slverr s).ie = s.ie := rfl
@[simp] theorem slverr_cmd : (slverr s).cmd = s.cmd := rfl
@[simp] theorem slverr_done : (slverr s).done = s.done := rfl
@[simp] theorem slverr_err : (slverr s).err = s.err := rfl
@[simp] theorem slverr_prevValid : (slverr s).prevValid = s.prevValid := rfl
@[simp] theorem slverr_errcode : (slverr s).errcode = s.errcode := rfl
@[simp] theorem slverr_path : (slverr s).path = s.path := rfl
@[simp] theorem slverr_plane : (slverr s).plane = s.plane := rfl
@[simp] theorem slverr_incount : (slverr s).incount = s.incount := rfl
@[simp] theorem slverr_outcount : (slverr s).outcount = s.outcount := rfl
@[simp] theorem slverr_pos : (slverr s).pos = s.pos := rfl
@[simp] theorem slverr_prevpix : (slverr s).prevpix = s.prevpix := rfl
@[simp] theorem slverr_i : (slverr s).i = s.i := rfl
@[simp] theorem slverr_j : (slverr s).j = s.j := rfl
@[simp] theorem slverr_pl : (slverr s).pl = s.pl := rfl
@[simp] theorem slverr_shift : (slverr s).shift = s.shift := rfl
@[simp] theorem slverr_cur : (slverr s).cur = s.cur := rfl
@[simp] theorem slverr_beg : (slverr s).beg = s.beg := rfl
@[simp] theorem slverr_rc : (slverr s).rc = s.rc := rfl
@[simp] theorem slverr_ln : (slverr s).ln = s.ln := rfl
@[simp] theorem slverr_k : (slverr s).k = s.k := rfl
@[simp] theorem slverr_fsm : (slverr s).fsm = s.fsm := rfl
@[simp] theorem slverr_hold : (slverr s).hold = s.hold := rfl
@[simp] theorem slverr_mem : (slverr s).mem = s.mem := rfl
@[simp] theorem slverr_memTag : (slverr s).memTag = s.memTag := rfl
@[simp] theorem slverr_q : (slverr s).q = s.q := rfl
@[simp] theorem slverr_ended : (slverr s).ended = s.ended := rfl
@[simp] theorem slverr_offer : (slverr s).offer = s.offer := rfl
@[simp] theorem slverr_sink : (slverr s).sink = s.sink := rfl
@[simp] theorem slverr_sunk : (slverr s).sunk = s.sunk := rfl
@[simp] theorem slverr_reply : (slverr s).reply = some { resp := .slverr, data := 0 } := rfl
@[simp] theorem slverr_agenda : (slverr s).agenda = s.agenda := rfl
@[simp] theorem slverr_fresh : (slverr s).fresh = s.fresh := rfl
@[simp] theorem slverr_lenField : (slverr s).lenField = s.lenField := rfl
@[simp] theorem slverr_len : (slverr s).len = s.len := rfl
@[simp] theorem slverr_busy : (slverr s).busy = s.busy := rfl
@[simp] theorem slverr_readByte (a : Nat) : (slverr s).readByte a = s.readByte a := rfl
@[simp] theorem slverr_rowPixel (x : Nat) : (slverr s).rowPixel x = s.rowPixel x := rfl
end

/-! ### acceptClear -/

section
variable (w : Word) (s : State)
@[simp] theorem acceptClear_params : (acceptClear w s).params = s.params := rfl
@[simp] theorem acceptClear_inReset : (acceptClear w s).inReset = s.inReset := rfl
@[simp] theorem acceptClear_ie : (acceptClear w s).ie = s.ie := rfl
@[simp] theorem acceptClear_cmd : (acceptClear w s).cmd = w := rfl
@[simp] theorem acceptClear_done : (acceptClear w s).done = false := rfl
@[simp] theorem acceptClear_err : (acceptClear w s).err = false := rfl
@[simp] theorem acceptClear_prevValid : (acceptClear w s).prevValid = s.prevValid := rfl
@[simp] theorem acceptClear_errcode : (acceptClear w s).errcode = 0 := rfl
@[simp] theorem acceptClear_path : (acceptClear w s).path = 0 := rfl
@[simp] theorem acceptClear_plane : (acceptClear w s).plane = 0 := rfl
@[simp] theorem acceptClear_incount : (acceptClear w s).incount = 0 := rfl
@[simp] theorem acceptClear_outcount : (acceptClear w s).outcount = 0 := rfl
@[simp] theorem acceptClear_pos : (acceptClear w s).pos = 0 := rfl
@[simp] theorem acceptClear_prevpix : (acceptClear w s).prevpix = s.prevpix := rfl
@[simp] theorem acceptClear_i : (acceptClear w s).i = s.i := rfl
@[simp] theorem acceptClear_j : (acceptClear w s).j = s.j := rfl
@[simp] theorem acceptClear_pl : (acceptClear w s).pl = s.pl := rfl
@[simp] theorem acceptClear_shift : (acceptClear w s).shift = s.shift := rfl
@[simp] theorem acceptClear_cur : (acceptClear w s).cur = s.cur := rfl
@[simp] theorem acceptClear_beg : (acceptClear w s).beg = s.beg := rfl
@[simp] theorem acceptClear_rc : (acceptClear w s).rc = s.rc := rfl
@[simp] theorem acceptClear_ln : (acceptClear w s).ln = s.ln := rfl
@[simp] theorem acceptClear_k : (acceptClear w s).k = s.k := rfl
@[simp] theorem acceptClear_fsm : (acceptClear w s).fsm = s.fsm := rfl
@[simp] theorem acceptClear_hold : (acceptClear w s).hold = s.hold := rfl
@[simp] theorem acceptClear_mem : (acceptClear w s).mem = s.mem := rfl
@[simp] theorem acceptClear_memTag : (acceptClear w s).memTag = s.memTag := rfl
@[simp] theorem acceptClear_q : (acceptClear w s).q = s.q := rfl
@[simp] theorem acceptClear_ended : (acceptClear w s).ended = s.ended := rfl
@[simp] theorem acceptClear_offer : (acceptClear w s).offer = s.offer := rfl
@[simp] theorem acceptClear_sink : (acceptClear w s).sink = s.sink := rfl
@[simp] theorem acceptClear_sunk : (acceptClear w s).sunk = s.sunk := rfl
@[simp] theorem acceptClear_reply : (acceptClear w s).reply = s.reply := rfl
@[simp] theorem acceptClear_agenda : (acceptClear w s).agenda = s.agenda := rfl
@[simp] theorem acceptClear_fresh : (acceptClear w s).fresh = s.fresh := rfl
@[simp] theorem acceptClear_busy : (acceptClear w s).busy = s.busy := rfl
@[simp] theorem acceptClear_readByte (a : Nat) : (acceptClear w s).readByte a = s.readByte a := rfl
@[simp] theorem acceptClear_rowPixel (x : Nat) : (acceptClear w s).rowPixel x = s.rowPixel x := rfl
end

/-! ### failAccept -/

section
variable (code : BitVec 4) (s : State)
@[simp] theorem failAccept_params : (failAccept code s).params = s.params := rfl
@[simp] theorem failAccept_inReset : (failAccept code s).inReset = s.inReset := rfl
@[simp] theorem failAccept_ie : (failAccept code s).ie = s.ie := rfl
@[simp] theorem failAccept_cmd : (failAccept code s).cmd = s.cmd := rfl
@[simp] theorem failAccept_done : (failAccept code s).done = s.done := rfl
@[simp] theorem failAccept_err : (failAccept code s).err = true := rfl
@[simp] theorem failAccept_prevValid : (failAccept code s).prevValid = s.prevValid := rfl
@[simp] theorem failAccept_errcode : (failAccept code s).errcode = code := rfl
@[simp] theorem failAccept_path : (failAccept code s).path = s.path := rfl
@[simp] theorem failAccept_plane : (failAccept code s).plane = s.plane := rfl
@[simp] theorem failAccept_incount : (failAccept code s).incount = s.incount := rfl
@[simp] theorem failAccept_outcount : (failAccept code s).outcount = s.outcount := rfl
@[simp] theorem failAccept_pos : (failAccept code s).pos = s.pos := rfl
@[simp] theorem failAccept_prevpix : (failAccept code s).prevpix = s.prevpix := rfl
@[simp] theorem failAccept_i : (failAccept code s).i = s.i := rfl
@[simp] theorem failAccept_j : (failAccept code s).j = s.j := rfl
@[simp] theorem failAccept_pl : (failAccept code s).pl = s.pl := rfl
@[simp] theorem failAccept_shift : (failAccept code s).shift = s.shift := rfl
@[simp] theorem failAccept_cur : (failAccept code s).cur = s.cur := rfl
@[simp] theorem failAccept_beg : (failAccept code s).beg = s.beg := rfl
@[simp] theorem failAccept_rc : (failAccept code s).rc = s.rc := rfl
@[simp] theorem failAccept_ln : (failAccept code s).ln = s.ln := rfl
@[simp] theorem failAccept_k : (failAccept code s).k = s.k := rfl
@[simp] theorem failAccept_fsm : (failAccept code s).fsm = s.fsm := rfl
@[simp] theorem failAccept_hold : (failAccept code s).hold = s.hold := rfl
@[simp] theorem failAccept_mem : (failAccept code s).mem = s.mem := rfl
@[simp] theorem failAccept_memTag : (failAccept code s).memTag = s.memTag := rfl
@[simp] theorem failAccept_q : (failAccept code s).q = s.q := rfl
@[simp] theorem failAccept_ended : (failAccept code s).ended = s.ended := rfl
@[simp] theorem failAccept_offer : (failAccept code s).offer = s.offer := rfl
@[simp] theorem failAccept_sink : (failAccept code s).sink = s.sink := rfl
@[simp] theorem failAccept_sunk : (failAccept code s).sunk = s.sunk := rfl
@[simp] theorem failAccept_reply : (failAccept code s).reply = s.reply := rfl
@[simp] theorem failAccept_agenda : (failAccept code s).agenda = s.agenda := rfl
@[simp] theorem failAccept_fresh : (failAccept code s).fresh = s.fresh := rfl
@[simp] theorem failAccept_lenField : (failAccept code s).lenField = s.lenField := rfl
@[simp] theorem failAccept_len : (failAccept code s).len = s.len := rfl
@[simp] theorem failAccept_busy : (failAccept code s).busy = s.busy := rfl
@[simp] theorem failAccept_readByte (a : Nat) : (failAccept code s).readByte a = s.readByte a := rfl
@[simp] theorem failAccept_rowPixel (x : Nat) : (failAccept code s).rowPixel x = s.rowPixel x := rfl
end

/-! ### writeStatus -/

section
variable (v : Word) (s : State)
@[simp] theorem writeStatus_params : (writeStatus v s).params = s.params := rfl
@[simp] theorem writeStatus_inReset : (writeStatus v s).inReset = s.inReset := rfl
@[simp] theorem writeStatus_ie : (writeStatus v s).ie = s.ie := rfl
@[simp] theorem writeStatus_cmd : (writeStatus v s).cmd = s.cmd := rfl
@[simp] theorem writeStatus_done : (writeStatus v s).done = if v.getLsbD 1 then false else s.done := rfl
@[simp] theorem writeStatus_err : (writeStatus v s).err = if v.getLsbD 2 then false else s.err := rfl
@[simp] theorem writeStatus_prevValid : (writeStatus v s).prevValid = s.prevValid := rfl
@[simp] theorem writeStatus_errcode : (writeStatus v s).errcode = if v.getLsbD 2 then 0 else s.errcode := rfl
@[simp] theorem writeStatus_path : (writeStatus v s).path = s.path := rfl
@[simp] theorem writeStatus_plane : (writeStatus v s).plane = s.plane := rfl
@[simp] theorem writeStatus_incount : (writeStatus v s).incount = s.incount := rfl
@[simp] theorem writeStatus_outcount : (writeStatus v s).outcount = s.outcount := rfl
@[simp] theorem writeStatus_pos : (writeStatus v s).pos = s.pos := rfl
@[simp] theorem writeStatus_prevpix : (writeStatus v s).prevpix = s.prevpix := rfl
@[simp] theorem writeStatus_i : (writeStatus v s).i = s.i := rfl
@[simp] theorem writeStatus_j : (writeStatus v s).j = s.j := rfl
@[simp] theorem writeStatus_pl : (writeStatus v s).pl = s.pl := rfl
@[simp] theorem writeStatus_shift : (writeStatus v s).shift = s.shift := rfl
@[simp] theorem writeStatus_cur : (writeStatus v s).cur = s.cur := rfl
@[simp] theorem writeStatus_beg : (writeStatus v s).beg = s.beg := rfl
@[simp] theorem writeStatus_rc : (writeStatus v s).rc = s.rc := rfl
@[simp] theorem writeStatus_ln : (writeStatus v s).ln = s.ln := rfl
@[simp] theorem writeStatus_k : (writeStatus v s).k = s.k := rfl
@[simp] theorem writeStatus_fsm : (writeStatus v s).fsm = s.fsm := rfl
@[simp] theorem writeStatus_hold : (writeStatus v s).hold = s.hold := rfl
@[simp] theorem writeStatus_mem : (writeStatus v s).mem = s.mem := rfl
@[simp] theorem writeStatus_memTag : (writeStatus v s).memTag = s.memTag := rfl
@[simp] theorem writeStatus_q : (writeStatus v s).q = s.q := rfl
@[simp] theorem writeStatus_ended : (writeStatus v s).ended = s.ended := rfl
@[simp] theorem writeStatus_offer : (writeStatus v s).offer = s.offer := rfl
@[simp] theorem writeStatus_sink : (writeStatus v s).sink = s.sink := rfl
@[simp] theorem writeStatus_sunk : (writeStatus v s).sunk = s.sunk := rfl
@[simp] theorem writeStatus_reply : (writeStatus v s).reply = s.reply := rfl
@[simp] theorem writeStatus_agenda : (writeStatus v s).agenda = s.agenda := rfl
@[simp] theorem writeStatus_fresh : (writeStatus v s).fresh = s.fresh := rfl
@[simp] theorem writeStatus_lenField : (writeStatus v s).lenField = s.lenField := rfl
@[simp] theorem writeStatus_len : (writeStatus v s).len = s.len := rfl
@[simp] theorem writeStatus_busy : (writeStatus v s).busy = s.busy := rfl
@[simp] theorem writeStatus_readByte (a : Nat) : (writeStatus v s).readByte a = s.readByte a := rfl
@[simp] theorem writeStatus_rowPixel (x : Nat) : (writeStatus v s).rowPixel x = s.rowPixel x := rfl
end

/-! ### startLegacy -/

section
variable (path : BitVec 2) (s : State)
@[simp] theorem startLegacy_params : (startLegacy path s).params = s.params := rfl
@[simp] theorem startLegacy_inReset : (startLegacy path s).inReset = s.inReset := rfl
@[simp] theorem startLegacy_ie : (startLegacy path s).ie = s.ie := rfl
@[simp] theorem startLegacy_cmd : (startLegacy path s).cmd = s.cmd := rfl
@[simp] theorem startLegacy_done : (startLegacy path s).done = s.done := rfl
@[simp] theorem startLegacy_err : (startLegacy path s).err = s.err := rfl
@[simp] theorem startLegacy_prevValid : (startLegacy path s).prevValid = s.prevValid := rfl
@[simp] theorem startLegacy_errcode : (startLegacy path s).errcode = s.errcode := rfl
@[simp] theorem startLegacy_path : (startLegacy path s).path = path := rfl
@[simp] theorem startLegacy_plane : (startLegacy path s).plane = s.plane := rfl
@[simp] theorem startLegacy_incount : (startLegacy path s).incount = s.incount := rfl
@[simp] theorem startLegacy_outcount : (startLegacy path s).outcount = s.outcount := rfl
@[simp] theorem startLegacy_pos : (startLegacy path s).pos = s.pos := rfl
@[simp] theorem startLegacy_prevpix : (startLegacy path s).prevpix = s.prevpix := rfl
@[simp] theorem startLegacy_i : (startLegacy path s).i = 0 := rfl
@[simp] theorem startLegacy_j : (startLegacy path s).j = s.j := rfl
@[simp] theorem startLegacy_pl : (startLegacy path s).pl = s.pl := rfl
@[simp] theorem startLegacy_shift : (startLegacy path s).shift = 0 := rfl
@[simp] theorem startLegacy_cur : (startLegacy path s).cur = s.cur := rfl
@[simp] theorem startLegacy_beg : (startLegacy path s).beg = s.beg := rfl
@[simp] theorem startLegacy_rc : (startLegacy path s).rc = s.rc := rfl
@[simp] theorem startLegacy_ln : (startLegacy path s).ln = s.ln := rfl
@[simp] theorem startLegacy_k : (startLegacy path s).k = s.k := rfl
@[simp] theorem startLegacy_fsm : (startLegacy path s).fsm = .dQuad := rfl
@[simp] theorem startLegacy_hold : (startLegacy path s).hold = [] := rfl
@[simp] theorem startLegacy_mem : (startLegacy path s).mem = s.mem := rfl
@[simp] theorem startLegacy_memTag : (startLegacy path s).memTag = s.memTag := rfl
@[simp] theorem startLegacy_q : (startLegacy path s).q = s.q := rfl
@[simp] theorem startLegacy_ended : (startLegacy path s).ended = s.ended := rfl
@[simp] theorem startLegacy_offer : (startLegacy path s).offer = s.offer := rfl
@[simp] theorem startLegacy_sink : (startLegacy path s).sink = s.sink := rfl
@[simp] theorem startLegacy_sunk : (startLegacy path s).sunk = s.sunk := rfl
@[simp] theorem startLegacy_reply : (startLegacy path s).reply = s.reply := rfl
@[simp] theorem startLegacy_agenda : (startLegacy path s).agenda = s.agenda := rfl
@[simp] theorem startLegacy_fresh : (startLegacy path s).fresh = s.fresh := rfl
@[simp] theorem startLegacy_lenField : (startLegacy path s).lenField = s.lenField := rfl
@[simp] theorem startLegacy_len : (startLegacy path s).len = s.len := rfl
@[simp] theorem startLegacy_readByte (a : Nat) : (startLegacy path s).readByte a = s.readByte a := rfl
@[simp] theorem startLegacy_rowPixel (x : Nat) : (startLegacy path s).rowPixel x = s.rowPixel x := rfl
end

/-! ### startAdaptive -/

section
variable (s : State)
@[simp] theorem startAdaptive_params : (startAdaptive s).params = s.params := rfl
@[simp] theorem startAdaptive_inReset : (startAdaptive s).inReset = s.inReset := rfl
@[simp] theorem startAdaptive_ie : (startAdaptive s).ie = s.ie := rfl
@[simp] theorem startAdaptive_cmd : (startAdaptive s).cmd = s.cmd := rfl
@[simp] theorem startAdaptive_done : (startAdaptive s).done = s.done := rfl
@[simp] theorem startAdaptive_err : (startAdaptive s).err = s.err := rfl
@[simp] theorem startAdaptive_prevValid : (startAdaptive s).prevValid = s.prevValid := rfl
@[simp] theorem startAdaptive_errcode : (startAdaptive s).errcode = s.errcode := rfl
@[simp] theorem startAdaptive_path : (startAdaptive s).path = s.path := rfl
@[simp] theorem startAdaptive_plane : (startAdaptive s).plane = s.plane := rfl
@[simp] theorem startAdaptive_incount : (startAdaptive s).incount = s.incount := rfl
@[simp] theorem startAdaptive_outcount : (startAdaptive s).outcount = s.outcount := rfl
@[simp] theorem startAdaptive_pos : (startAdaptive s).pos = s.pos := rfl
@[simp] theorem startAdaptive_prevpix : (startAdaptive s).prevpix = s.prevpix := rfl
@[simp] theorem startAdaptive_i : (startAdaptive s).i = s.i := rfl
@[simp] theorem startAdaptive_j : (startAdaptive s).j = 0 := rfl
@[simp] theorem startAdaptive_pl : (startAdaptive s).pl = 0 := rfl
@[simp] theorem startAdaptive_shift : (startAdaptive s).shift = s.shift := rfl
@[simp] theorem startAdaptive_cur : (startAdaptive s).cur = s.cur := rfl
@[simp] theorem startAdaptive_beg : (startAdaptive s).beg = s.beg := rfl
@[simp] theorem startAdaptive_rc : (startAdaptive s).rc = s.rc := rfl
@[simp] theorem startAdaptive_ln : (startAdaptive s).ln = s.ln := rfl
@[simp] theorem startAdaptive_k : (startAdaptive s).k = s.k := rfl
@[simp] theorem startAdaptive_fsm : (startAdaptive s).fsm = .dCtl := rfl
@[simp] theorem startAdaptive_hold : (startAdaptive s).hold = s.hold := rfl
@[simp] theorem startAdaptive_mem : (startAdaptive s).mem = s.mem := rfl
@[simp] theorem startAdaptive_memTag : (startAdaptive s).memTag = s.memTag := rfl
@[simp] theorem startAdaptive_q : (startAdaptive s).q = s.q := rfl
@[simp] theorem startAdaptive_ended : (startAdaptive s).ended = s.ended := rfl
@[simp] theorem startAdaptive_offer : (startAdaptive s).offer = s.offer := rfl
@[simp] theorem startAdaptive_sink : (startAdaptive s).sink = s.sink := rfl
@[simp] theorem startAdaptive_sunk : (startAdaptive s).sunk = s.sunk := rfl
@[simp] theorem startAdaptive_reply : (startAdaptive s).reply = s.reply := rfl
@[simp] theorem startAdaptive_agenda : (startAdaptive s).agenda = s.agenda := rfl
@[simp] theorem startAdaptive_fresh : (startAdaptive s).fresh = s.fresh := rfl
@[simp] theorem startAdaptive_lenField : (startAdaptive s).lenField = s.lenField := rfl
@[simp] theorem startAdaptive_len : (startAdaptive s).len = s.len := rfl
@[simp] theorem startAdaptive_readByte (a : Nat) : (startAdaptive s).readByte a = s.readByte a := rfl
@[simp] theorem startAdaptive_rowPixel (x : Nat) : (startAdaptive s).rowPixel x = s.rowPixel x := rfl
end

/-! ### putPixels -/

section
variable (ws : List Word) (s : State)
@[simp] theorem putPixels_params : (putPixels ws s).params = s.params := rfl
@[simp] theorem putPixels_inReset : (putPixels ws s).inReset = s.inReset := rfl
@[simp] theorem putPixels_ie : (putPixels ws s).ie = s.ie := rfl
@[simp] theorem putPixels_cmd : (putPixels ws s).cmd = s.cmd := rfl
@[simp] theorem putPixels_done : (putPixels ws s).done = s.done := rfl
@[simp] theorem putPixels_err : (putPixels ws s).err = s.err := rfl
@[simp] theorem putPixels_prevValid : (putPixels ws s).prevValid = s.prevValid := rfl
@[simp] theorem putPixels_errcode : (putPixels ws s).errcode = s.errcode := rfl
@[simp] theorem putPixels_path : (putPixels ws s).path = s.path := rfl
@[simp] theorem putPixels_plane : (putPixels ws s).plane = s.plane := rfl
@[simp] theorem putPixels_incount : (putPixels ws s).incount = s.incount := rfl
@[simp] theorem putPixels_outcount : (putPixels ws s).outcount = s.outcount := rfl
@[simp] theorem putPixels_pos : (putPixels ws s).pos = s.pos := rfl
@[simp] theorem putPixels_prevpix : (putPixels ws s).prevpix = s.prevpix := rfl
@[simp] theorem putPixels_i : (putPixels ws s).i = s.i + BitVec.ofNat 16 ws.length := rfl
@[simp] theorem putPixels_j : (putPixels ws s).j = s.j := rfl
@[simp] theorem putPixels_pl : (putPixels ws s).pl = s.pl := rfl
@[simp] theorem putPixels_shift : (putPixels ws s).shift = s.shift := rfl
@[simp] theorem putPixels_cur : (putPixels ws s).cur = s.cur := rfl
@[simp] theorem putPixels_beg : (putPixels ws s).beg = s.beg := rfl
@[simp] theorem putPixels_rc : (putPixels ws s).rc = s.rc := rfl
@[simp] theorem putPixels_ln : (putPixels ws s).ln = s.ln := rfl
@[simp] theorem putPixels_k : (putPixels ws s).k = s.k := rfl
@[simp] theorem putPixels_fsm : (putPixels ws s).fsm = s.fsm := rfl
@[simp] theorem putPixels_hold : (putPixels ws s).hold = s.hold := rfl
@[simp] theorem putPixels_mem : (putPixels ws s).mem = s.mem.setPixels ws s.i.toNat := rfl
@[simp] theorem putPixels_memTag : (putPixels ws s).memTag = s.memTag := rfl
@[simp] theorem putPixels_q : (putPixels ws s).q = s.q := rfl
@[simp] theorem putPixels_ended : (putPixels ws s).ended = s.ended := rfl
@[simp] theorem putPixels_offer : (putPixels ws s).offer = s.offer := rfl
@[simp] theorem putPixels_sink : (putPixels ws s).sink = s.sink := rfl
@[simp] theorem putPixels_sunk : (putPixels ws s).sunk = s.sunk := rfl
@[simp] theorem putPixels_reply : (putPixels ws s).reply = s.reply := rfl
@[simp] theorem putPixels_agenda : (putPixels ws s).agenda = s.agenda := rfl
@[simp] theorem putPixels_fresh : (putPixels ws s).fresh = s.fresh := rfl
@[simp] theorem putPixels_lenField : (putPixels ws s).lenField = s.lenField := rfl
@[simp] theorem putPixels_len : (putPixels ws s).len = s.len := rfl
@[simp] theorem putPixels_busy : (putPixels ws s).busy = s.busy := rfl
end

/-! ### raiseShift -/

section
variable (s : State)
@[simp] theorem raiseShift_params : (raiseShift s).params = s.params := rfl
@[simp] theorem raiseShift_inReset : (raiseShift s).inReset = s.inReset := rfl
@[simp] theorem raiseShift_ie : (raiseShift s).ie = s.ie := rfl
@[simp] theorem raiseShift_cmd : (raiseShift s).cmd = s.cmd := rfl
@[simp] theorem raiseShift_done : (raiseShift s).done = s.done := rfl
@[simp] theorem raiseShift_err : (raiseShift s).err = s.err := rfl
@[simp] theorem raiseShift_prevValid : (raiseShift s).prevValid = s.prevValid := rfl
@[simp] theorem raiseShift_errcode : (raiseShift s).errcode = s.errcode := rfl
@[simp] theorem raiseShift_path : (raiseShift s).path = s.path := rfl
@[simp] theorem raiseShift_plane : (raiseShift s).plane = s.plane := rfl
@[simp] theorem raiseShift_incount : (raiseShift s).incount = s.incount := rfl
@[simp] theorem raiseShift_outcount : (raiseShift s).outcount = s.outcount := rfl
@[simp] theorem raiseShift_pos : (raiseShift s).pos = s.pos := rfl
@[simp] theorem raiseShift_prevpix : (raiseShift s).prevpix = s.prevpix := rfl
@[simp] theorem raiseShift_i : (raiseShift s).i = s.i := rfl
@[simp] theorem raiseShift_j : (raiseShift s).j = s.j := rfl
@[simp] theorem raiseShift_pl : (raiseShift s).pl = s.pl := rfl
@[simp] theorem raiseShift_shift : (raiseShift s).shift = if 16 ≤ s.shift.toNat then 16 else s.shift + 8 := rfl
@[simp] theorem raiseShift_cur : (raiseShift s).cur = s.cur := rfl
@[simp] theorem raiseShift_beg : (raiseShift s).beg = s.beg := rfl
@[simp] theorem raiseShift_rc : (raiseShift s).rc = s.rc := rfl
@[simp] theorem raiseShift_ln : (raiseShift s).ln = s.ln := rfl
@[simp] theorem raiseShift_k : (raiseShift s).k = s.k := rfl
@[simp] theorem raiseShift_fsm : (raiseShift s).fsm = s.fsm := rfl
@[simp] theorem raiseShift_hold : (raiseShift s).hold = s.hold := rfl
@[simp] theorem raiseShift_mem : (raiseShift s).mem = s.mem := rfl
@[simp] theorem raiseShift_memTag : (raiseShift s).memTag = s.memTag := rfl
@[simp] theorem raiseShift_q : (raiseShift s).q = s.q := rfl
@[simp] theorem raiseShift_ended : (raiseShift s).ended = s.ended := rfl
@[simp] theorem raiseShift_offer : (raiseShift s).offer = s.offer := rfl
@[simp] theorem raiseShift_sink : (raiseShift s).sink = s.sink := rfl
@[simp] theorem raiseShift_sunk : (raiseShift s).sunk = s.sunk := rfl
@[simp] theorem raiseShift_reply : (raiseShift s).reply = s.reply := rfl
@[simp] theorem raiseShift_agenda : (raiseShift s).agenda = s.agenda := rfl
@[simp] theorem raiseShift_fresh : (raiseShift s).fresh = s.fresh := rfl
@[simp] theorem raiseShift_lenField : (raiseShift s).lenField = s.lenField := rfl
@[simp] theorem raiseShift_len : (raiseShift s).len = s.len := rfl
@[simp] theorem raiseShift_busy : (raiseShift s).busy = s.busy := rfl
@[simp] theorem raiseShift_readByte (a : Nat) : (raiseShift s).readByte a = s.readByte a := rfl
@[simp] theorem raiseShift_rowPixel (x : Nat) : (raiseShift s).rowPixel x = s.rowPixel x := rfl
end

/-! ### putPlane -/

section
variable (bs : List Byte) (s : State)
@[simp] theorem putPlane_params : (putPlane bs s).params = s.params := rfl
@[simp] theorem putPlane_inReset : (putPlane bs s).inReset = s.inReset := rfl
@[simp] theorem putPlane_ie : (putPlane bs s).ie = s.ie := rfl
@[simp] theorem putPlane_cmd : (putPlane bs s).cmd = s.cmd := rfl
@[simp] theorem putPlane_done : (putPlane bs s).done = s.done := rfl
@[simp] theorem putPlane_err : (putPlane bs s).err = s.err := rfl
@[simp] theorem putPlane_prevValid : (putPlane bs s).prevValid = s.prevValid := rfl
@[simp] theorem putPlane_errcode : (putPlane bs s).errcode = s.errcode := rfl
@[simp] theorem putPlane_path : (putPlane bs s).path = s.path := rfl
@[simp] theorem putPlane_plane : (putPlane bs s).plane = s.plane := rfl
@[simp] theorem putPlane_incount : (putPlane bs s).incount = s.incount := rfl
@[simp] theorem putPlane_outcount : (putPlane bs s).outcount = s.outcount := rfl
@[simp] theorem putPlane_pos : (putPlane bs s).pos = s.pos := rfl
@[simp] theorem putPlane_prevpix : (putPlane bs s).prevpix = s.prevpix := rfl
@[simp] theorem putPlane_i : (putPlane bs s).i = s.i := rfl
@[simp] theorem putPlane_j : (putPlane bs s).j = s.j + BitVec.ofNat 16 bs.length := rfl
@[simp] theorem putPlane_pl : (putPlane bs s).pl = s.pl := rfl
@[simp] theorem putPlane_shift : (putPlane bs s).shift = s.shift := rfl
@[simp] theorem putPlane_cur : (putPlane bs s).cur = s.cur := rfl
@[simp] theorem putPlane_beg : (putPlane bs s).beg = s.beg := rfl
@[simp] theorem putPlane_rc : (putPlane bs s).rc = s.rc := rfl
@[simp] theorem putPlane_ln : (putPlane bs s).ln = s.ln := rfl
@[simp] theorem putPlane_k : (putPlane bs s).k = s.k := rfl
@[simp] theorem putPlane_fsm : (putPlane bs s).fsm = s.fsm := rfl
@[simp] theorem putPlane_hold : (putPlane bs s).hold = s.hold := rfl
@[simp] theorem putPlane_mem : (putPlane bs s).mem = s.mem.setPlane s.pl.toNat bs s.j.toNat := rfl
@[simp] theorem putPlane_memTag : (putPlane bs s).memTag = s.memTag := rfl
@[simp] theorem putPlane_q : (putPlane bs s).q = s.q := rfl
@[simp] theorem putPlane_ended : (putPlane bs s).ended = s.ended := rfl
@[simp] theorem putPlane_offer : (putPlane bs s).offer = s.offer := rfl
@[simp] theorem putPlane_sink : (putPlane bs s).sink = s.sink := rfl
@[simp] theorem putPlane_sunk : (putPlane bs s).sunk = s.sunk := rfl
@[simp] theorem putPlane_reply : (putPlane bs s).reply = s.reply := rfl
@[simp] theorem putPlane_agenda : (putPlane bs s).agenda = s.agenda := rfl
@[simp] theorem putPlane_fresh : (putPlane bs s).fresh = s.fresh := rfl
@[simp] theorem putPlane_lenField : (putPlane bs s).lenField = s.lenField := rfl
@[simp] theorem putPlane_len : (putPlane bs s).len = s.len := rfl
@[simp] theorem putPlane_busy : (putPlane bs s).busy = s.busy := rfl
end

/-! ### nextRawPixel -/

section
variable (s : State)
@[simp] theorem nextRawPixel_params : (nextRawPixel s).params = s.params := rfl
@[simp] theorem nextRawPixel_inReset : (nextRawPixel s).inReset = s.inReset := rfl
@[simp] theorem nextRawPixel_ie : (nextRawPixel s).ie = s.ie := rfl
@[simp] theorem nextRawPixel_cmd : (nextRawPixel s).cmd = s.cmd := rfl
@[simp] theorem nextRawPixel_done : (nextRawPixel s).done = s.done := rfl
@[simp] theorem nextRawPixel_err : (nextRawPixel s).err = s.err := rfl
@[simp] theorem nextRawPixel_prevValid : (nextRawPixel s).prevValid = s.prevValid := rfl
@[simp] theorem nextRawPixel_errcode : (nextRawPixel s).errcode = s.errcode := rfl
@[simp] theorem nextRawPixel_path : (nextRawPixel s).path = s.path := rfl
@[simp] theorem nextRawPixel_plane : (nextRawPixel s).plane = s.plane := rfl
@[simp] theorem nextRawPixel_incount : (nextRawPixel s).incount = s.incount := rfl
@[simp] theorem nextRawPixel_outcount : (nextRawPixel s).outcount = s.outcount := rfl
@[simp] theorem nextRawPixel_pos : (nextRawPixel s).pos = s.pos := rfl
@[simp] theorem nextRawPixel_prevpix : (nextRawPixel s).prevpix = s.prevpix := rfl
@[simp] theorem nextRawPixel_i : (nextRawPixel s).i = s.i := rfl
@[simp] theorem nextRawPixel_j : (nextRawPixel s).j = s.j := rfl
@[simp] theorem nextRawPixel_pl : (nextRawPixel s).pl = s.pl := rfl
@[simp] theorem nextRawPixel_shift : (nextRawPixel s).shift = s.shift := rfl
@[simp] theorem nextRawPixel_cur : (nextRawPixel s).cur = s.cur + 1 := rfl
@[simp] theorem nextRawPixel_beg : (nextRawPixel s).beg = s.beg := rfl
@[simp] theorem nextRawPixel_rc : (nextRawPixel s).rc = s.rc := rfl
@[simp] theorem nextRawPixel_ln : (nextRawPixel s).ln = s.ln := rfl
@[simp] theorem nextRawPixel_k : (nextRawPixel s).k = 0 := rfl
@[simp] theorem nextRawPixel_fsm : (nextRawPixel s).fsm = if s.cur + 1 = s.lenField then .eDone else .eRaw := rfl
@[simp] theorem nextRawPixel_hold : (nextRawPixel s).hold = s.hold := rfl
@[simp] theorem nextRawPixel_mem : (nextRawPixel s).mem = s.mem := rfl
@[simp] theorem nextRawPixel_memTag : (nextRawPixel s).memTag = s.memTag := rfl
@[simp] theorem nextRawPixel_q : (nextRawPixel s).q = s.q := rfl
@[simp] theorem nextRawPixel_ended : (nextRawPixel s).ended = s.ended := rfl
@[simp] theorem nextRawPixel_offer : (nextRawPixel s).offer = s.offer := rfl
@[simp] theorem nextRawPixel_sink : (nextRawPixel s).sink = s.sink := rfl
@[simp] theorem nextRawPixel_sunk : (nextRawPixel s).sunk = s.sunk := rfl
@[simp] theorem nextRawPixel_reply : (nextRawPixel s).reply = s.reply := rfl
@[simp] theorem nextRawPixel_agenda : (nextRawPixel s).agenda = s.agenda := rfl
@[simp] theorem nextRawPixel_fresh : (nextRawPixel s).fresh = s.fresh := rfl
@[simp] theorem nextRawPixel_lenField : (nextRawPixel s).lenField = s.lenField := rfl
@[simp] theorem nextRawPixel_len : (nextRawPixel s).len = s.len := rfl
@[simp] theorem nextRawPixel_readByte (a : Nat) : (nextRawPixel s).readByte a = s.readByte a := rfl
@[simp] theorem nextRawPixel_rowPixel (x : Nat) : (nextRawPixel s).rowPixel x = s.rowPixel x := rfl
end

/-! ### startPlanes -/

section
variable (s : State)
@[simp] theorem startPlanes_params : (startPlanes s).params = s.params := rfl
@[simp] theorem startPlanes_inReset : (startPlanes s).inReset = s.inReset := rfl
@[simp] theorem startPlanes_ie : (startPlanes s).ie = s.ie := rfl
@[simp] theorem startPlanes_cmd : (startPlanes s).cmd = s.cmd := rfl
@[simp] theorem startPlanes_done : (startPlanes s).done = s.done := rfl
@[simp] theorem startPlanes_err : (startPlanes s).err = s.err := rfl
@[simp] theorem startPlanes_prevValid : (startPlanes s).prevValid = s.prevValid := rfl
@[simp] theorem startPlanes_errcode : (startPlanes s).errcode = s.errcode := rfl
@[simp] theorem startPlanes_path : (startPlanes s).path = s.path := rfl
@[simp] theorem startPlanes_plane : (startPlanes s).plane = s.plane := rfl
@[simp] theorem startPlanes_incount : (startPlanes s).incount = s.incount := rfl
@[simp] theorem startPlanes_outcount : (startPlanes s).outcount = s.outcount := rfl
@[simp] theorem startPlanes_pos : (startPlanes s).pos = s.pos := rfl
@[simp] theorem startPlanes_prevpix : (startPlanes s).prevpix = s.prevpix := rfl
@[simp] theorem startPlanes_i : (startPlanes s).i = s.i := rfl
@[simp] theorem startPlanes_j : (startPlanes s).j = s.j := rfl
@[simp] theorem startPlanes_pl : (startPlanes s).pl = 0 := rfl
@[simp] theorem startPlanes_shift : (startPlanes s).shift = s.shift := rfl
@[simp] theorem startPlanes_cur : (startPlanes s).cur = 0 := rfl
@[simp] theorem startPlanes_beg : (startPlanes s).beg = 0 := rfl
@[simp] theorem startPlanes_rc : (startPlanes s).rc = s.rc := rfl
@[simp] theorem startPlanes_ln : (startPlanes s).ln = s.ln := rfl
@[simp] theorem startPlanes_k : (startPlanes s).k = s.k := rfl
@[simp] theorem startPlanes_fsm : (startPlanes s).fsm = .eScan := rfl
@[simp] theorem startPlanes_hold : (startPlanes s).hold = s.hold := rfl
@[simp] theorem startPlanes_mem : (startPlanes s).mem = s.mem := rfl
@[simp] theorem startPlanes_memTag : (startPlanes s).memTag = s.memTag := rfl
@[simp] theorem startPlanes_q : (startPlanes s).q = s.q := rfl
@[simp] theorem startPlanes_ended : (startPlanes s).ended = s.ended := rfl
@[simp] theorem startPlanes_offer : (startPlanes s).offer = s.offer := rfl
@[simp] theorem startPlanes_sink : (startPlanes s).sink = s.sink := rfl
@[simp] theorem startPlanes_sunk : (startPlanes s).sunk = s.sunk := rfl
@[simp] theorem startPlanes_reply : (startPlanes s).reply = s.reply := rfl
@[simp] theorem startPlanes_agenda : (startPlanes s).agenda = s.agenda := rfl
@[simp] theorem startPlanes_fresh : (startPlanes s).fresh = s.fresh := rfl
@[simp] theorem startPlanes_lenField : (startPlanes s).lenField = s.lenField := rfl
@[simp] theorem startPlanes_len : (startPlanes s).len = s.len := rfl
@[simp] theorem startPlanes_readByte (a : Nat) : (startPlanes s).readByte a = s.readByte a := rfl
@[simp] theorem startPlanes_rowPixel (x : Nat) : (startPlanes s).rowPixel x = s.rowPixel x := rfl
end

/-! ### startConvert -/

section
variable (s : State)
@[simp] theorem startConvert_params : (startConvert s).params = s.params := rfl
@[simp] theorem startConvert_inReset : (startConvert s).inReset = s.inReset := rfl
@[simp] theorem startConvert_ie : (startConvert s).ie = s.ie := rfl
@[simp] theorem startConvert_cmd : (startConvert s).cmd = s.cmd := rfl
@[simp] theorem startConvert_done : (startConvert s).done = s.done := rfl
@[simp] theorem startConvert_err : (startConvert s).err = s.err := rfl
@[simp] theorem startConvert_prevValid : (startConvert s).prevValid = s.prevValid := rfl
@[simp] theorem startConvert_errcode : (startConvert s).errcode = s.errcode := rfl
@[simp] theorem startConvert_path : (startConvert s).path = pathNone := rfl
@[simp] theorem startConvert_plane : (startConvert s).plane = s.plane := rfl
@[simp] theorem startConvert_incount : (startConvert s).incount = s.incount := rfl
@[simp] theorem startConvert_outcount : (startConvert s).outcount = s.outcount := rfl
@[simp] theorem startConvert_pos : (startConvert s).pos = s.pos := rfl
@[simp] theorem startConvert_prevpix : (startConvert s).prevpix = s.prevpix := rfl
@[simp] theorem startConvert_i : (startConvert s).i = s.i := rfl
@[simp] theorem startConvert_j : (startConvert s).j = s.j := rfl
@[simp] theorem startConvert_pl : (startConvert s).pl = s.pl := rfl
@[simp] theorem startConvert_shift : (startConvert s).shift = s.shift := rfl
@[simp] theorem startConvert_cur : (startConvert s).cur = s.cur := rfl
@[simp] theorem startConvert_beg : (startConvert s).beg = s.beg := rfl
@[simp] theorem startConvert_rc : (startConvert s).rc = s.rc := rfl
@[simp] theorem startConvert_ln : (startConvert s).ln = s.ln := rfl
@[simp] theorem startConvert_k : (startConvert s).k = s.k := rfl
@[simp] theorem startConvert_fsm : (startConvert s).fsm = .convert := rfl
@[simp] theorem startConvert_hold : (startConvert s).hold = s.hold := rfl
@[simp] theorem startConvert_mem : (startConvert s).mem = s.mem := rfl
@[simp] theorem startConvert_memTag : (startConvert s).memTag = s.memTag := rfl
@[simp] theorem startConvert_q : (startConvert s).q = s.q := rfl
@[simp] theorem startConvert_ended : (startConvert s).ended = s.ended := rfl
@[simp] theorem startConvert_offer : (startConvert s).offer = s.offer := rfl
@[simp] theorem startConvert_sink : (startConvert s).sink = s.sink := rfl
@[simp] theorem startConvert_sunk : (startConvert s).sunk = s.sunk := rfl
@[simp] theorem startConvert_reply : (startConvert s).reply = s.reply := rfl
@[simp] theorem startConvert_agenda : (startConvert s).agenda = s.agenda := rfl
@[simp] theorem startConvert_fresh : (startConvert s).fresh = s.fresh := rfl
@[simp] theorem startConvert_lenField : (startConvert s).lenField = s.lenField := rfl
@[simp] theorem startConvert_len : (startConvert s).len = s.len := rfl
@[simp] theorem startConvert_readByte (a : Nat) : (startConvert s).readByte a = s.readByte a := rfl
@[simp] theorem startConvert_rowPixel (x : Nat) : (startConvert s).rowPixel x = s.rowPixel x := rfl
end

end Sys2Proof.Machine
end

