-- ==== Sys2Proof/Laws/Memory.lean ====
section
/-! SUPPORT. The buffers: a read after a write, and every memory operation keeps the canonical form. -/

namespace Sys2Proof.Machine

/-! ### One byte -/

@[simp] theorem Memory.get?_nil (x : Nat) : Memory.get? [] x = none := rfl

theorem Memory.get?_set_same (m : Memory) (x : Nat) (v : Byte) : (m.set x v).get? x = some v := by
  induction m with
  | nil => simp [Memory.set, Memory.get?]
  | cons e m ih =>
    obtain ⟨a, b⟩ := e
    by_cases h1 : x < a
    · simp [Memory.set, Memory.get?, h1]
    · by_cases h2 : x = a
      · simp [Memory.set, Memory.get?, h2]
      · simp [Memory.set, Memory.get?, h1, h2, ih]

theorem Memory.get?_set_other (m : Memory) {x y : Nat} (v : Byte) (h : y ≠ x) : (m.set x v).get? y = m.get? y := by
  induction m with
  | nil => simp [Memory.set, Memory.get?, h]
  | cons e m ih =>
    obtain ⟨a, b⟩ := e
    by_cases h1 : x < a
    · simp [Memory.set, Memory.get?, h1, h]
    · by_cases h2 : x = a
      · subst h2; simp [Memory.set, Memory.get?, h]
      · simp [Memory.set, Memory.get?, h1, h2, ih]

theorem Memory.above_set {lo x : Nat} {m : Memory} (v : Byte) (hm : Memory.above lo m = true) (hx : lo < x) :
    Memory.above lo (m.set x v) = true := by
  induction m with
  | nil => simp [Memory.set, Memory.above, hx]
  | cons e m ih =>
    obtain ⟨a, b⟩ := e
    simp only [Memory.above, Bool.and_eq_true, decide_eq_true_eq] at hm
    by_cases h1 : x < a
    · simp [Memory.set, Memory.above, h1, hx, hm]
    · by_cases h2 : x = a
      · simp [Memory.set, Memory.above, h2, hm]
      · simp [Memory.set, Memory.above, h1, h2, hm, ih]

theorem Memory.above_mono {lo lo' : Nat} {m : Memory} (hm : Memory.above lo m = true) (h : lo' ≤ lo) :
    Memory.above lo' m = true := by
  induction m with
  | nil => rfl
  | cons e m ih =>
    simp only [Memory.above, Bool.and_eq_true, decide_eq_true_eq] at hm ⊢
    exact ⟨by omega, ih hm.2⟩

/-- Writing a byte keeps the canonical form. -/
theorem Memory.wf_set {m : Memory} (x : Nat) (v : Byte) (hm : m.wf = true) : (m.set x v).wf = true := by
  induction m with
  | nil => rfl
  | cons e m ih =>
    obtain ⟨a, b⟩ := e
    simp only [Memory.wf, Bool.and_eq_true] at hm
    by_cases h1 : x < a
    · simp [Memory.set, Memory.wf, Memory.above, h1, hm, Memory.above_mono hm.1 (Nat.le_of_lt h1)]
    · by_cases h2 : x = a
      · simp [Memory.set, Memory.wf, h2, hm]
      · have h3 : a < x := by omega
        simp [Memory.set, Memory.wf, h1, h2, ih hm.2, Memory.above_set v hm.1 h3]

/-- The addresses listed after a write: the written one and those listed before. -/
theorem Memory.mem_set {m : Memory} {x : Nat} {v : Byte} {e : Host.Cell} (he : e ∈ m.set x v) : e = (x, v) ∨ e ∈ m := by
  induction m with
  | nil => simpa [Memory.set] using he
  | cons c m ih =>
    obtain ⟨a, b⟩ := c
    by_cases h1 : x < a
    · simpa [Memory.set, h1] using he
    · by_cases h2 : x = a
      · simp only [Memory.set, h2, if_true, if_false, lt_irrefl, List.mem_cons] at he ⊢
        tauto
      · simp only [Memory.set, h1, h2, if_false, List.mem_cons] at he ⊢
        rcases he with he | he
        · exact .inr (.inl he)
        · rcases ih he with h | h
          · exact .inl h
          · exact .inr (.inr h)

/-! ### Ranges of bytes -/

theorem Memory.wf_setBytes (bs : List Byte) (a : Nat) {m : Memory} (hm : m.wf = true) :
    (Memory.setBytes bs a m).wf = true := by
  induction bs generalizing a m with
  | nil => exact hm
  | cons b bs ih => exact ih (a + 1) (Memory.wf_set a b hm)

theorem Memory.wf_setWord {m : Memory} (a : Nat) (w : Word) (hm : m.wf = true) : (m.setWord a w).wf = true :=
  Memory.wf_setBytes _ a hm

theorem Memory.wf_setPixels (ws : List Word) (i : Nat) {m : Memory} (hm : m.wf = true) :
    (Memory.setPixels ws i m).wf = true := by
  induction ws generalizing i m with
  | nil => exact hm
  | cons w ws ih => exact ih (i + 1) (Memory.wf_setWord _ w hm)

theorem Memory.wf_setPlane (p : Nat) (bs : List Byte) (i : Nat) {m : Memory} (hm : m.wf = true) :
    (Memory.setPlane p bs i m).wf = true := by
  induction bs generalizing i m with
  | nil => exact hm
  | cons b bs ih => exact ih (i + 1) (Memory.wf_set _ b hm)

theorem Memory.wf_spoilByte (filled : Nat → Nat → Bool) (tag i p : Nat) {m : Memory} (hm : m.wf = true) :
    (Memory.spoilByte filled tag i p m).wf = true := by
  unfold Memory.spoilByte
  split
  · exact hm
  · exact Memory.wf_set _ _ hm

theorem Memory.wf_spoil (filled : Nat → Nat → Bool) (tag n : Nat) {m : Memory} (hm : m.wf = true) :
    (Memory.spoil filled tag n m).wf = true := by
  induction n with
  | zero => exact hm
  | succ n ih =>
    exact Memory.wf_spoilByte _ _ _ _ (Memory.wf_spoilByte _ _ _ _ (Memory.wf_spoilByte _ _ _ _
      (Memory.wf_spoilByte _ _ _ _ ih)))

theorem Memory.wf_setFb (i : Nat) (ws : List Word) {m : Memory} (hm : m.wf = true) : (m.setFb i ws).wf = true :=
  Memory.wf_setBytes _ _ hm

theorem Memory.wf_convertPixels (s : State) (n : Nat) {m : Memory} (hm : m.wf = true) :
    (convertPixels s n m).wf = true := by
  induction n with
  | zero => exact hm
  | succ n ih => exact Memory.wf_setFb _ _ ih

theorem Memory.get?_setBytes_outside (bs : List Byte) (a : Nat) (m : Memory) {x : Nat}
    (h : x < a ∨ a + bs.length ≤ x) : (Memory.setBytes bs a m).get? x = m.get? x := by
  induction bs generalizing a m with
  | nil => rfl
  | cons b bs ih =>
    have h' : x < a ∨ a + bs.length + 1 ≤ x := by simpa [Nat.add_assoc] using h
    rw [Memory.setBytes, ih (a + 1) _ (by omega), Memory.get?_set_other _ _ (by omega)]

theorem Memory.get?_setBytes_at (bs : List Byte) (a : Nat) (m : Memory) {k : Nat} (h : k < bs.length) :
    (Memory.setBytes bs a m).get? (a + k) = some bs[k] := by
  induction bs generalizing a m k with
  | nil => simp at h
  | cons b bs ih =>
    cases k with
    | zero =>
      simp [Memory.setBytes, Memory.get?_setBytes_outside bs (a + 1) (m.set a b) (x := a) (by omega),
        Memory.get?_set_same]
    | succ k =>
      have hk : k < bs.length := by simpa using h
      rw [Memory.setBytes, show a + (k + 1) = a + 1 + k by omega, ih (a + 1) _ hk]
      rfl

/-! ### What the row writes do, byte by byte -/

/-- A word write gives the word's bytes, lowest address first, and touches nothing else (rule R35). -/
theorem Memory.get?_setWord (m : Memory) (a : Nat) (w : Word) :
    (∀ p, p < 4 → (m.setWord a w).get? (a + p) = some (w.extractLsb' (8 * p) 8)) ∧
      ∀ x, (x < a ∨ a + 4 ≤ x) → (m.setWord a w).get? x = m.get? x := by
  constructor
  · intro p hp
    have h := Memory.get?_setBytes_at (wordBytes w) a m (k := p) (by simpa [wordBytes] using hp)
    rw [Memory.setWord, h]
    rcases p with _ | _ | _ | _ | p
    · rfl
    · rfl
    · rfl
    · rfl
    · omega
  · intro x hx
    exact Memory.get?_setBytes_outside _ _ _ (by simpa [wordBytes] using hx)

theorem Memory.get?_setPixels_outside (ws : List Word) (i : Nat) (m : Memory) {x : Nat}
    (h : x < rowAddr i 0 ∨ rowAddr (i + ws.length) 0 ≤ x) : (Memory.setPixels ws i m).get? x = m.get? x := by
  induction ws generalizing i m with
  | nil => rfl
  | cons w ws ih =>
    simp only [List.length_cons, rowAddr] at h ih
    rw [Memory.setPixels, ih (i + 1) _ (by omega),
      (Memory.get?_setWord m (rowAddr i 0) w).2 x (by simp only [rowAddr]; omega)]

/-- Pixel `k` of the written ones holds its word. -/
theorem Memory.get?_setPixels_at (ws : List Word) (i : Nat) (m : Memory) {k p : Nat} (h : k < ws.length) (hp : p < 4) :
    (Memory.setPixels ws i m).get? (rowAddr (i + k) p) = some (ws[k].extractLsb' (8 * p) 8) := by
  induction ws generalizing i m k with
  | nil => simp at h
  | cons w ws ih =>
    cases k with
    | zero =>
      rw [Memory.setPixels, Memory.get?_setPixels_outside _ _ _ (by simp only [rowAddr]; omega)]
      simpa [rowAddr] using (Memory.get?_setWord m (rowAddr i 0) w).1 p hp
    | succ k =>
      have hk : k < ws.length := by simpa using h
      rw [Memory.setPixels, show i + (k + 1) = i + 1 + k by omega, ih (i + 1) _ hk]
      rfl

theorem Memory.get?_setPlane_outside (p : Nat) (bs : List Byte) (i : Nat) (m : Memory) {x : Nat}
    (h : ∀ k, i ≤ k → k < i + bs.length → x ≠ rowAddr k p) : (Memory.setPlane p bs i m).get? x = m.get? x := by
  induction bs generalizing i m with
  | nil => rfl
  | cons b bs ih =>
    rw [Memory.setPlane, ih (i + 1) _ fun k h1 h2 => h k (by omega) (by simp only [List.length_cons]; omega),
      Memory.get?_set_other _ _ (h i (by omega) (by simp))]

/-- Byte `k` of the written ones stands in its pixel. -/
theorem Memory.get?_setPlane_at (p : Nat) (bs : List Byte) (i : Nat) (m : Memory) {k : Nat} (h : k < bs.length) :
    (Memory.setPlane p bs i m).get? (rowAddr (i + k) p) = some bs[k] := by
  induction bs generalizing i m k with
  | nil => simp at h
  | cons b bs ih =>
    cases k with
    | zero =>
      rw [Memory.setPlane, Memory.get?_setPlane_outside _ _ _ _ fun k h1 h2 => by simp only [rowAddr]; omega]
      exact Memory.get?_set_same _ _ _
    | succ k =>
      have hk : k < bs.length := by simpa using h
      rw [Memory.setPlane, show i + (k + 1) = i + 1 + k by omega, ih (i + 1) _ hk]
      rfl

theorem Memory.get?_spoilByte (filled : Nat → Nat → Bool) (tag i p : Nat) (m : Memory) {x : Nat}
    (h : x = rowAddr i p → filled i p = true) : (Memory.spoilByte filled tag i p m).get? x = m.get? x := by
  unfold Memory.spoilByte
  split
  · rfl
  · exact Memory.get?_set_other _ _ fun hx => by simp_all

/-- A failed decode leaves the filled set, and all outside the row, as they were (rule R83). -/
theorem Memory.get?_spoil (filled : Nat → Nat → Bool) (tag n : Nat) (m : Memory) {x : Nat}
    (h : ∀ k p, k < n → p < 4 → x = rowAddr k p → filled k p = true) :
    (Memory.spoil filled tag n m).get? x = m.get? x := by
  induction n with
  | zero => rfl
  | succ n ih =>
    rw [Memory.spoil, Memory.get?_spoilByte _ _ _ _ _ (h n 3 (by omega) (by omega)),
      Memory.get?_spoilByte _ _ _ _ _ (h n 2 (by omega) (by omega)),
      Memory.get?_spoilByte _ _ _ _ _ (h n 1 (by omega) (by omega)),
      Memory.get?_spoilByte _ _ _ _ _ (h n 0 (by omega) (by omega)),
      ih fun k p hk hp hx => h k p (by omega) hp hx]

/-- The conversion of `n` pixels writes FB[0] to FB[n-1] only (rule R111). -/
theorem Memory.get?_convertPixels_outside (s : State) (n : Nat) (m : Memory) {x : Nat}
    (h : x < fbAddr 0 0 ∨ fbAddr n 0 ≤ x) : (convertPixels s n m).get? x = m.get? x := by
  induction n with
  | zero => rfl
  | succ n ih =>
    simp only [fbAddr] at h ih
    rw [convertPixels, Memory.setFb,
      Memory.get?_setBytes_outside _ _ _ (by simp [convertPixel, wordBytes, fbAddr]; omega), ih (by omega)]

/-- The memory after reset has the canonical form. -/
theorem reset_memory_wf : State.reset.mem.wf = true := rfl

/-! ### The state's bytes -/

theorem readByte_of_get? {s : State} {a : Nat} {b : Byte} (h : s.mem.get? a = some b) : s.readByte a = b := by
  simp [State.readByte, h]

theorem readByte_congr {s t : State} {a : Nat} (hm : t.mem.get? a = s.mem.get? a) (ht : t.memTag = s.memTag) :
    t.readByte a = s.readByte a := by
  simp [State.readByte, hm, ht]

theorem sameOutside_refl (P : Nat → Prop) (s : State) : sameOutside P s s := fun _ _ => rfl

theorem sameOutside_trans {P : Nat → Prop} {s t u : State} (h1 : sameOutside P s t) (h2 : sameOutside P t u) :
    sameOutside P s u := fun a ha => (h2 a ha).trans (h1 a ha)

end Sys2Proof.Machine
end

