-- ==== Sys2Proof/Laws/Ops.lean ====
section
/-! SUPPORT. What each shared operation can do, said once. -/

namespace Sys2Proof.Machine

theorem busy_eq_false {s : State} : s.busy = false ↔ s.fsm = .idle := by
  simp [State.busy]

/-! ### Acceptance -/

/-- A write to CMD is turned away with SLVERR, or answers OKAY after acceptance. -/
theorem writeCmd_cases (w : Word) (start : State → State) (s : State) :
    ((s.inReset = true ∨ s.busy = true) ∧ writeCmd w start s = slverr s) ∨
      (s.inReset = false ∧ s.busy = false ∧ writeCmd w start s = respond .okay 0 (start (acceptClear w s))) := by
  unfold writeCmd
  cases s.inReset <;> cases s.busy <;> simp

/-- An idle block out of reset accepts a write to CMD. -/
theorem writeCmd_idle {w : Word} {start : State → State} {s : State} (hr : s.inReset = false) (hi : s.busy = false) :
    writeCmd w start s = respond .okay 0 (start (acceptClear w s)) := by
  simp [writeCmd, hr, hi]

/-- A running block drops a write to CMD (rule R132). -/
theorem writeCmd_busy {w : Word} {start : State → State} {s : State} (h : s.busy = true) :
    writeCmd w start s = slverr s := by
  simp [writeCmd, h]

/-- A command starts, or fails with ERR_BADLEN. -/
theorem startIfLen_cases (len : BitVec 16) (start : State → State) (s : State) :
    (badLen s.params len = true ∧ startIfLen len start s = failAccept errBadLen s) ∨
      (badLen s.params len = false ∧ startIfLen len start s = start s) := by
  unfold startIfLen
  cases badLen s.params len <;> simp

/-! ### The input stream -/

/-- An empty stream raises ERR_EOS if it has ended; else nothing changes (rule R42). -/
theorem atEmpty_cases (fail : BitVec 4 → State → State) (s : State) :
    (s.ended = true ∧ atEmpty fail s = fail errEos s) ∨ (s.ended = false ∧ atEmpty fail s = s) := by
  unfold atEmpty
  cases s.ended <;> simp

/-! ### The loops of the decoder -/

/-- After a legacy token: another quad, or the end of the row. -/
theorem closeLegacy_cases (s : State) :
    (s.i.toNat < s.len ∧ closeLegacy s = { s with fsm := .dQuad }) ∨ (s.len ≤ s.i.toNat ∧ closeLegacy s = decodeFinish s) := by
  unfold closeLegacy
  split
  · exact .inl ⟨‹_›, rfl⟩
  · exact .inr ⟨by omega, rfl⟩

/-- After an adaptive token: another token of the plane, the next plane, or the end of the row. -/
theorem closePlane_cases (s : State) :
    (s.j.toNat < s.len ∧ closePlane s = { s with fsm := .dCtl }) ∨
      (s.len ≤ s.j.toNat ∧ s.pl = 3 ∧ closePlane s = decodeFinish s) ∨
      (s.len ≤ s.j.toNat ∧ s.pl ≠ 3 ∧ closePlane s = { s with pl := s.pl + 1, j := 0, fsm := .dCtl }) := by
  unfold closePlane
  split
  · exact .inl ⟨‹_›, rfl⟩
  · split
    · exact .inr (.inl ⟨by omega, ‹_›, rfl⟩)
    · exact .inr (.inr ⟨by omega, ‹_›, rfl⟩)

/-- The pixel a run repeats: the one before, else PREVPIX if it is valid, else none (rule R80). -/
theorem runSource_cases (s : State) :
    (0 < s.i.toNat ∧ runSource s = some (s.rowPixel (s.i.toNat - 1))) ∨
      (s.i.toNat = 0 ∧ s.prevValid = true ∧ runSource s = some s.prevpix) ∨
      (s.i.toNat = 0 ∧ s.prevValid = false ∧ runSource s = none) := by
  unfold runSource
  split
  · exact .inl ⟨‹_›, rfl⟩
  · cases h : s.prevValid <;> simp_all

/-! ### The output stream -/

/-- An offered byte is delivered, refused with nothing delivered, or stays on offer (rule R45). -/
theorem outPut_cases (b : Byte) (s : State) :
    (∃ k, outPut b s = .accepted (deliver b { s with sink := k })) ∨
      (∃ k, outPut b s = .failed { s with sink := k, offer := none }) ∨
      outPut b s = .waiting { s with offer := some b } := by
  unfold outPut
  split
  · exact .inl ⟨s.sink, rfl⟩
  · split
    · exact .inl ⟨s.sink, rfl⟩
    · exact .inr (.inl ⟨s.sink, rfl⟩)
  · exact .inr (.inr rfl)
  · exact .inl ⟨_, rfl⟩
  · exact .inr (.inl ⟨_, rfl⟩)

/-- A sink that accepts everything takes the byte. -/
theorem outPut_acceptAll {b : Byte} {s : State} (h : s.sink = .acceptAll) : outPut b s = .accepted (deliver b s) := by
  simp [outPut, h]

/-- A sink that accepts everything takes all bytes, and K counts those before the last. -/
theorem outPutAll_acceptAll {bs : List Byte} {s : State} (h : s.sink = .acceptAll) (hb : bs ≠ []) :
    outPutAll bs s = .accepted { s with
      sunk := s.sunk ++ bs, outcount := s.outcount + BitVec.ofNat 32 bs.length, offer := none,
      k := s.k + BitVec.ofNat 2 (bs.length - 1) } := by
  induction bs generalizing s with
  | nil => exact absurd rfl hb
  | cons b bs ih =>
    cases bs with
    | nil => simp [outPutAll, outPut_acceptAll h, deliver]
    | cons c cs =>
      have h' : ({ deliver b s with k := (deliver b s).k + 1 } : State).sink = .acceptAll := h
      simp only [outPutAll, outPut_acceptAll h, ih h' (by simp)]
      have e (w n : Nat) (x : BitVec w) : x + 1#w + BitVec.ofNat w n = x + BitVec.ofNat w (n + 1) := by
        rw [BitVec.add_assoc, BitVec.add_comm 1#w, ← BitVec.ofNat_add]
      simp [deliver, e]

@[simp] theorem afterOutput_accepted (p : Bool) (go : State → State) (t : State) :
    afterOutput p go (.accepted t) = go t := rfl

@[simp] theorem afterOutput_failed (p : Bool) (go : State → State) (t : State) :
    afterOutput p go (.failed t) = failEncode p t := rfl

@[simp] theorem afterOutput_waiting (p : Bool) (go : State → State) (t : State) :
    afterOutput p go (.waiting t) = t := rfl

/-! ### Instructions and turns -/

/-- Every instruction answers a next state. -/
theorem exec_next (i : Instr) (s : State) : ∃ t, exec i s = .next t := by
  cases i with
  | lqRun c =>
    simp only [exec, execLqRun]
    split
    · exact ⟨_, rfl⟩
    · split
      · exact ⟨_, rfl⟩
      · split <;> exact ⟨_, rfl⟩
  | adpMarker h l => simp only [exec, execAdpMarker]; split <;> exact ⟨_, rfl⟩
  | adpRun n v => simp only [exec, execAdpRun]; split <;> exact ⟨_, rfl⟩
  | adpLit d => simp only [exec, execAdpLit]; split <;> exact ⟨_, rfl⟩
  | decodeRow f l => exact ⟨_, rfl⟩
  | encodeRow l => exact ⟨_, rfl⟩
  | convertRow l => exact ⟨_, rfl⟩
  | reservedCmd w => exact ⟨_, rfl⟩
  | lqPixel r g b e => exact ⟨_, rfl⟩
  | encMarker h l => exact ⟨_, rfl⟩
  | rawPixel r g b e => exact ⟨_, rfl⟩

/-- The engine's turn answers a next state. -/
theorem engineTurn_next (s : State) : ∃ t, engineTurn s = .next t := by
  unfold engineTurn
  split
  · exact ⟨_, rfl⟩
  · split
    · exact exec_next _ _
    · exact ⟨_, rfl⟩

/-- What a step does: a turn of the engine, whole or limited, or an event of the host. -/
theorem step_cases (s : State) :
    (s.agenda = [] ∧ step s = engineTurn s) ∨
      (∃ rest, s.agenda = .engine none :: rest ∧ step s = engineTurn { s with agenda := rest }) ∨
      (∃ n rest, s.agenda = .engine (some n) :: rest ∧ step s = limitedTurn n { s with agenda := rest }) ∨
      (∃ op rest, s.agenda = .host op :: rest ∧ step s = hostTurn op { s with agenda := rest }) := by
  unfold step
  split
  · exact .inl ⟨‹_›, rfl⟩
  · exact .inr (.inl ⟨_, ‹_›, rfl⟩)
  · exact .inr (.inr (.inl ⟨_, _, ‹_›, rfl⟩))
  · exact .inr (.inr (.inr ⟨_, _, ‹_›, rfl⟩))

/-- The engine's turn runs the whole token before it, or else makes its part move; during reset it does neither. -/
theorem engineTurn_cases (s : State) :
    (s.inReset = true ∧ engineTurn s = .next s) ∨
      (s.inReset = false ∧ ∃ i, nextInstr s = some i ∧ engineTurn s = exec i s) ∨
      (s.inReset = false ∧ nextInstr s = none ∧ engineTurn s = .next (partTurn s)) := by
  unfold engineTurn
  cases hr : s.inReset with
  | true => exact .inl ⟨rfl, rfl⟩
  | false =>
    cases hn : nextInstr s with
    | some i => exact .inr (.inl ⟨rfl, i, rfl, rfl⟩)
    | none => exact .inr (.inr ⟨rfl, rfl, rfl⟩)

/-! ### Reset and the bus -/

/-- A soft reset resets the registers, and loses the buffers if a command was running (rule R129). -/
theorem softReset_cases (s : State) :
    (s.busy = true ∧ softReset s = resetRegisters (loseBuffers s)) ∨ (s.busy = false ∧ softReset s = resetRegisters s) := by
  unfold softReset
  cases s.busy <;> simp

/-- A bus read answers, and changes nothing but the number of the next draw (rule R36). -/
theorem busRead_cases (addr : Word) (size : Nat) (s : State) :
    ∃ r d f, busRead addr size s = respond r d { s with fresh := f } := by
  have reg : ∀ r : Reg, ∃ x d f, readReg r s = respond x d { s with fresh := f } := by
    intro r
    have draw : ∀ (w : Word) (g : Word → Word), ∃ x d f, readOrDraw w g s = respond x d { s with fresh := f } := by
      intro w g
      unfold readOrDraw
      split
      · exact ⟨_, _, _, rfl⟩
      · exact ⟨_, _, s.fresh, rfl⟩
    cases r <;> simp only [readReg] <;> first | exact draw _ _ | exact ⟨_, _, s.fresh, rfl⟩
  unfold busRead
  split
  · exact ⟨_, _, s.fresh, rfl⟩
  · split
    · exact reg _
    · split <;> exact ⟨_, _, s.fresh, rfl⟩
    · split <;> exact ⟨_, _, s.fresh, rfl⟩
    · exact ⟨_, _, s.fresh, rfl⟩

/-- A bus write answers a next state. -/
theorem busWrite_next (addr : Word) (size : Nat) (v : Word) (s : State) : ∃ t, busWrite addr size v s = .next t := by
  unfold busWrite
  split
  · exact ⟨_, rfl⟩
  · split
    · unfold writeReg
      split <;> first | exact exec_next _ _ | exact ⟨_, rfl⟩
    · split <;> exact ⟨_, rfl⟩
    · exact ⟨_, rfl⟩
    · exact ⟨_, rfl⟩

end Sys2Proof.Machine
end

