-- ==== Sys2Proof/Laws/PerInstr.lean ====
section
/-! SUPPORT. Statements about every instruction, one lemma per constructor. -/

namespace Sys2Proof.Laws

/-- An instruction's encoding has 1 to 129 bytes. -/
def EncodedSize.Statement (i : Instr) : Prop := i.wf = true → 1 ≤ (encode i).length ∧ (encode i).length ≤ 129

theorem EncodedSize.decodeRow (first : Bool) (len : BitVec 16) : EncodedSize.Statement (.decodeRow first len) :=
  fun _ => ⟨by simp [encode], by simp [encode]⟩

theorem EncodedSize.encodeRow (len : BitVec 16) : EncodedSize.Statement (.encodeRow len) :=
  fun _ => ⟨by simp [encode], by simp [encode]⟩

theorem EncodedSize.convertRow (len : BitVec 16) : EncodedSize.Statement (.convertRow len) :=
  fun _ => ⟨by simp [encode], by simp [encode]⟩

theorem EncodedSize.reservedCmd (w : Word) : EncodedSize.Statement (.reservedCmd w) :=
  fun _ => ⟨by simp [encode], by simp [encode]⟩

theorem EncodedSize.lqPixel (r g b e : Byte) : EncodedSize.Statement (.lqPixel r g b e) :=
  fun _ => ⟨by simp [encode], by simp [encode]⟩

theorem EncodedSize.lqRun (c : Byte) : EncodedSize.Statement (.lqRun c) := fun _ => ⟨by simp [encode], by simp [encode]⟩

theorem EncodedSize.adpMarker (h : BitVec 7) (l : Byte) : EncodedSize.Statement (.adpMarker h l) :=
  fun _ => ⟨by simp [encode], by simp [encode]⟩

theorem EncodedSize.adpRun (n : BitVec 7) (v : Byte) : EncodedSize.Statement (.adpRun n v) :=
  fun _ => ⟨by simp [encode], by simp [encode]⟩

theorem EncodedSize.adpLit (data : List Byte) : EncodedSize.Statement (.adpLit data) := by
  intro h
  simp only [Instr.wf, decide_eq_true_eq] at h
  simp only [encode, List.length_cons]
  omega

theorem EncodedSize.encMarker (h : BitVec 7) (l : Byte) : EncodedSize.Statement (.encMarker h l) :=
  fun _ => ⟨by simp [encode], by simp [encode]⟩

theorem EncodedSize.rawPixel (r g b e : Byte) : EncodedSize.Statement (.rawPixel r g b e) :=
  fun _ => ⟨by simp [encode], by simp [encode]⟩

end Sys2Proof.Laws
end

