-- ==== Sys2Proof/Tests/Slice0.lean ====
section
/-! SUPPORT. Tests of one step each, with results from the spec's words, examples and vectors, and for every obligation
with hypotheses a state that meets them. -/

namespace Sys2Proof.Tests

open Sys2Proof Sys2Proof.Machine

/-! ### Helpers -/

/-- The field of the next state, if there is one. -/
def got {α : Type} (f : State → α) : Out → Option α
  | .next t => some (f t)
  | .fault _ => none
  | .refused _ => none

/-- A decode of `len` pixels in progress. -/
def decodeState (len : BitVec 16) (fsm : Fsm) (path : BitVec 2) (q : List Byte) : State :=
  { State.reset with cmd := cmdWord 1 false len, fsm := fsm, path := path, q := q }

/-- An encode of `len` pixels in progress. -/
def encodeState (len : BitVec 16) (fsm : Fsm) (path : BitVec 2) (sink : Sink) : State :=
  { State.reset with cmd := cmdWord 2 false len, fsm := fsm, path := path, sink := sink }

/-- A conversion of `len` pixels in progress. -/
def convertState (len : BitVec 16) (row : List Word) : State :=
  { State.reset with cmd := cmdWord 3 false len, fsm := .convert, mem := Memory.setPixels row 0 [] }

/-- The machine after reset, with one host event to come. -/
def hostState (op : HostOp) : State := { State.reset with agenda := [.host op] }

/-! ### Ill-formed instructions are refused (the conditions of spec/opcode_table.json) -/

theorem test_wf_refuses_reserved_word_that_is_a_command : (Instr.reservedCmd 0x1001000A).wf = false := by decide
theorem test_wf_refuses_pixel_that_is_a_run_marker : (Instr.lqPixel 1 1 1 5).wf = false := by decide
theorem test_wf_refuses_run_of_zero : (Instr.adpRun 0 0x55).wf = false := by decide
theorem test_wf_refuses_literal_of_129 : (Instr.adpLit (List.replicate 129 0)).wf = false := by decide +kernel
theorem test_wf_refuses_emitted_marker_of_length_7 : (Instr.encMarker 0 7).wf = false := by decide

/-! ### Decoding of words written out from the spec's encodings -/

/-- R59: `DECODE_ROW 10, FIRST` is 0x1001000A. -/
theorem test_decode_decode_row : decode .command [0x0A, 0x00, 0x01, 0x10] = .ok (.decodeRow true 10, []) := by decide
/-- R59: `ENCODE_ROW 8` is 0x20000008. -/
theorem test_decode_encode_row : decode .command [0x08, 0x00, 0x00, 0x20] = .ok (.encodeRow 8, []) := by decide
/-- R59: `CONVERT_ROW 300` is 0x3000012C. -/
theorem test_decode_convert_row : decode .command [0x2C, 0x01, 0x00, 0x30] = .ok (.convertRow 300, []) := by decide
/-- R58: a bit of 27:17, or FIRST with another operation, makes a word reserved. -/
theorem test_decode_reserved :
    decodeCmd 0x18000008 = .reservedCmd 0x18000008 ∧ decodeCmd 0x20010008 = .reservedCmd 0x20010008 ∧
      decodeCmd 0x30010008 = .reservedCmd 0x30010008 ∧ decodeCmd 0x40000008 = .reservedCmd 0x40000008 := by decide
/-- R61: exactly two of the three bytes equal to 1 is a pixel. -/
theorem test_decode_lq_pixel : decode .quad [0x01, 0x01, 0x02, 0x07] = .ok (.lqPixel 1 1 2 7, []) := by decide
/-- R61: `01 01 01 c`. -/
theorem test_decode_lq_run : decode .quad [0x01, 0x01, 0x01, 0xFF] = .ok (.lqRun 0xFF, []) := by decide
/-- R63: `02 02 H L`; R71: a third byte with its high bit set is no marker. -/
theorem test_decode_adp_marker :
    decode .marker [0x02, 0x02, 0x7F, 0xFF] = .ok (.adpMarker 0x7F 0xFF, []) ∧
      decode .marker [0x02, 0x02, 0x80, 0x05] = .ok (.lqPixel 2 2 0x80 5, []) ∧
      decode .marker [0x02, 0x03, 0x00, 0x09] = .ok (.lqPixel 2 3 0 9, []) := by decide
/-- R64: control bytes 0x81 and 0xFF are runs of 1 and 127. -/
theorem test_decode_adp_run :
    decode .plane [0x81, 0xAA] = .ok (.adpRun 1 0xAA, []) ∧ decode .plane [0xFF, 0x55] = .ok (.adpRun 127 0x55, []) := by
  decide
/-- R64: 128 is a literal count, 0 a literal of nothing, and a literal leaves what follows it. -/
theorem test_decode_adp_lit :
    decode .plane [0x00, 0x88] = .ok (.adpLit [], [0x88]) ∧
      decode .plane [0x02, 0x82, 0x82, 0x01] = .ok (.adpLit [0x82, 0x82], [0x01]) ∧
      decode .plane [0x80, 0x01] = .error .incomplete := by decide
/-- R89: the marker of a row of 300 pixels is `02 02 01 2C`. -/
theorem test_decode_enc_marker : decode .markerOut [0x02, 0x02, 0x01, 0x2C] = .ok (.encMarker 1 0x2C, []) := by decide
/-- R88: a raw pixel is `R G B E`, also where it looks like a run marker. -/
theorem test_decode_raw_pixel : decode .rawOut [0x01, 0x01, 0x01, 0x01] = .ok (.rawPixel 1 1 1 1, []) := by decide

/-! ### The opcode table's words -/

theorem test_table_words :
    decodeTableWord 32 0x1001000A = some (.decodeRow true 10) ∧ decodeTableWord 32 0x2000012C = some (.encodeRow 300) ∧
      decodeTableWord 32 0x3000FFFF = some (.convertRow 65535) ∧ decodeTableWord 32 0x010101FF = some (.lqRun 255) ∧
      decodeTableWord 32 0x0202012C = some (.adpMarker 1 0x2C) ∧ decodeTableWord 16 0x8955 = some (.adpRun 9 0x55) ∧
      decodeTableWord 32 0xF0000000 = some (.reservedCmd 0xF0000000) := by decide

/-- A table word is the first instruction the next step runs: a command is stored in CMD, a run marker is consumed. -/
theorem test_table_words_run :
    got State.cmd (step (State.reset.withFetchWord 32 0x20000008)) = some 0x20000008 ∧
      got State.incount (step (State.reset.withFetchWord 32 0x010101FF)) = some 4 ∧
      got State.fsm (step (State.reset.withFetchWord 32 0x0202012C)) = some .dCtl ∧
      got State.incount (step (State.reset.withFetchWord 16 0x8955)) = some 2 := by decide

/-! ### One step of each instruction -/

/-- `DECODE_ROW 10, FIRST` on an idle block goes to the peek (R70) and clears PREV_VALID (R57). -/
theorem test_decode_row_starts :
    got (fun t => (t.fsm, t.prevValid, t.cmd))
      (step { hostState (.write 0x00C 4 0x1001000A) with prevValid := true }) = some (.dPeek, false, 0x1001000A) := by
  decide
/-- Length 7 never peeks (R70). -/
theorem test_decode_row_of_seven_is_legacy :
    got (fun t => (t.fsm, t.path)) (step (hostState (.write 0x00C 4 0x10000007))) = some (.dQuad, 1) := by decide
/-- Length 8 is adaptive, length 7 raw (R87). -/
theorem test_encode_row_starts :
    got (fun t => (t.fsm, t.path)) (step (hostState (.write 0x00C 4 0x20000008))) = some (.eMark, 2) ∧
      got (fun t => (t.fsm, t.path)) (step (hostState (.write 0x00C 4 0x20000007))) = some (.eRaw, 1) := by decide
/-- LEN above P_ROWMAX is ERR_BADLEN (R56, R115). -/
theorem test_encode_row_too_long :
    got (fun t => (t.errcode, t.busy)) (step (hostState (.write 0x00C 4 0x20004001))) = some (6, false) := by decide
/-- CONVERT_ROW goes on with PATH 0 (R103). -/
theorem test_convert_row_starts :
    got (fun t => (t.fsm, t.path)) (step (hostState (.write 0x00C 4 0x30000008))) = some (.convert, 0) := by decide
/-- Vector CNV-P1: 0x820080C8 gives 4048C8C9 40008081 00000000 3F800000. -/
theorem test_convert_row_pixel :
    got (fun t => (t.fbWord 0 0, t.fbWord 0 1, t.fbWord 0 2, t.fbWord 0 3)) (step (convertState 1 [0x820080C8])) =
      some (0x4048C8C9, 0x40008081, 0, 0x3F800000) := by decide +kernel
/-- Program P4: 0x40000008 gives STATUS 0x00000074. -/
theorem test_reserved_cmd : got idleStatusWord (step (hostState (.write 0x00C 4 0x40000008))) = some 0x74 := by decide
/-- R78's example: `05 06 07 08` at I = 1 gives ROW[1] = 0x08070605, I = 2, SHIFT = 0. -/
theorem test_lq_pixel :
    got (fun t => (t.rowPixel 1, t.i, t.shift))
      (step { decodeState 10 .dQuad 1 [5, 6, 7, 8] with i := 1, shift := 8 }) = some (0x08070605, 2, 0) := by decide
/-- Vector DEC-9: `02 02 80 05` is the first pixel 0x05800202 of a fallback row. -/
theorem test_lq_pixel_fallback :
    got (fun t => (t.rowPixel 0, t.path, t.i)) (step (decodeState 8 .dMark 0 [2, 2, 0x80, 5])) =
      some (0x05800202, 3, 1) := by decide
/-- Vector DEC-7: a run at position 0 copies PREVPIX. -/
theorem test_lq_run_copies_prevpix :
    got (fun t => (t.rowPixel 3, t.done, t.pos))
      (step { decodeState 4 .dQuad 1 [1, 1, 1, 4] with prevpix := 0x0D0C0B0A, prevValid := true }) =
      some (0x0D0C0B0A, true, 4) := by decide
/-- Vector DEC-6: the same without a previous pixel is ERR_NOPREV at INCOUNT 4. -/
theorem test_lq_run_without_previous_pixel :
    got (fun t => (t.errcode, t.incount)) (step (decodeState 4 .dQuad 1 [1, 1, 1, 2])) = some (3, 4) := by decide
/-- R73's example: `02 02 00 09` with LEN = 8, P_LENCHK = 1, is ERR_LENMISMATCH at INCOUNT 4; with P_LENCHK = 0 the row
decodes. -/
theorem test_adp_marker :
    got (fun t => (t.errcode, t.incount, t.path))
        (step { decodeState 8 .dMark 0 [2, 2, 0, 9] with params := { Params.defaults with lenChk := true } }) =
        some (4, 4, 2) ∧
      got (fun t => (t.fsm, t.path)) (step (decodeState 8 .dMark 0 [2, 2, 0, 9])) = some (.dCtl, 2) := by decide
/-- Vector DEC-10: `88 10` fills the R plane of a row of 8. -/
theorem test_adp_run :
    got (fun t => (t.rowByte 7 0, t.pl, t.j)) (step (decodeState 8 .dCtl 2 [0x88, 0x10])) = some (0x10, 1, 0) := by decide
/-- Vector DEC-11: control `89` with LEN = 8 overruns and leaves the value byte in the stream; so it does where the value
byte is missing and the stream has ended (R116). -/
theorem test_adp_run_overrun :
    got (fun t => (t.errcode, t.q)) (step (decodeState 8 .dCtl 2 [0x89, 0x55])) = some (2, [0x55]) ∧
      got (fun t => (t.errcode, t.incount)) (step { decodeState 8 .dCtl 2 [0x89] with ended := true }) = some (2, 1) := by
  decide
/-- Vector DEC-10: the second plane's literal. -/
theorem test_adp_lit :
    got (fun t => (t.rowByte 0 1, t.rowByte 7 1, t.pl))
      (step { decodeState 8 .dCtl 2 [8, 1, 2, 3, 4, 5, 6, 7, 8] with pl := 1 }) = some (1, 8, 2) := by decide
/-- Vector DEC-11b: `04` at J = 5 of 8 overruns. -/
theorem test_adp_lit_overrun :
    got (fun t => (t.errcode, t.pos)) (step { decodeState 8 .dCtl 2 [4, 1, 2, 3, 4] with j := 5 }) = some (2, 5) := by
  decide
/-- Vector ENC-ROW3: the marker of 300 pixels. -/
theorem test_enc_marker :
    got (fun t => (t.sunk, t.fsm)) (step (encodeState 300 .eMark 2 .acceptAll)) = some ([2, 2, 1, 0x2C], .eScan) := by
  decide
/-- Vector ENC-RAW1: ROW[0] = 04030201 is `01 02 03 04`. -/
theorem test_raw_pixel :
    got (fun t => (t.sunk, t.fsm))
      (step { encodeState 1 .eRaw 1 .acceptAll with mem := Memory.setPixels [0x04030201] 0 [] }) =
      some ([1, 2, 3, 4], .eDone) := by decide

/-! ### Vectors of the encoder and the converter -/

/-- Vector ENC-P9: `0A 0A 0A 0B 0B 0B 0B 0C` is encoded as `03 0A 0A 0A 84 0B 01 0C`. -/
theorem test_encode_plane_merges_short_runs :
    encodePlane (fun x => [0x0A, 0x0A, 0x0A, 0x0B, 0x0B, 0x0B, 0x0B, 0x0C].getD x 0) 8 =
      [3, 0x0A, 0x0A, 0x0A, 0x84, 0x0B, 1, 0x0C] := by decide
/-- Vectors CNV-3, CNV-7, CNV-17, CNV-28. -/
theorem test_channel :
    channel .cr 1 0 = 0x00002020 ∧ channel .cr 254 2 = 0x007F7F7F ∧ channel .f32Step 254 2 = 0x007F7F80 ∧
      channel .cr 128 128 = 0x3F008081 ∧ channel .cr 255 255 = 0x7F000000 := by decide +kernel

/-! ### States that meet the obligations' hypotheses -/

theorem test_witness_DecodeInvertsEncode :
    (Instr.adpLit (List.replicate 128 0)).wf = true ∧ (Instr.adpRun 127 0).wf = true ∧ (Instr.lqPixel 1 1 2 0).wf = true ∧
      (Instr.encMarker 0 8).wf = true ∧ (Instr.reservedCmd 0).wf = true := by decide +kernel

theorem test_witness_StepRunsDecodedInstruction :
    (hostState (.write 0x00C 4 0x1000000A)).agenda = .host (.write 0x00C 4 0x1000000A) :: [] ∧
      decode .quad ([1, 1] ++ [1, 5]) = .ok (.lqRun 5, []) ∧ decode .marker ([2] ++ [2, 0, 8]) = .ok (.adpMarker 0 8, []) ∧
      decode .plane [0x88, 0x10] = .ok (.adpRun 8 0x10, []) ∧
      decode .rawOut (wordBytes ({ State.reset with mem := Memory.setPixels [0x04030201] 0 [] }.rowPixel 0)) =
        .ok (.rawPixel 1 2 3 4, []) ∧
      decode .markerOut [2, 2, (encodeState 300 .eMark 2 .acceptAll).lenField.extractLsb' 8 8,
        (encodeState 300 .eMark 2 .acceptAll).lenField.extractLsb' 0 8] = .ok (.encMarker 1 0x2C, []) := by decide

/-- The smallest and the largest LEN of the default block, and both sides of the adaptive bound. -/
theorem test_witness_ValidCommandStarts :
    ready State.reset ∧ lenInRange State.reset.params 1 ∧ lenInRange State.reset.params 7 ∧
      lenInRange State.reset.params 8 ∧ lenInRange State.reset.params 16384 :=
  ⟨⟨rfl, rfl⟩, ⟨by decide, by decide⟩, ⟨by decide, by decide⟩, ⟨by decide, by decide⟩, ⟨by decide, by decide⟩⟩

/-- A word reserved by its OP, by bit 17, by FIRST; LEN 0 and LEN P_ROWMAX + 1 of words that are not. -/
theorem test_witness_ReservedOrOutOfRangeCommandFails :
    ready (hostState (.write 0x00C 4 0x40000008)) ∧ ¬ (1 ≤ 0x40000008 / 2 ^ 28 ∧ 0x40000008 / 2 ^ 28 ≤ 3) ∧
      0x10020008 / 2 ^ 17 % 2 ^ 11 ≠ 0 ∧ (0x20010008 / 2 ^ 16 % 2 = 1 ∧ 0x20010008 / 2 ^ 28 ≠ 1) ∧
      0x10000000 % 2 ^ 16 = 0 ∧ State.reset.params.rowMax.toNat < 0x20004001 % 2 ^ 16 :=
  ⟨⟨rfl, rfl⟩, by decide, by decide, by decide, by decide, by decide⟩

theorem test_witness_ReservedCommandIsBadOp : ready State.reset := ⟨rfl, rfl⟩

theorem test_witness_CommandWhileBusyIsDropped :
    ({ hostState (.write 0x00C 4 0x1000000A) with fsm := .dQuad }).fsm ≠ .idle := by decide

/-- Inside the row, with two bytes of the quad in hand, and the last pixel of the row. -/
theorem test_witness_LqPixelWritesPixel :
    (let s := { decodeState 10 .dQuad 1 [7, 8] with i := 8, hold := [5, 6] };
      s.fsm = .dQuad ∧ s.hold.length < 4 ∧ s.i.toNat < s.len ∧ s.i.toNat + 1 < s.len ∧
      ¬ ((5 : Byte) = 1 ∧ (6 : Byte) = 1 ∧ (7 : Byte) = 1)) ∧
    (let s := { decodeState 10 .dQuad 1 [5, 6, 7, 8] with i := 9 };
      s.fsm = .dQuad ∧ s.hold.length < 4 ∧ s.i.toNat < s.len ∧ s.i.toNat + 1 = s.len) := by decide

theorem test_witness_FallbackFirstPixel :
    let s := decodeState 8 .dMark 0 [2, 2, 0x80, 5]
    s.fsm = .dMark ∧ s.hold.length < 4 ∧ 1 < s.len ∧ ¬ ((2 : Byte) = 2 ∧ (0x80 : Byte).toNat < 128) := by decide

/-- Inside the row from the pixel before; to the row's end from PREVPIX at position 0; a count scaled by 256. -/
theorem test_witness_LqRunRepeatsPixel :
    (let s := { decodeState 10 .dQuad 1 [] with i := 1, mem := Memory.setPixels [0x80302010] 0 [] };
      s.hold.length < 4 ∧ 1 ≤ (8 : Byte).toNat * 2 ^ s.shift.toNat ∧
      s.i.toNat + (8 : Byte).toNat * 2 ^ s.shift.toNat < s.len ∧ 0 < s.i.toNat ∧
      s.rowPixel (s.i.toNat - 1) = 0x80302010) ∧
    (let s := { decodeState 4 .dQuad 1 [] with prevValid := true, prevpix := 0x0D0C0B0A };
      1 ≤ (4 : Byte).toNat * 2 ^ s.shift.toNat ∧ s.i.toNat + (4 : Byte).toNat * 2 ^ s.shift.toNat = s.len ∧
      s.i.toNat = 0 ∧ s.prevValid = true) ∧
    (let s := { decodeState 300 .dQuad 1 [] with i := 44, shift := 8 };
      s.i.toNat + (1 : Byte).toNat * 2 ^ s.shift.toNat = s.len ∧ 0 < s.i.toNat) := by decide

theorem test_witness_LqRunOfZeroRaisesShift :
    let s := { decodeState 4 .dQuad 1 [1, 1, 1, 0] with i := 3, shift := 16 }
    s.fsm = .dQuad ∧ s.hold.length < 4 ∧ s.i.toNat < s.len := by decide

/-- One past the row, with and without a previous pixel; a run that fits with none. -/
theorem test_witness_LqRunErrors :
    (let s := { decodeState 4 .dQuad 1 [] with i := 3 };
      s.fsm = .dQuad ∧ s.hold.length < 4 ∧ s.i.toNat < s.len ∧ s.len < s.i.toNat + (2 : Byte).toNat * 2 ^ s.shift.toNat) ∧
    (let s := decodeState 4 .dQuad 1 [];
      s.len < s.i.toNat + (5 : Byte).toNat * 2 ^ s.shift.toNat ∧ s.prevValid = false) ∧
    (let s := decodeState 4 .dQuad 1 [];
      s.i.toNat + (4 : Byte).toNat * 2 ^ s.shift.toNat ≤ s.len ∧ (4 : Byte) ≠ 0 ∧ s.i = 0 ∧ s.prevValid = false) := by
  decide

theorem test_witness_ShiftSaturationIsInvisible :
    State.reset.shift.toNat = min 0 16 ∧ ({ State.reset with shift := 16 }).shift.toNat = min 24 16 ∧ 24 % 8 = 0 ∧
      65535 ≤ 65535 ∧ (0 : Byte).toNat * 2 ^ 24 ≤ 65535 := by decide

theorem test_witness_AdpMarkerStartsPlanes :
    (let s := decodeState 8 .dMark 0 [2, 2, 0, 9];
      s.fsm = .dMark ∧ s.hold.length < 4 ∧ s.params.lenChk = false) ∧
    (let s := { decodeState 8 .dMark 0 [2, 2, 0, 8] with params := { Params.defaults with lenChk := true } };
      s.params.lenChk = true ∧ (0 : BitVec 7).toNat * 256 + (8 : Byte).toNat = s.len) := by decide

theorem test_witness_AdpMarkerLengthMismatch :
    let s := { decodeState 8 .dMark 0 [2, 2, 0, 9] with params := { Params.defaults with lenChk := true } }
    s.fsm = .dMark ∧ s.hold.length < 4 ∧ s.params.lenChk = true ∧
      (0 : BitVec 7).toNat * 256 + (9 : Byte).toNat ≠ s.len := by decide

/-- Below, at the end of a plane that is not the last, and at the end of the last plane. -/
theorem test_witness_AdpRunFillsPlane :
    (let s := decodeState 8 .dCtl 2 [];
      s.fsm = .dCtl ∧ s.j.toNat + (7 : BitVec 7).toNat < s.len ∧ s.j.toNat + (8 : BitVec 7).toNat = s.len ∧ s.pl ≠ 3) ∧
    (let s := { decodeState 8 .dCtl 2 [] with pl := 3, j := 7 };
      s.j.toNat + (1 : BitVec 7).toNat = s.len ∧ s.pl = 3) := by decide

/-- A literal of nothing inside a plane, and literals that end a plane and the row. -/
theorem test_witness_AdpLitFillsPlane :
    (let s := decodeState 8 .dCtl 2 [];
      s.fsm = .dCtl ∧ s.j.toNat + ([] : List Byte).length < s.len ∧
      s.j.toNat + ([1, 2, 3, 4, 5, 6, 7, 8] : List Byte).length = s.len ∧ s.pl ≠ 3) ∧
    (let s := { decodeState 8 .dCtl 2 [] with pl := 3, j := 7 };
      s.j.toNat + ([1] : List Byte).length = s.len ∧ s.pl = 3) := by decide

/-- A run of 9 and a literal of 2 at J = 7 of 8; then the same control bytes with nothing behind them, at the boundary: 8 of
8 fits, 9 does not, and control byte 128 is a literal of 128. -/
theorem test_witness_AdaptiveOverrun :
    (let s := decodeState 8 .dCtl 2 [0x89, 0x55];
      s.fsm = .dCtl ∧ s.len < s.j.toNat + (9 : BitVec 7).toNat) ∧
    (let s := { decodeState 8 .dCtl 2 [2, 0x55, 0x55] with j := 7 };
      s.len < s.j.toNat + ([0x55, 0x55] : List Byte).length) ∧
    (let s := decodeState 8 .dCtl 2 [0x89];
      s.fsm = .dCtl ∧ s.inReset = false ∧ s.agenda = [] ∧ s.q = 0x89 :: [] ∧
      s.len < s.j.toNat + (if 128 < (0x89 : Byte).toNat then (0x89 : Byte).toNat - 128 else (0x89 : Byte).toNat) ∧
      ¬ s.len < s.j.toNat + (if 128 < (0x88 : Byte).toNat then (0x88 : Byte).toNat - 128 else (0x88 : Byte).toNat)) ∧
    (let s := decodeState 8 .dCtl 2 [0x80];
      s.len < s.j.toNat + (if 128 < (0x80 : Byte).toNat then (0x80 : Byte).toNat - 128 else (0x80 : Byte).toNat)) := by
  decide

theorem test_witness_PeekConsumesNothing :
    let s := decodeState 8 .dPeek 0 [2, 3]
    s.inReset = false ∧ s.agenda = [] ∧ s.fsm = .dPeek ∧ s.q = 2 :: [3] ∧ (3 : Byte) ≠ 2 := by decide

/-- The peek, the marker, the legacy quad and a plane at the end of the stream. -/
theorem test_witness_EndOfStreamFails :
    [Fsm.dPeek, .dMark, .dQuad, .dCtl, .dRun 1, .dLit 1].all (fun f =>
      let s := { decodeState 8 f 2 [] with ended := true, i := 7, j := 7 }
      !s.inReset && s.agenda.isEmpty && s.fsm.decoding && decide (s.hold.length < 4) && s.q.isEmpty && s.ended) = true := by
  decide

theorem test_witness_DecoderWaitsForInput :
    let s := { decodeState 8 .dQuad 3 [] with hold := [1, 1, 1] }
    s.agenda = [] ∧ s.fsm.decoding = true ∧ s.hold.length < 4 ∧ s.q = [] ∧ s.ended = false := by decide

theorem test_witness_InputIsConsumedInOrder : ∃ t, engineTurn (decodeState 8 .dCtl 2 [0x88, 0x10]) = .next t :=
  engineTurn_next _

theorem test_witness_TokenInOneByteTurns :
    (let s := { decodeState 8 .dQuad 1 [6, 7, 8] with hold := [5] };
      s.inReset = false ∧ s.fsm = .dQuad ∧ s.hold.length < 4 ∧ nextInstr s = some (.lqPixel 5 6 7 8)) ∧
    (let s := decodeState 8 .dMark 0 [2, 2, 0, 8];
      s.fsm = .dMark ∧ nextInstr s = some (.adpMarker 0 8)) ∧
    (let s := decodeState 8 .dCtl 2 [2, 5, 6];
      s.fsm = .dCtl ∧ nextInstr s = some (.adpLit [5, 6])) := by decide

theorem test_witness_EncMarkerEmitsLength :
    let s := encodeState 32767 .eMark 2 .acceptAll
    s.fsm = .eMark ∧ s.sink = .acceptAll ∧ s.inReset = false ∧ s.agenda = [] ∧ s.k = 0 ∧ s.len ≤ 32767 := by decide

theorem test_witness_RawPixelEmitsFourBytes :
    let s := { encodeState 7 .eRaw 1 .acceptAll with k := 3, cur := 6 }
    s.fsm = .eRaw ∧ s.sink = .acceptAll ∧ s.cur + 1 = s.lenField := by decide

/-- Both ways a sink refuses, in a plane and outside one. -/
theorem test_witness_WriteFailureEndsCommand :
    (let s := encodeState 8 .eMark 2 (.failAt 0);
      s.inReset = false ∧ s.agenda = [] ∧ s.fsm.emitting = true ∧ sinkRefuses s) ∧
    (let s := encodeState 8 .eLitDat 2 (.answers [.fail]);
      s.fsm.emitting = true ∧ s.fsm.inPlane = true ∧ sinkRefuses s) :=
  ⟨⟨rfl, rfl, rfl, .inl ⟨0, rfl, by decide⟩⟩, rfl, rfl, .inr ⟨[], rfl⟩⟩

/-- Every state that emits, the marker at its last byte and in the longest row that has one. -/
theorem test_witness_EncoderWaitsForSink :
    [Fsm.eRaw, .eMark, .eLitCtl, .eLitDat, .eRunCtl, .eRunVal].all (fun f =>
      let s := { encodeState 32767 f 2 (.answers []) with k := 3 }
      !s.inReset && s.agenda.isEmpty && s.fsm.emitting && s.sink == .answers [] && decide (s.len ≤ 32767)) = true := by
  decide

/-- The bytes that wait: K = 3 of the marker of 300, a literal count of 128, a run of 46 (vector ENC-ROW3). -/
theorem test_encoder_offers :
    got State.offer (step { encodeState 300 .eMark 2 (.answers []) with k := 3 }) = some (some 0x2C) ∧
      got (fun t => (t.offer, t.ln)) (step { encodeState 300 .eLitCtl 2 (.answers []) with beg := 200 }) =
        some (some 0x80, 0x80) ∧
      got State.offer (step { encodeState 300 .eRunCtl 2 (.answers []) with rc := 46 }) = some (some 0xAE) := by decide

/-- A candidate of one byte at the end, and a run capped at 127. -/
theorem test_witness_RunLenIsLargest : (7 < 8 ∧ 1 ≤ 1 ∧ 1 ≤ min 127 (8 - 7)) ∧ (0 < 200 ∧ 127 ≤ min 127 (200 - 0)) := by
  decide

theorem test_witness_StateMachineEmitsEncoding :
    ready State.reset ∧ lenInRange State.reset.params 8 ∧ State.reset.sink = .acceptAll ∧ State.reset.agenda = [] :=
  ⟨⟨rfl, rfl⟩, ⟨by decide, by decide⟩, rfl, rfl⟩

/-- The first byte of a raw row of one pixel, and its last, refused. -/
theorem test_witness_SinkFailureTruncatesRow :
    let s := { State.reset with sink := .failAt 3 };
    ready s ∧ lenInRange s.params 1 ∧ s.agenda = [] ∧ 0 < (encodeRowBytes s 1).length ∧
      3 < (encodeRowBytes s 1).length :=
  ⟨⟨rfl, rfl⟩, ⟨by decide, by decide⟩, rfl, by decide, by decide⟩

theorem test_witness_EncodedPlaneDecodes :
    let f : Nat → Byte := fun x => if x < 5 then 9 else BitVec.ofNat 8 x
    let s := decodeState 8 .dCtl 2 (encodePlane f 8 ++ [0x88])
    s.inReset = false ∧ s.agenda = [] ∧ s.fsm = .dCtl ∧ s.j = 0 ∧ 8 ≤ s.len ∧ s.len ≤ 32767 ∧
      s.q = encodePlane f s.len ++ [0x88] := by decide

theorem test_witness_AdaptiveRowRoundTrip :
    let d := { State.reset with q := encodeRowBytes State.reset 8 ++ [7] }
    8 ≤ (8 : BitVec 16).toNat ∧ (8 : BitVec 16).toNat ≤ 32767 ∧ ready d ∧ lenInRange d.params 8 ∧ d.agenda = [] ∧
      d.q = encodeRowBytes State.reset 8 ++ [7] :=
  ⟨by decide, by decide, ⟨rfl, rfl⟩, ⟨by decide, by decide⟩, rfl, rfl⟩

/-- Both raw ranges of LEN; the second needs a block with P_ROWMAX above 32767. -/
theorem test_witness_RawRowRoundTrip :
    (let s := { State.reset with mem := Memory.setPixels [0x01010201] 0 [] };
      let d := { State.reset with q := encodeRowBytes s 1 ++ [7] };
      (1 : BitVec 16).toNat < 8 ∧ ready d ∧ lenInRange d.params 1 ∧ d.agenda = [] ∧
      (∀ x, x < (1 : BitVec 16).toNat → (s.rowPixel x).extractLsb' 0 24 ≠ 0x010101#24)) ∧
    (32767 < (32768 : BitVec 16).toNat ∧ lenInRange { Params.defaults with rowMax := 65535 } 32768) :=
  ⟨⟨by decide, ⟨rfl, rfl⟩, ⟨by decide, by decide⟩, rfl, by decide⟩, by decide, ⟨by decide, by decide⟩⟩

theorem test_witness_ConvertRowFillsFbuf :
    let s := convertState 2 [0x820080C8, 0x00FF0101]
    s.inReset = false ∧ s.agenda = [] ∧ s.fsm = .convert ∧ 1 < s.len := by decide

theorem test_witness_ChannelIsCorrectlyRounded : (0x7F7FFFFF : Word).toNat < 0x7F800000 := by decide

theorem test_witness_ChannelRange : (1 : Byte) ≠ 0 ∧ (255 : Byte) ≠ 0 := by decide

theorem test_witness_RoundingModesAgreeFromFour : 4 ≤ (4 : Byte).toNat ∧ 4 ≤ (255 : Byte).toNat := by decide

/-- A refused read and a refused write: the replies that the statement is about. -/
theorem test_witness_SlverrHasNoEffect :
    got State.reply (step (hostState (.read 0x024 4))) = some (some { resp := .slverr, data := 0 }) ∧
      got State.reply (step (hostState (.write 0x014 4 0))) = some (some { resp := .slverr, data := 0 }) := by decide

/-- Each class of refused access at a boundary: both ends of the holes, the first pixel that does not exist, a read-only
register, a window and CMD while BUSY = 1. -/
theorem test_witness_RefusedAccesses :
    ([0x024, 0x3FFFC, 0x80000, 0xFFFFC, 0x40000 + 4 * 16384, 0x100000 + 16 * 16384, 0x1FFFFC, 0x002].all (fun a =>
      got State.reply (step (hostState (.read (BitVec.ofNat 32 a) 4))) == some slverrReply)) = true ∧
    ([0x000, 0x004, 0x014, 0x020, 0x100000].all (fun a =>
      got State.reply (step (hostState (.write (BitVec.ofNat 32 a) 4 6))) == some slverrReply)) = true ∧
    ([0x00C, 0x40000, 0x100000].all (fun a =>
      got State.reply (step { hostState (.write (BitVec.ofNat 32 a) 4 6) with fsm := .convert }) == some slverrReply)) =
      true := by decide

theorem test_witness_IdReadsItsConstant :
    got State.reply (step (hostState (.read 0 4))) = some (okReply 0x48445231) := by decide

/-- DEC-12's end: STATUS 0x00000114, INCOUNT 6. PARAM, CTRL and CMD of a busy block. -/
theorem test_witness_IdleRegistersReadTheirValues :
    (hostState (.read 0x010 4)).inReset = false ∧ (hostState (.read 0x010 4)).fsm = .idle ∧
      got State.reply (step { hostState (.read 0x010 4) with err := true, errcode := 1, path := 1 }) =
        some (okReply 0x114) ∧
      got State.reply (step { hostState (.read 0x014 4) with incount := 6 }) = some (okReply 6) ∧
      got State.reply (step { hostState (.read 0x004 4) with fsm := .dQuad }) = some (okReply 0x4000) ∧
      got State.reply (step { hostState (.read 0x008 4) with fsm := .dQuad, ie := true }) = some (okReply 1) ∧
      got State.reply (step { hostState (.read 0x00C 4) with fsm := .dQuad, cmd := 0x1000000A }) =
        some (okReply 0x1000000A) := by decide

theorem test_witness_BusyReadsShowOnlyBusy :
    let s := { hostState (.read 0x010 4) with fsm := .dQuad }
    s.inReset = false ∧ s.fsm ≠ .idle ∧ s.agenda = .host (.read 0x010 4) :: [] := by decide

/-- ACK clears DONE and the interrupt line. -/
theorem test_witness_StatusWriteClearsFlags :
    got (fun t => (t.done, t.irq)) (step { hostState (.write 0x010 4 6) with done := true, ie := true }) =
      some (false, false) := by decide

theorem test_witness_InterruptFollowsDoneAndErr :
    got State.irq (step { hostState (.write 0x008 4 1) with done := true }) = some true := by decide

theorem test_witness_SoftResetClearsRegisters :
    (0x00000002 : Word).getLsbD 1 = true ∧
      got (fun t => (t.prevpix, t.rowPixel 0))
        (step { hostState (.write 0x008 4 2) with prevpix := 5, mem := Memory.setPixels [7] 0 [] }) = some (0, 7) := by
  decide

theorem test_witness_HardResetClearsRegisters :
    got (fun t => (t.inReset, t.ie)) (step { hostState .assertReset with ie := true }) = some (true, false) ∧
      got (fun t => (t.inReset, t.ie)) (step { hostState .releaseReset with inReset := true }) = some (false, false) := by
  decide

/-- The last pixel of the default block. -/
theorem test_witness_RowbufWriteThenRead :
    ready State.reset ∧ 16383 < State.reset.params.rowMax.toNat ∧ (0x0004FFFC : Word).toNat = 0x040000 + 4 * 16383 :=
  ⟨⟨rfl, rfl⟩, by decide, by decide⟩

/-- The alpha word of the last pixel of the default block. -/
theorem test_witness_FbufReads :
    ready State.reset ∧ 16383 < State.reset.params.rowMax.toNat ∧
      (0x0013FFFC : Word).toNat = 0x100000 + 16 * 16383 + 4 * 3 :=
  ⟨⟨rfl, rfl⟩, by decide, by decide⟩

theorem test_witness_InputStreamEvents :
    got State.q (step { hostState (.push [3]) with q := [1, 2] }) = some [1, 2, 3] ∧
      got State.q (step { hostState (.push [3]) with ended := true }) = none ∧
      got State.ended (step { hostState .reopen with ended := true }) = some false ∧
      got State.ended (step { hostState .reopen with fsm := .dQuad }) = none ∧
      got State.reply (step (hostState (.read 0x200000 4))) = none ∧
      got State.reply (step (hostState (.write 0x200000 4 1))) = none ∧
      (0x200000 : Word).toNat = 0x200000 := by decide

/-- A running decode meets the invariant, and its next step is a next state. -/
theorem test_witness_EveryStepKeepsInvariant :
    Inv (decodeState 8 .dPeek 0 [2, 2, 0, 8]) ∧ ∃ t, step (decodeState 8 .dPeek 0 [2, 2, 0, 8]) = .next t :=
  ⟨⟨by decide, by decide, by simp [decodeState, State.reset], by decide, by decide, by decide, by decide, by decide, by decide,
    by decide, by decide, ⟨⟨by decide, by decide, by decide⟩, by decide, by decide⟩⟩, _, rfl⟩

theorem test_witness_EngineStaysInItsRow : ∃ t, engineTurn (decodeState 8 .dPeek 0 [2, 2, 0, 8]) = .next t :=
  engineTurn_next _

theorem test_witness_EncodeAndConvertKeepRow :
    (encodeState 8 .eScan 2 .acceptAll).fsm.encoding = true ∧ (convertState 1 []).fsm = .convert := by decide

theorem test_witness_AcceptedOutputIsNeverLost :
    ∃ t, step { encodeState 8 .eMark 2 (.failAt 2) with sunk := [9] } = .next t := ⟨_, rfl⟩

theorem test_witness_IdleEngineStartsNothing :
    State.reset.fsm = .idle ∧ (∀ w rest, State.reset.agenda ≠ .host (.write 0x00C 4 w) :: rest) ∧
      ∃ t, step State.reset = .next t := ⟨rfl, by simp [State.reset], _, rfl⟩

theorem test_witness_ParametersAreConstant : ∃ t, step State.reset = .next t := ⟨_, rfl⟩

end Sys2Proof.Tests
end

section
/-! The host's access to a register, from the turn at the head of the agenda down to the register's own reading rule
`readReg` or writing rule `writeReg`, and the statements about ID and STATUS. -/

namespace Sys2Proof.Proofs

open Sys2Proof Sys2Proof.Machine

/-! ### The host's turn and the address map -/

/-- Only the nine word offsets of rule R14 hold a register. -/
theorem lt_nine_of_regAt {n : Nat} {r : Reg} (h : regAt n = .reg r) : n < 9 := by
  unfold regAt at h
  split at h
  case h_10 => cases h
  all_goals omega

/-- A register's address reaches that register, whatever the parameters are: no window of a buffer overlaps it. -/
theorem target_of_regAt (p : Params) {a : Nat} {r : Reg} (h : regAt (a / 4) = .reg r) : target p a = .reg r := by
  have low : a < 0x40000 := by have := lt_nine_of_regAt h; omega
  rw [target, if_pos low, h]

theorem inAddressSpace_of_regAt {addr : Word} {r : Reg} (h : regAt (addr.toNat / 4) = .reg r) :
    inAddressSpace addr = true := by
  have := lt_nine_of_regAt h
  exact decide_eq_true (by omega)

theorem wordAccess_of_aligned {addr : Word} (h : addr.toNat % 4 = 0) : wordAccess addr 4 = true :=
  decide_eq_true ⟨rfl, h⟩

section
variable {s : State} {rest : List Turn}

/-- A host event at the head of the agenda is what the step does. -/
theorem step_of_host {op : HostOp} (h : s.agenda = .host op :: rest) :
    step s = hostTurn op { s with agenda := rest } := by
  simp only [step, h]

variable {addr : Word} {r : Reg}

/-- Out of reset, an aligned word read at a register's address reads that register. -/
theorem step_of_readReg (hs : s.inReset = false) (hr : regAt (addr.toNat / 4) = .reg r) (hal : addr.toNat % 4 = 0)
    (h : s.agenda = .host (.read addr 4) :: rest) : step s = .next (readReg r { s with agenda := rest }) := by
  rw [step_of_host h]
  simp [hostTurn, busRead, inAddressSpace_of_regAt hr, wordAccess_of_aligned hal, hs, target_of_regAt _ hr]

/-- Out of reset, an aligned word write at a register's address writes that register. -/
theorem step_of_writeReg {v : Word} (hs : s.inReset = false) (hr : regAt (addr.toNat / 4) = .reg r)
    (hal : addr.toNat % 4 = 0) (h : s.agenda = .host (.write addr 4 v) :: rest) :
    step s = writeReg r v { s with agenda := rest } := by
  rw [step_of_host h]
  simp [hostTurn, busWrite, inAddressSpace_of_regAt hr, wordAccess_of_aligned hal, hs, target_of_regAt _ hr]

end

/-! ### ID and STATUS -/

/-- Settles O43: offset 0 is the register ID, whose read answers the constant and whose write is refused, in every state
out of reset. -/
theorem idReadsItsConstant : Obligations.IdReadsItsConstant := by
  refine ⟨by decide, fun s rest hs => ⟨fun h => ?_, fun v h => ?_⟩⟩
  · exact step_of_readReg (r := .id) hs rfl rfl h
  · exact step_of_writeReg (r := .id) hs rfl rfl h

/-- Settles O46: offset 0x010 is the register STATUS, whose write is `writeStatus` answered with OKAY; neither looks at
whether the engine is busy. -/
theorem statusWriteClearsFlags : Obligations.StatusWriteClearsFlags := by
  intro s v rest hs h
  exact step_of_writeReg (r := .status) hs rfl rfl h

end Sys2Proof.Proofs
end

section
/-! The fields of a command word as numbers, the three commands a word that is not reserved can name, and the two ways
an idle block fails a command word at acceptance (rules R54, R58, R115). -/

namespace Sys2Proof.Proofs

open Sys2Proof Sys2Proof.Machine

/-! ### The fields of a command word (rule R54) -/

theorem cmdOp_toNat (w : Word) : (cmdOp w).toNat = w.toNat / 2 ^ 28 := by
  simp only [cmdOp, BitVec.extractLsb'_toNat, Nat.shiftRight_eq_div_pow]
  omega

theorem cmdReservedBits_toNat (w : Word) : (cmdReservedBits w).toNat = w.toNat / 2 ^ 17 % 2 ^ 11 := by
  simp only [cmdReservedBits, BitVec.extractLsb'_toNat, Nat.shiftRight_eq_div_pow]

theorem cmdLen_toNat (w : Word) : (cmdLen w).toNat = w.toNat % 2 ^ 16 := by
  simp only [cmdLen, BitVec.extractLsb'_toNat, Nat.shiftRight_zero]

theorem cmdFirst_iff (w : Word) : cmdFirst w = true ↔ w.toNat / 2 ^ 16 % 2 = 1 := by
  simp only [cmdFirst, BitVec.getLsbD, Nat.testBit_eq_decide_div_mod_eq, decide_eq_true_eq]

/-- A word whose reserved field is 0 is the word built from its three other fields. -/
theorem cmdWord_of_fields {w : Word} (h : cmdReservedBits w = 0) : cmdWord (cmdOp w) (cmdFirst w) (cmdLen w) = w := by
  have parts : w = cmdOp w ++ cmdReservedBits w ++ BitVec.ofBool (cmdFirst w) ++ cmdLen w := by
    apply BitVec.eq_of_getLsbD_eq
    intro i hi
    simp only [cmdOp, cmdReservedBits, cmdFirst, cmdLen, BitVec.getLsbD_append, BitVec.getLsbD_extractLsb']
    interval_cases i <;> simp
  rw [h] at parts
  exact parts.symm

/-! ### Reserved words and the commands (rules R55, R58) -/

/-- The decoder's test is rule R58's three conditions on the word as a number. -/
theorem isReserved_iff (w : Word) :
    isReserved w = true ↔
      ¬ (1 ≤ w.toNat / 2 ^ 28 ∧ w.toNat / 2 ^ 28 ≤ 3) ∨ w.toNat / 2 ^ 17 % 2 ^ 11 ≠ 0 ∨
        (w.toNat / 2 ^ 16 % 2 = 1 ∧ w.toNat / 2 ^ 28 ≠ 1) := by
  rw [← cmdOp_toNat, ← cmdReservedBits_toNat, ← cmdFirst_iff]
  simp only [isReserved, Bool.or_eq_true, Bool.and_eq_true, Bool.not_eq_true', Bool.or_eq_false_iff,
    beq_eq_false_iff_ne, bne_iff_ne, or_assoc]
  simp only [ne_eq, BitVec.toNat_eq, BitVec.reduceToNat]
  refine or_congr ?_ Iff.rfl
  omega

theorem decodeCmd_of_reserved {w : Word} (h : isReserved w = true) : decodeCmd w = .reservedCmd w := if_pos h

/-- A word that is not reserved is the encoding of one of the three commands, and is decoded as that command. -/
theorem decodeCmd_of_not_reserved {w : Word} (h : isReserved w = false) :
    (∃ first len, w = cmdWord 1 first len ∧ decodeCmd w = .decodeRow first len) ∨
      (∃ len, w = cmdWord 2 false len ∧ decodeCmd w = .encodeRow len) ∨
      (∃ len, w = cmdWord 3 false len ∧ decodeCmd w = .convertRow len) := by
  have fields := h
  simp only [isReserved, Bool.or_eq_false_iff, Bool.not_eq_false', Bool.or_eq_true, beq_iff_eq,
    bne_eq_false_iff_eq] at fields
  obtain ⟨⟨hop, hbits⟩, hfirst⟩ := fields
  have hw := cmdWord_of_fields hbits
  obtain (hop | hop) | hop := hop <;> simp only [hop] at hw hfirst
  · exact .inl ⟨_, _, hw.symm, by simp [decodeCmd, h, hop]⟩
  · have hfirst : cmdFirst w = false := by simpa using hfirst
    exact .inr (.inl ⟨_, hfirst ▸ hw.symm, by simp [decodeCmd, h, hop]⟩)
  · have hfirst : cmdFirst w = false := by simpa using hfirst
    exact .inr (.inr ⟨_, hfirst ▸ hw.symm, by simp [decodeCmd, h, hop]⟩)

/-! ### Failing at acceptance (rule R115) -/

section
variable {s : State}

/-- An idle block fails a command whose LEN is out of range, whatever the command would have started. -/
theorem writeCmd_of_badLen {w : Word} {len : BitVec 16} {start : State → State} (hs : ready s)
    (hlen : badLen s.params len = true) :
    writeCmd w (startIfLen len start) s = respond .okay 0 (failAccept errBadLen (acceptClear w s)) := by
  obtain ⟨hreset, hidle⟩ := hs
  rw [writeCmd_idle hreset (busy_eq_false.mpr hidle), startIfLen, acceptClear_params, if_pos hlen]

theorem exec_decodeCmd_of_reserved {w : Word} (hs : ready s) (hw : isReserved w = true) :
    exec (decodeCmd w) s = .next (respond .okay 0 (failAccept errBadOp (acceptClear w s))) := by
  obtain ⟨hreset, hidle⟩ := hs
  rw [decodeCmd_of_reserved hw]
  exact congrArg _ (writeCmd_idle hreset (busy_eq_false.mpr hidle))

theorem exec_decodeCmd_of_badLen {w : Word} (hs : ready s) (hw : isReserved w = false)
    (hlen : badLen s.params (cmdLen w) = true) :
    exec (decodeCmd w) s = .next (respond .okay 0 (failAccept errBadLen (acceptClear w s))) := by
  obtain ⟨first, len, rfl, hdec⟩ | ⟨len, rfl, hdec⟩ | ⟨len, rfl, hdec⟩ := decodeCmd_of_not_reserved hw
  all_goals
    rw [cmdLen_cmdWord] at hlen
    rw [hdec]
    exact congrArg _ (writeCmd_of_badLen hs hlen)

/-- Out of reset, a word written to CMD runs the command it names. -/
theorem step_of_writeCmd {w : Word} {rest : List Turn} (hs : s.inReset = false)
    (h : s.agenda = .host (.write 0x00C 4 w) :: rest) : step s = exec (decodeCmd w) { s with agenda := rest } :=
  step_of_writeReg (r := .cmd) hs rfl rfl h

end

/-- Settles O6: the decoder's test for reserved words is rule R58's, and an idle block fails a word at acceptance, with
ERR_BADOP when it is reserved and with ERR_BADLEN when it is a command whose LEN is out of range. -/
theorem reservedOrOutOfRangeCommandFails : Obligations.ReservedOrOutOfRangeCommandFails := by
  intro s w rest hs h
  rw [step_of_writeCmd hs.1 h]
  refine ⟨fun hres => ?_, fun hres hlen => ?_⟩
  · have hres := (isReserved_iff w).mpr hres
    exact ⟨decodeCmd_of_reserved hres, exec_decodeCmd_of_reserved hs hres⟩
  · rw [← isReserved_iff, Bool.not_eq_true] at hres
    rw [← cmdLen_toNat] at hlen
    exact exec_decodeCmd_of_badLen hs hres (decide_eq_true hlen)

end Sys2Proof.Proofs
end

section
/-! A row written through `putPixels`: what its pixels read as afterwards, and how the legacy loop goes on from there
or ends the row (rules R28, R77, R78, R82). -/

namespace Sys2Proof.Proofs

open Sys2Proof Sys2Proof.Machine

/-! ### Pixels and their bytes (rule R28) -/

/-- A pixel is known once its four bytes are. -/
theorem rowPixel_of_get? {s : State} {i : Nat} {w : Word}
    (h : ∀ p, p < 4 → s.mem.get? (rowAddr i p) = some (w.extractLsb' (8 * p) 8)) : s.rowPixel i = w := by
  have byte (p : Nat) (hp : p < 4) : s.readByte (rowAddr i p) = w.extractLsb' (8 * p) 8 := readByte_of_get? (h p hp)
  calc s.rowPixel i
      = wordOfBytes (s.readByte (rowAddr i 0)) (s.readByte (rowAddr i 1)) (s.readByte (rowAddr i 2))
          (s.readByte (rowAddr i 3)) := rfl
    _ = wordOfBytes (w.extractLsb' 0 8) (w.extractLsb' 8 8) (w.extractLsb' 16 8) (w.extractLsb' 24 8) := by
        rw [byte 0 (by decide), byte 1 (by decide), byte 2 (by decide), byte 3 (by decide)]
    _ = w := wordOfBytes_wordBytes w

/-! ### Writing pixels at I (rule R78) -/

section
variable (ws : List Word) (s : State)

/-- Each pixel written at I and above reads as its word. -/
theorem putPixels_rowPixel {k : Nat} (hk : k < ws.length) : (putPixels ws s).rowPixel (s.i.toNat + k) = ws[k] :=
  rowPixel_of_get? fun _ hp => Memory.get?_setPixels_at ws s.i.toNat s.mem hk hp

/-- Writing pixels changes no byte outside them. -/
theorem putPixels_sameOutside : sameOutside (inRow s.i.toNat ws.length) s (putPixels ws s) := by
  intro a ha
  have outside : a < rowAddr s.i.toNat 0 ∨ rowAddr (s.i.toNat + ws.length) 0 ≤ a := by
    simp only [inRow] at ha
    omega
  exact readByte_congr (Memory.get?_setPixels_outside ws s.i.toNat s.mem outside) rfl

end

/-! ### The legacy loop's test (rules R77, R82) -/

section
variable {s : State}

theorem closeLegacy_of_lt (hf : s.fsm = .dQuad) (h : s.i.toNat < s.len) : closeLegacy s = s := by
  rw [closeLegacy, if_pos h, ← hf]

theorem closeLegacy_of_le (h : s.len ≤ s.i.toNat) : closeLegacy s = decodeFinish s :=
  if_neg (Nat.not_lt.mpr h)

/-- The loop's test, and the end of the row with it, write no byte of a buffer. -/
@[simp] theorem closeLegacy_readByte (a : Nat) : (closeLegacy s).readByte a = s.readByte a := by
  obtain ⟨-, h⟩ | ⟨-, h⟩ := closeLegacy_cases s <;> rw [h] <;> rfl

@[simp] theorem closeLegacy_rowPixel (i : Nat) : (closeLegacy s).rowPixel i = s.rowPixel i := by
  simp only [State.rowPixel, State.readWord, closeLegacy_readByte]

/-- I moves past `n` pixels that fit the row without wrapping around. -/
theorem i_add_toNat {n : Nat} (h : s.i.toNat + n ≤ s.len) : (s.i + BitVec.ofNat 16 n).toNat = s.i.toNat + n := by
  have fits : s.i.toNat + n < 2 ^ 16 := Nat.lt_of_le_of_lt h s.lenField.isLt
  rw [BitVec.toNat_add, BitVec.toNat_ofNat, Nat.add_mod_mod, Nat.mod_eq_of_lt fits]

end

/-! ### LQ_PIXEL -/

theorem decodeQuad_of_pixel {r g b : Byte} (e : Byte) (h : ¬ (r = 1 ∧ g = 1 ∧ b = 1)) :
    decodeQuad r g b e = .lqPixel r g b e := if_neg h

/-- The state in which LQ_PIXEL, away from the marker position, meets the loop's test: the quad is consumed, the pixel
stands at the old I, and SHIFT is 0. -/
def afterPixel (r g b e : Byte) (s : State) : State :=
  { putPixels [wordOfBytes r g b e] (takeToken 4 s) with shift := 0 }

section
variable {s : State} (r g b e : Byte)

theorem exec_lqPixel (hf : s.fsm ≠ .dMark) : exec (.lqPixel r g b e) s = .next (closeLegacy (afterPixel r g b e s)) := by
  simp only [exec, execLqPixel, if_neg hf, afterPixel]

theorem afterPixel_rowPixel : (afterPixel r g b e s).rowPixel s.i.toNat = wordOfBytes r g b e :=
  putPixels_rowPixel [wordOfBytes r g b e] (takeToken 4 s) (k := 0) Nat.one_pos

theorem afterPixel_sameOutside : sameOutside (inRow s.i.toNat 1) s (afterPixel r g b e s) :=
  putPixels_sameOutside [wordOfBytes r g b e] (takeToken 4 s)

theorem afterPixel_i_toNat (h : s.i.toNat < s.len) : (afterPixel r g b e s).i.toNat = s.i.toNat + 1 :=
  i_add_toNat h

theorem afterPixel_len : (afterPixel r g b e s).len = s.len := rfl

theorem afterPixel_fsm : (afterPixel r g b e s).fsm = s.fsm := rfl

end

/-- Settles O9: LQ_PIXEL leaves `afterPixel` to the loop's test, which changes nothing inside the row and ends a full
row with the pixel just written as PREVPIX. -/
theorem lqPixelWritesPixel : Obligations.LqPixelWritesPixel := by
  intro s r g b e hf _ hi
  have hnext : (afterPixel r g b e s).i.toNat = s.i.toNat + 1 := afterPixel_i_toNat r g b e hi
  have hlen := afterPixel_len (s := s) r g b e
  refine ⟨decodeQuad_of_pixel e, closeLegacy (afterPixel r g b e s), exec_lqPixel r g b e (by simp [hf]), ?_, ?_, ?_, ?_⟩
  · exact (closeLegacy_rowPixel _).trans (afterPixel_rowPixel r g b e)
  · exact fun a ha => (closeLegacy_readByte a).trans (afterPixel_sameOutside r g b e a ha)
  · intro inside
    rw [closeLegacy_of_lt ((afterPixel_fsm r g b e).trans hf) (by omega)]
    rfl
  · intro full
    have last : (afterPixel r g b e s).len - 1 = s.i.toNat := by omega
    rw [closeLegacy_of_le (by omega), decodeFinish, last, afterPixel_rowPixel]
    rfl

end Sys2Proof.Proofs
end

section
/-! RunLen (rule R91): the count of equal bytes behind it, and how far a candidate run reaches. -/

namespace Sys2Proof.Proofs

open Sys2Proof Sys2Proof.Machine

/-! ### Counting equal bytes -/

section
variable (f : Nat → Byte) (v : Byte)

theorem countEqual_le (n a : Nat) : countEqual f v n a ≤ n := by
  induction n generalizing a with
  | zero => exact Nat.le_refl 0
  | succ n ih =>
    rw [countEqual]
    split
    · exact Nat.succ_le_succ (ih (a + 1))
    · exact Nat.zero_le _

theorem eq_of_lt_countEqual {n a j : Nat} (hj : j < countEqual f v n a) : f (a + j) = v := by
  induction n generalizing a j with
  | zero => exact absurd hj (Nat.not_lt_zero j)
  | succ n ih =>
    rw [countEqual] at hj
    split at hj
    next first =>
      cases j with
      | zero => exact first
      | succ j => rw [Nat.add_succ, ← Nat.succ_add]; exact ih (Nat.lt_of_succ_lt_succ hj)
    next => exact absurd hj (Nat.not_lt_zero j)

/-- The count is not less than any number of equal bytes within the bytes looked at. -/
theorem le_countEqual {n a k : Nat} (hk : k ≤ n) (eq : ∀ j, j < k → f (a + j) = v) :
    k ≤ countEqual f v n a := by
  induction n generalizing a k with
  | zero => exact hk
  | succ n ih =>
    cases k with
    | zero => exact Nat.zero_le _
    | succ k =>
      have first : f a = v := eq 0 (Nat.succ_pos k)
      have later : k ≤ countEqual f v n (a + 1) :=
        ih (Nat.le_of_succ_le_succ hk) fun j hj => by
          rw [Nat.succ_add, ← Nat.add_succ]
          exact eq (j + 1) (Nat.succ_lt_succ hj)
      rw [countEqual, if_pos first]
      exact Nat.succ_le_succ later

end

/-! ### RunLen -/

section
variable (f : Nat → Byte) {l beg : Nat}

theorem runLen_le : runLen f l beg ≤ min 127 (l - beg) := countEqual_le f (f beg) _ beg

/-- A candidate run holds at least its first byte, so that the search always moves on. -/
theorem runLen_pos (h : beg < l) : 1 ≤ runLen f l beg :=
  le_countEqual f (f beg) (by omega) fun j hj => by rw [Nat.lt_one_iff.mp hj, Nat.add_zero]

end

/-- Settles O29: RunLen counts the equal bytes among the next `min 127 (l - beg)`. -/
theorem runLenIsLargest : Obligations.RunLenIsLargest := by
  intro f l beg h
  exact ⟨⟨runLen_pos f h, runLen_le f, fun _ => eq_of_lt_countEqual f (f beg)⟩,
    fun _ _ hk eq => le_countEqual f (f beg) hk eq⟩

end Sys2Proof.Proofs
end

section
/-! Engine turns while the sink accepts everything, and the adaptive row's marker (rules R45, R89, R96). -/

namespace Sys2Proof.Proofs

open Sys2Proof Sys2Proof.Machine

/-! ### Undisturbed turns -/

/-- The engine moves by itself and the sink takes every byte: no reset, no turn of the host to come. -/
structure Undisturbed (s : State) : Prop where
  inReset : s.inReset = false
  agenda : s.agenda = []
  sink : s.sink = .acceptAll

/-- The state after the sink has taken `bs`, one byte after the other. -/
def deliverAll (bs : List Byte) (s : State) : State :=
  { s with sunk := s.sunk ++ bs, outcount := s.outcount + BitVec.ofNat 32 bs.length, offer := none }

section
variable {s : State}

theorem deliverAll_append (bs cs : List Byte) : deliverAll (bs ++ cs) s = deliverAll cs (deliverAll bs s) := by
  simp [deliverAll, BitVec.ofNat_add, BitVec.add_assoc]

theorem step_of_nextInstr {i : Instr} (hr : s.inReset = false) (ha : s.agenda = []) (hi : nextInstr s = some i) :
    step s = exec i s := by
  simp [step, ha, engineTurn, hr, hi]

theorem step_of_partTurn (hr : s.inReset = false) (ha : s.agenda = []) (hi : nextInstr s = none) :
    step s = .next (partTurn s) := by
  simp [step, ha, engineTurn, hr, hi]

/-- The outcome of one byte where the sink takes it. -/
theorem afterOutput_outPut {p : Bool} {go : State → State} {b : Byte} (h : s.sink = .acceptAll) :
    afterOutput p go (outPut b s) = go (deliver b s) := by
  rw [outPut_acceptAll h, afterOutput_accepted]

end

/-! ### Tokens of four bytes, and the marker -/

section
variable {s : State}

/-- K counts up to 3 while the bytes of a pixel or marker from K on are emitted. -/
theorem k_add_rest (k : BitVec 2) : k + BitVec.ofNat 2 (4 - k.toNat - 1) = 3 := by
  decide +revert

/-- The sink takes four bytes from byte K on. -/
theorem outPutAll_drop_k {bs : List Byte} (hl : bs.length = 4) (hsink : s.sink = .acceptAll) :
    outPutAll (bs.drop s.k.toNat) s = .accepted { deliverAll (bs.drop s.k.toNat) s with k := 3 } := by
  have rest : (bs.drop s.k.toNat).length = 4 - s.k.toNat := by rw [List.length_drop, hl]
  have some_left : bs.drop s.k.toNat ≠ [] := List.ne_nil_of_length_pos (by have := s.k.isLt; omega)
  rw [outPutAll_acceptAll hsink some_left, rest, k_add_rest, deliverAll, rest]

/-- ENC_MARKER where the sink takes every byte: the marker is emitted from byte K on, and plane 0 begins. -/
theorem exec_encMarker_acceptAll (h : BitVec 7) (l : Byte) (hsink : s.sink = .acceptAll) :
    exec (.encMarker h l) s =
      .next { deliverAll ([2, 2, 0#1 ++ h, l].drop s.k.toNat) s with
        k := 3, pl := 0, cur := 0, beg := 0, fsm := .eScan } := by
  simp only [exec, execEncMarker]
  rw [outPutAll_drop_k rfl hsink]
  rfl

/-- A length of at most 32767 has its top bit clear, so the marker's third byte is the length's high byte. -/
theorem marker_high_byte {len : BitVec 16} (h : len.toNat ≤ 32767) :
    0#1 ++ len.extractLsb' 8 7 = len.extractLsb' 8 8 := by
  apply BitVec.eq_of_toNat_eq
  simp only [BitVec.toNat_append, BitVec.extractLsb'_toNat, BitVec.toNat_ofNat, Nat.shiftRight_eq_div_pow]
  simp
  omega

/-- The engine's own marker of a row of at most 32767 pixels, from its first byte. -/
theorem step_eMark (hs : Undisturbed s) (hf : s.fsm = .eMark) (hk : s.k = 0) (hl : s.len ≤ 32767) :
    step s = .next { deliverAll (markerBytes s.lenField) s with
      k := 3, pl := 0, cur := 0, beg := 0, fsm := .eScan } := by
  have token : nextInstr s = some (.encMarker (s.lenField.extractLsb' 8 7) (s.lenField.extractLsb' 0 8)) := by
    simp [nextInstr, hf]
  rw [step_of_nextInstr hs.inReset hs.agenda token, exec_encMarker_acceptAll _ _ hs.sink, marker_high_byte hl, hk]
  rfl

end

/-- Settles O25: the sink takes the marker's bytes from byte K on in one turn, and the engine's token carries LEN. -/
theorem encMarkerEmitsLength : Obligations.EncMarkerEmitsLength := by
  intro s h l hf hsink
  constructor
  · rw [exec_encMarker_acceptAll h l hsink, deliverAll, List.length_drop]
    rfl
  · intro hr ha hk hl
    exact ⟨_, step_eMark ⟨hr, ha, hsink⟩ hf hk hl, rfl⟩

end Sys2Proof.Proofs
end

section
/-! The encoding function, one equation or fact per part of it (rules R90 to R93). -/

namespace Sys2Proof.Proofs

open Sys2Proof Sys2Proof.Machine

section
variable (f : Nat → Byte) {l : Nat}

/-! ### FindRun -/

theorem findRun_of_le {beg : Nat} (fuel : Nat) (h : l ≤ beg) : findRun f l fuel beg = (l, 0) := by
  cases fuel with
  | zero => rfl
  | succ fuel => exact if_pos h

/-- FindRun ends at the plane's end, or at a run of 4 to 127 bytes inside the plane. -/
theorem findRun_cases {fuel beg : Nat} (hb : beg ≤ l) (hfuel : l ≤ beg + fuel) :
    findRun f l fuel beg = (l, 0) ∨
      ∃ b rc, findRun f l fuel beg = (b, rc) ∧ beg ≤ b ∧ 4 ≤ rc ∧ rc ≤ 127 ∧ b + rc ≤ l := by
  induction fuel generalizing beg with
  | zero => exact .inl rfl
  | succ fuel ih =>
    by_cases inside : beg < l
    · have pos := runLen_pos f inside
      have fits : runLen f l beg ≤ min 127 (l - beg) := runLen_le f
      rw [findRun, if_neg (by omega)]
      split
      next long => exact .inr ⟨beg, _, rfl, Nat.le_refl _, long, by omega, by omega⟩
      next short =>
        obtain h | ⟨b, rc, h, hbeg, bounds⟩ := ih (beg := beg + runLen f l beg) (by omega) (by omega)
        · exact .inl h
        · exact .inr ⟨b, rc, h, by omega, bounds⟩
    · exact .inl (findRun_of_le f _ (by omega))

/-! ### Slices and literals -/

@[simp] theorem slice_length (a b : Nat) : (slice f a b).length = b - a := by simp [slice]

theorem slice_of_le {a b : Nat} (h : b ≤ a) : slice f a b = [] := by simp [slice, Nat.sub_eq_zero_of_le h]

/-- A slice is cut in two at any position inside it. -/
theorem slice_append {a m b : Nat} (h1 : a ≤ m) (h2 : m ≤ b) : slice f a b = slice f a m ++ slice f m b := by
  have len : b - a = (m - a) + (b - m) := by omega
  have shift (k : Nat) : a + (m - a + k) = m + k := by omega
  simp [slice, len, List.range_add, Function.comp_def, shift]

theorem slice_succ (a n : Nat) : slice f a (a + (n + 1)) = f a :: slice f (a + 1) (a + 1 + n) := by
  rw [slice_append f (m := a + 1) (by omega) (by omega), ← Nat.add_assoc, Nat.add_right_comm]
  simp [slice]

theorem literals_nil (fuel : Nat) : literals fuel [] = [] := by
  cases fuel <;> rfl

/-- The first chunk of a literal span, behind its count, and the rest of the span. -/
theorem literals_slice {a b n : Nat} (fuel : Nat) (h : a < b) (hn : n = min 128 (b - a)) :
    literals (fuel + 1) (slice f a b) =
      BitVec.ofNat 8 n :: (slice f a (a + n) ++ literals fuel (slice f (a + n) b)) := by
  have len := slice_length f a b
  have cut : slice f a b = slice f a (a + n) ++ slice f (a + n) b := slice_append f (by omega) (by omega)
  have chunk : (slice f a b).take 128 = slice f a (a + n) ∧ (slice f a b).drop 128 = slice f (a + n) b := by
    by_cases whole : b - a ≤ 128
    · have : a + n = b := by omega
      rw [List.take_of_length_le (by omega), List.drop_of_length_le (by omega), this, slice_of_le f (Nat.le_refl b)]
      exact ⟨rfl, rfl⟩
    · have first : (slice f a (a + n)).length = 128 := by rw [slice_length]; omega
      rw [cut]
      exact ⟨List.take_left' first, List.drop_left' first⟩
  cases hs : slice f a b with
  | nil => rw [hs, List.length_nil] at len; omega
  | cons c cs =>
    rw [hs, List.length_cons] at len
    rw [literals, ← hs, chunk.1, chunk.2, len, ← hn]

/-! ### EncodePlane from a position -/

theorem encodeFrom_of_le {cur : Nat} (fuel : Nat) (h : l ≤ cur) : encodeFrom f l fuel cur = [] := by
  cases fuel with
  | zero => rfl
  | succ fuel => exact if_pos h

/-- With no run to come, the rest of the plane is literals. -/
theorem encodeFrom_of_end {cur : Nat} (fuel : Nat) (h : cur < l) (hr : findRun f l l cur = (l, 0)) :
    encodeFrom f l (fuel + 1) cur = literals l (slice f cur l) := by
  simp [encodeFrom, Nat.not_le.mpr h, hr]

/-- Up to the next run the plane is literals; then the run, and the encoding goes on behind it. -/
theorem encodeFrom_of_run {cur b rc : Nat} (fuel : Nat) (h : cur < l) (hr : findRun f l l cur = (b, rc))
    (hrc : 4 ≤ rc) :
    encodeFrom f l (fuel + 1) cur =
      literals l (slice f cur b) ++ ([runControlByte rc, f b] ++ encodeFrom f l fuel (b + rc)) := by
  simp [encodeFrom, Nat.not_le.mpr h, hr, hrc]

end

/-! ### The row (rules R87 to R90) -/

section
variable {s : State} {len : BitVec 16}

theorem encodeRowBytes_of_adaptive (h : adaptiveLen len.toNat = true) :
    encodeRowBytes s len = markerBytes len ++
      (List.range' 0 4).flatMap fun p => encodePlane (fun x => s.rowByte x p) len.toNat := if_pos h

theorem encodeRowBytes_of_raw (h : adaptiveLen len.toNat = false) :
    encodeRowBytes s len = (List.range' 0 len.toNat).flatMap fun i => wordBytes (s.rowPixel i) := by
  rw [encodeRowBytes, if_neg (Bool.eq_false_iff.mp h), rawRow, List.range_eq_range']

end

end Sys2Proof.Proofs
end

section
/-! Runs of steps, and one step of each of the encoder's states (rules R95, R96). -/

namespace Sys2Proof.Proofs

open Sys2Proof Sys2Proof.Machine

/-! ### Runs -/

/-- Some number of steps leads from `s` to `t`. -/
def Reaches : State → State → Prop := Relation.ReflTransGen fun s t => step s = .next t

section
variable {s t u : State}

theorem Reaches.of_step (h : step s = .next t) : Reaches s t := Relation.ReflTransGen.single h

theorem Reaches.trans (h1 : Reaches s t) (h2 : Reaches t u) : Reaches s u := Relation.ReflTransGen.trans h1 h2

theorem Reaches.head (h1 : step s = .next t) (h2 : Reaches t u) : Reaches s u := Relation.ReflTransGen.head h1 h2

theorem runSteps_succ (n : Nat) (h : step s = .next t) : runSteps (n + 1) s = runSteps n t := by
  have h' : Sys2Proof.core.step s = .next t := h
  simp only [runSteps, Host.Core.run, h']
  rfl

theorem Reaches.exists_runSteps (h : Reaches s t) : ∃ n, runSteps n s = .next t := by
  induction h using Relation.ReflTransGen.head_induction_on with
  | refl => exact ⟨0, rfl⟩
  | head first _ ih =>
    obtain ⟨n, hn⟩ := ih
    exact ⟨n + 1, (runSteps_succ n first).trans hn⟩

end

/-! ### One step in each state -/

section
variable {s : State} (hr : s.inReset = false) (ha : s.agenda = [])
include hr ha

theorem step_eScan (hf : s.fsm = .eScan) : step s = .next (scanTurn s) := by
  rw [step_of_partTurn hr ha (by simp [nextInstr, hf]), partTurn, hf]

theorem step_eLitCtl (hf : s.fsm = .eLitCtl) : step s = .next (literalControlTurn s) := by
  rw [step_of_partTurn hr ha (by simp [nextInstr, hf]), partTurn, hf]

theorem step_eLitDat (hf : s.fsm = .eLitDat) : step s = .next (literalDataTurn s) := by
  rw [step_of_partTurn hr ha (by simp [nextInstr, hf]), partTurn, hf]

theorem step_eRunCtl (hf : s.fsm = .eRunCtl) : step s = .next (runControlTurn s) := by
  rw [step_of_partTurn hr ha (by simp [nextInstr, hf]), partTurn, hf]

theorem step_eRunVal (hf : s.fsm = .eRunVal) : step s = .next (runByteTurn s) := by
  rw [step_of_partTurn hr ha (by simp [nextInstr, hf]), partTurn, hf]

theorem step_eNext (hf : s.fsm = .eNext) : step s = .next (nextPlaneTurn s) := by
  rw [step_of_partTurn hr ha (by simp [nextInstr, hf]), partTurn, hf]

theorem step_eDone (hf : s.fsm = .eDone) : step s = .next (encodeFinish s) := by
  rw [step_of_partTurn hr ha (by simp [nextInstr, hf]), partTurn, hf]

/-- The engine's own pixel, whose four bytes are those of ROW[CUR]. -/
theorem step_eRaw (hf : s.fsm = .eRaw) :
    step s = .next (afterOutput false nextRawPixel
      (outPutAll ((wordBytes (s.rowPixel s.cur.toNat)).drop s.k.toNat) s)) := by
  have token : nextInstr s = some (.rawPixel (s.rowByte s.cur.toNat 0) (s.rowByte s.cur.toNat 1)
      (s.rowByte s.cur.toNat 2) (s.rowByte s.cur.toNat 3)) := by simp [nextInstr, hf]
  rw [step_of_nextInstr hr ha token, State.rowPixel, State.readWord, wordBytes_wordOfBytes]
  rfl

end

end Sys2Proof.Proofs
end

section
/-! The encoder inside an adaptive row: a state's encoder registers as numbers, and each transition of rule R96 between
them while the sink takes every byte. -/

namespace Sys2Proof.Proofs

open Sys2Proof Sys2Proof.Machine

/-! ### Places of the encoder -/

/-- The encoder's registers inside an adaptive row, its counters as numbers. -/
structure Place where
  pl : BitVec 2
  cur : Nat
  beg : Nat
  rc : Nat
  ln : Nat
  fsm : Fsm

/-- The counters fit a plane of `l` bytes and their registers, so that none has wrapped around. -/
structure Place.Fits (l : Nat) (p : Place) : Prop where
  cur : p.cur ≤ p.beg
  beg : p.beg ≤ l
  rc : p.rc ≤ 127
  ln : p.ln ≤ 255

/-- The state `s` once its encoder has come to a place and the sink has taken `out`. -/
def encodeAt (s : State) (p : Place) (out : List Byte) : State :=
  { deliverAll out s with
    pl := p.pl, cur := BitVec.ofNat 16 p.cur, beg := BitVec.ofNat 16 p.beg, rc := BitVec.ofNat 7 p.rc,
    ln := BitVec.ofNat 8 p.ln, fsm := p.fsm }

/-- Plane `pl` of the row by position. -/
def rowPlane (s : State) (pl : BitVec 2) (x : Nat) : Byte := s.rowByte x pl.toNat

theorem len_lt (s : State) : s.len < 65536 := s.lenField.isLt

section
variable {s : State} {p : Place} {out : List Byte}

theorem encodeAt_len : (encodeAt s p out).len = s.len := rfl

theorem encodeAt_planeByte : planeByte (encodeAt s p out) = rowPlane s p.pl := rfl

theorem deliver_encodeAt (b : Byte) : deliver b (encodeAt s p out) = encodeAt s p (out ++ [b]) := by
  simp only [encodeAt, deliverAll_append]
  rfl

/-- One byte on offer, which the sink takes. -/
theorem afterOutput_encodeAt {q : Bool} {go : State → State} {b : Byte} (h : s.sink = .acceptAll) :
    afterOutput q go (outPut b (encodeAt s p out)) = go (encodeAt s p (out ++ [b])) :=
  (afterOutput_outPut (s := encodeAt s p out) h).trans (congrArg go (deliver_encodeAt b))

section
variable (h : p.Fits s.len)
include h

theorem encodeAt_beg : (encodeAt s p out).beg.toNat = p.beg :=
  Nat.mod_eq_of_lt (h.beg.trans_lt (len_lt s))

theorem encodeAt_cur : (encodeAt s p out).cur.toNat = p.cur :=
  Nat.mod_eq_of_lt ((h.cur.trans h.beg).trans_lt (len_lt s))

theorem encodeAt_rc : (encodeAt s p out).rc.toNat = p.rc :=
  Nat.mod_eq_of_lt (Nat.lt_succ_of_le h.rc)

theorem encodeAt_cur_lt_beg : (encodeAt s p out).cur < (encodeAt s p out).beg ↔ p.cur < p.beg := by
  rw [BitVec.lt_def, encodeAt_cur h, encodeAt_beg h]

theorem encodeAt_scanRunLen : scanRunLen (encodeAt s p out) = runLen (rowPlane s p.pl) s.len p.beg := by
  rw [scanRunLen, encodeAt_beg h, encodeAt_planeByte, encodeAt_len]

end

/-! ### The transitions (rule R96) -/

/-- Where the encoder goes behind a literal span: to the run found, if there is one. -/
def afterSpan (rc : Nat) : Fsm := if 4 ≤ rc then .eRunCtl else .eNext

/-- The place with FindRun's result; the literals before BEG come next. -/
def Place.found (run : Nat × Nat) (p : Place) : Place :=
  { p with beg := run.1, rc := run.2, fsm := if p.cur < run.1 then .eLitCtl else afterSpan run.2 }

section
variable (hs : Undisturbed s) (h : p.Fits s.len)
include hs h

/-- No candidate is left: the span reaches to the plane's end. -/
theorem scan_step_of_end (hf : p.fsm = .eScan) (hb : p.beg = s.len) :
    step (encodeAt s p out) = .next (encodeAt s (p.found (s.len, 0)) out) := by
  have at_end : s.len ≤ (encodeAt s p out).beg.toNat := by rw [encodeAt_beg h, hb]
  rw [step_eScan (s := encodeAt s p out) hs.inReset hs.agenda hf, scanTurn, encodeAt_len, if_pos at_end]
  simp only [encodeAt_cur_lt_beg h, Place.found, ← hb]
  rfl

theorem scan_step_of_run (hf : p.fsm = .eScan) (hb : p.beg < s.len)
    (hr : 4 ≤ runLen (rowPlane s p.pl) s.len p.beg) :
    step (encodeAt s p out) = .next (encodeAt s (p.found (p.beg, runLen (rowPlane s p.pl) s.len p.beg)) out) := by
  have inside : ¬ s.len ≤ (encodeAt s p out).beg.toNat := by rw [encodeAt_beg h]; omega
  rw [step_eScan (s := encodeAt s p out) hs.inReset hs.agenda hf, scanTurn, encodeAt_len, if_neg inside,
    encodeAt_scanRunLen h, if_pos hr]
  simp only [encodeAt_cur_lt_beg h, Place.found, afterSpan, if_pos hr]
  rfl

theorem scan_step_of_short (hf : p.fsm = .eScan) (hb : p.beg < s.len)
    (hr : ¬ 4 ≤ runLen (rowPlane s p.pl) s.len p.beg) :
    step (encodeAt s p out) =
      .next (encodeAt s { p with beg := p.beg + runLen (rowPlane s p.pl) s.len p.beg } out) := by
  have inside : ¬ s.len ≤ (encodeAt s p out).beg.toNat := by rw [encodeAt_beg h]; omega
  rw [step_eScan (s := encodeAt s p out) hs.inReset hs.agenda hf, scanTurn, encodeAt_len, if_neg inside,
    encodeAt_scanRunLen h, if_neg hr]
  simp only [encodeAt, BitVec.ofNat_add]

/-- A literal chunk's count byte. -/
theorem literalControl_step {n : Nat} (hf : p.fsm = .eLitCtl) (hn : n = min 128 (p.beg - p.cur)) :
    step (encodeAt s p out) = .next (encodeAt s { p with ln := n, fsm := .eLitDat } (out ++ [BitVec.ofNat 8 n])) := by
  have counted : { encodeAt s p out with ln := BitVec.ofNat 8 n } = encodeAt s { p with ln := n } out := rfl
  rw [step_eLitCtl (s := encodeAt s p out) hs.inReset hs.agenda hf, literalControlTurn, encodeAt_beg h,
    encodeAt_cur h, ← hn]
  simp only [counted, afterOutput_encodeAt hs.sink]
  rfl

/-- One literal of a chunk. -/
theorem literalData_step (hf : p.fsm = .eLitDat) (hl : 0 < p.ln) (hc : p.cur < p.beg) :
    step (encodeAt s p out) = .next (encodeAt s { p with
      cur := p.cur + 1, ln := p.ln - 1,
      fsm := if 1 < p.ln then .eLitDat else if p.cur + 1 < p.beg then .eLitCtl else afterSpan p.rc }
      (out ++ [rowPlane s p.pl p.cur])) := by
  rw [step_eLitDat (s := encodeAt s p out) hs.inReset hs.agenda hf, literalDataTurn,
    afterOutput_encodeAt hs.sink, encodeAt_cur h, encodeAt_planeByte]
  generalize out ++ _ = out
  have chunk := h.ln
  have less : (encodeAt s p out).ln - 1 = BitVec.ofNat 8 (p.ln - 1) := by
    change BitVec.ofNat 8 p.ln - 1 = _
    bv_omega
  have more : 0 < BitVec.ofNat 8 (p.ln - 1) ↔ 1 < p.ln := by bv_omega
  have inside : (encodeAt s p out).cur + 1 < (encodeAt s p out).beg ↔ p.cur + 1 < p.beg := by
    have := encodeAt_cur (out := out) h
    have := encodeAt_beg (out := out) h
    bv_omega
  simp only [nextLiteral, less, more, inside, encodeAt_rc h]
  simp only [encodeAt, BitVec.ofNat_add]
  rfl

theorem runControl_step (hf : p.fsm = .eRunCtl) :
    step (encodeAt s p out) = .next (encodeAt s { p with fsm := .eRunVal } (out ++ [runControlByte p.rc])) := by
  rw [step_eRunCtl (s := encodeAt s p out) hs.inReset hs.agenda hf, runControlTurn, encodeAt_rc h,
    afterOutput_encodeAt hs.sink]
  rfl

theorem runByte_step (hf : p.fsm = .eRunVal) (hl : p.beg + p.rc ≤ s.len) :
    step (encodeAt s p out) = .next (encodeAt s { p with
      cur := p.beg + p.rc, beg := p.beg + p.rc, fsm := if p.beg + p.rc < s.len then .eScan else .eNext }
      (out ++ [rowPlane s p.pl p.beg])) := by
  rw [step_eRunVal (s := encodeAt s p out) hs.inReset hs.agenda hf, runByteTurn, afterOutput_encodeAt hs.sink,
    encodeAt_beg h, encodeAt_planeByte, nextAfterRun, encodeAt_rc h]
  generalize out ++ _ = out
  have behind : (encodeAt s p out).beg + BitVec.ofNat 16 p.rc = BitVec.ofNat 16 (p.beg + p.rc) :=
    (BitVec.ofNat_add ..).symm
  have inside : BitVec.ofNat 16 (p.beg + p.rc) < s.lenField ↔ p.beg + p.rc < s.len := by
    rw [BitVec.lt_def, BitVec.toNat_ofNat, Nat.mod_eq_of_lt (hl.trans_lt (len_lt s)), State.len]
  have len : (encodeAt s p out).lenField = s.lenField := rfl
  simp only [behind, len, inside]
  rfl

end

/-- Plane PL is finished; another one follows. -/
theorem nextPlane_step_of_ne (hs : Undisturbed s) (hf : p.fsm = .eNext) (hp : p.pl ≠ 3) :
    step (encodeAt s p out) = .next (encodeAt s { p with pl := p.pl + 1, cur := 0, beg := 0, fsm := .eScan } out) :=
  (step_eNext (s := encodeAt s p out) hs.inReset hs.agenda hf).trans (congrArg _ (if_neg hp))

/-- The last plane is finished. -/
theorem nextPlane_step_of_eq (hs : Undisturbed s) (hf : p.fsm = .eNext) (hp : p.pl = 3) :
    step (encodeAt s p out) = .next (encodeAt s { p with fsm := .eDone } out) :=
  (step_eNext (s := encodeAt s p out) hs.inReset hs.agenda hf).trans (congrArg _ (if_pos hp))

end

end Sys2Proof.Proofs
end

section
/-! ENCODE_ROW's state machine emits the bytes of EncodePlane, segment by segment: the search for a run, a literal
span, a run, a plane (rules R90 to R97). -/

namespace Sys2Proof.Proofs

open Sys2Proof Sys2Proof.Machine

/-! ### One plane -/

section
variable {s : State} {p : Place} {out : List Byte}

theorem scan_reaches_of_end (fuel : Nat) (hs : Undisturbed s) (h : p.Fits s.len) (hf : p.fsm = .eScan)
    (hb : p.beg = s.len) :
    Reaches (encodeAt s p out) (encodeAt s (p.found (findRun (rowPlane s p.pl) s.len fuel p.beg)) out) := by
  rw [findRun_of_le _ _ (Nat.le_of_eq hb.symm)]
  exact .of_step (scan_step_of_end hs h hf hb)

/-- E_SCAN comes to FindRun's result, one candidate per step. -/
theorem scan_reaches {fuel : Nat} (hs : Undisturbed s) (h : p.Fits s.len) (hf : p.fsm = .eScan)
    (hfuel : s.len ≤ p.beg + fuel) :
    Reaches (encodeAt s p out) (encodeAt s (p.found (findRun (rowPlane s p.pl) s.len fuel p.beg)) out) := by
  induction fuel generalizing p with
  | zero => exact scan_reaches_of_end 0 hs h hf (Nat.le_antisymm h.beg hfuel)
  | succ fuel ih =>
    by_cases inside : p.beg < s.len
    · rw [findRun, if_neg (Nat.not_le.mpr inside)]
      split
      next long => exact .of_step (scan_step_of_run hs h hf inside long)
      next short =>
        have pos := runLen_pos (rowPlane s p.pl) inside
        have fits : runLen (rowPlane s p.pl) s.len p.beg ≤ min 127 (s.len - p.beg) := runLen_le _
        have skipped : { p with beg := p.beg + runLen (rowPlane s p.pl) s.len p.beg : Place }.Fits s.len :=
          ⟨h.cur.trans (Nat.le_add_right _ _), show p.beg + _ ≤ s.len by omega, h.rc, h.ln⟩
        exact .head (scan_step_of_short hs h hf inside short) (ih skipped hf (show s.len ≤ p.beg + _ + fuel by omega))
    · exact scan_reaches_of_end _ hs h hf (Nat.le_antisymm h.beg (Nat.not_lt.mp inside))

/-- E_LITDAT emits the literals of a chunk. -/
theorem chunk_reaches {n : Nat} (hs : Undisturbed s) (h : p.Fits s.len) (hf : p.fsm = .eLitDat) (hl : p.ln = n + 1)
    (hn : p.cur + (n + 1) ≤ p.beg) :
    Reaches (encodeAt s p out)
      (encodeAt s { p with
        cur := p.cur + (n + 1), ln := 0, fsm := if p.cur + (n + 1) < p.beg then .eLitCtl else afterSpan p.rc }
        (out ++ slice (rowPlane s p.pl) p.cur (p.cur + (n + 1)))) := by
  induction n generalizing p out with
  | zero =>
    have turn := literalData_step (out := out) hs h hf (by omega) (by omega)
    rw [hl, if_neg (Nat.lt_irrefl 1)] at turn
    rw [slice_succ, slice_of_le _ (Nat.le_refl _)]
    exact .of_step turn
  | succ n ih =>
    have turn := literalData_step (out := out) hs h hf (by omega) (by omega)
    rw [if_pos (by omega)] at turn
    have next : p.cur + (n + 1 + 1) = p.cur + 1 + (n + 1) := by omega
    have at_next : { p with cur := p.cur + 1, ln := p.ln - 1, fsm := .eLitDat : Place }.Fits s.len :=
      ⟨show p.cur + 1 ≤ p.beg by omega, h.beg, h.rc, (Nat.sub_le _ _).trans h.ln⟩
    rw [slice_succ, List.append_cons, next]
    exact .head turn (ih at_next rfl (show p.ln - 1 = n + 1 by omega)
      (show p.cur + 1 + (n + 1) ≤ p.beg by omega))

/-- E_LITCTL and E_LITDAT emit a literal span, chunk by chunk. -/
theorem span_reaches {fuel : Nat} (hs : Undisturbed s) (h : p.Fits s.len) (hf : p.fsm = .eLitCtl) (hc : p.cur < p.beg)
    (hfuel : p.beg ≤ p.cur + fuel) :
    Reaches (encodeAt s p out)
      (encodeAt s { p with cur := p.beg, ln := 0, fsm := afterSpan p.rc }
        (out ++ literals fuel (slice (rowPlane s p.pl) p.cur p.beg))) := by
  induction fuel generalizing p out with
  | zero => omega
  | succ fuel ih =>
    obtain ⟨m, hm⟩ : ∃ m, m + 1 = min 128 (p.beg - p.cur) := Nat.exists_add_one_eq.mpr (by omega)
    have turn := literalControl_step (out := out) hs h hf hm
    have at_chunk : { p with ln := m + 1, fsm := .eLitDat : Place }.Fits s.len :=
      ⟨h.cur, h.beg, h.rc, show m + 1 ≤ 255 by omega⟩
    have within : p.cur + (m + 1) ≤ p.beg := by omega
    have chunk := chunk_reaches (out := out ++ [BitVec.ofNat 8 (m + 1)]) hs at_chunk rfl rfl within
    rw [literals_slice _ fuel hc hm, List.append_cons, ← List.append_assoc]
    by_cases more : p.cur + (m + 1) < p.beg
    · have at_control : { p with cur := p.cur + (m + 1), ln := 0, fsm := .eLitCtl : Place }.Fits s.len :=
        ⟨within, h.beg, h.rc, Nat.zero_le _⟩
      have rest := ih (out := out ++ [BitVec.ofNat 8 (m + 1)] ++ slice (rowPlane s p.pl) p.cur (p.cur + (m + 1)))
        at_control rfl more (show p.beg ≤ p.cur + (m + 1) + fuel by omega)
      rw [if_pos more] at chunk
      exact .head turn (chunk.trans rest)
    · have full : p.cur + (m + 1) = p.beg := by omega
      rw [if_neg more, full] at chunk
      rw [full, slice_of_le _ (Nat.le_refl _), literals_nil, List.append_nil]
      exact .head turn chunk

/-- E_RUNCTL and E_RUNVAL emit a run and go behind it. -/
theorem run_reaches (hs : Undisturbed s) (h : p.Fits s.len) (hf : p.fsm = .eRunCtl) (hl : p.beg + p.rc ≤ s.len) :
    Reaches (encodeAt s p out)
      (encodeAt s { p with
        cur := p.beg + p.rc, beg := p.beg + p.rc, fsm := if p.beg + p.rc < s.len then .eScan else .eNext }
        (out ++ [runControlByte p.rc, rowPlane s p.pl p.beg])) := by
  have at_value : { p with fsm := .eRunVal : Place }.Fits s.len := ⟨h.cur, h.beg, h.rc, h.ln⟩
  rw [List.append_cons]
  exact .head (runControl_step hs h hf) (.of_step (runByte_step hs at_value rfl hl))

end

/-- The encoder emits `bs` and stands behind the plane. -/
def FinishesPlane (s : State) (p : Place) (out bs : List Byte) : Prop :=
  ∃ q : Place, Reaches (encodeAt s p out) (encodeAt s q (out ++ bs)) ∧
    q.Fits s.len ∧ q.fsm = .eNext ∧ q.pl = p.pl

/-- From any scan that begins at CUR = BEG, with at most `fuel` bytes of the plane left, the encoder emits EncodePlane
from there. -/
def EmitsPlane (s : State) (fuel : Nat) : Prop :=
  ∀ (p : Place) (out : List Byte), p.Fits s.len → p.fsm = .eScan → p.cur = p.beg → p.beg < s.len →
    s.len ≤ p.beg + fuel → FinishesPlane s p out (encodeFrom (rowPlane s p.pl) s.len fuel p.beg)

section
variable {s : State} {p q : Place} {out bs cs : List Byte}

theorem FinishesPlane.of_reaches (h : Reaches (encodeAt s p out) (encodeAt s q out)) (hp : q.pl = p.pl)
    (rest : FinishesPlane s q out bs) : FinishesPlane s p out bs := by
  obtain ⟨r, run, hr, hf, hpl⟩ := rest
  exact ⟨r, h.trans run, hr, hf, hpl.trans hp⟩

theorem FinishesPlane.of_emits (h : Reaches (encodeAt s p out) (encodeAt s q (out ++ bs))) (hp : q.pl = p.pl)
    (rest : FinishesPlane s q (out ++ bs) cs) : FinishesPlane s p out (bs ++ cs) := by
  obtain ⟨r, run, hr, hf, hpl⟩ := rest
  rw [List.append_assoc] at run
  exact ⟨r, h.trans run, hr, hf, hpl.trans hp⟩

/-- The literals up to the plane's end. -/
theorem span_finishes (hs : Undisturbed s) (h : p.Fits s.len) (hc : p.cur < s.len) :
    FinishesPlane s (p.found (s.len, 0)) out (literals s.len (slice (rowPlane s p.pl) p.cur s.len)) := by
  rw [Place.found, if_pos hc]
  have at_literals : { p with beg := s.len, rc := 0, fsm := .eLitCtl : Place }.Fits s.len :=
    ⟨h.cur.trans h.beg, Nat.le_refl _, Nat.zero_le _, h.ln⟩
  have span := span_reaches (out := out) (fuel := s.len) hs at_literals rfl hc (Nat.le_add_left _ _)
  exact ⟨_, span, ⟨Nat.le_refl _, Nat.le_refl _, Nat.zero_le _, Nat.zero_le _⟩, rfl, rfl⟩

section
variable {fuel : Nat} (hs : Undisturbed s) (ih : EmitsPlane s fuel)
include hs ih

/-- A run, and the rest of the plane behind it. -/
theorem run_then_plane (h : p.Fits s.len) (hf : p.fsm = .eRunCtl) (hrc : 4 ≤ p.rc) (hl : p.beg + p.rc ≤ s.len)
    (hfuel : s.len ≤ p.beg + (fuel + 1)) :
    FinishesPlane s p out ([runControlByte p.rc, rowPlane s p.pl p.beg] ++
      encodeFrom (rowPlane s p.pl) s.len fuel (p.beg + p.rc)) := by
  have run := run_reaches (out := out) hs h hf hl
  by_cases more : p.beg + p.rc < s.len
  · rw [if_pos more] at run
    have at_scan : { p with cur := p.beg + p.rc, beg := p.beg + p.rc, fsm := .eScan : Place }.Fits s.len :=
      ⟨Nat.le_refl _, hl, h.rc, h.ln⟩
    exact .of_emits run rfl (ih _ _ at_scan rfl rfl more (show s.len ≤ p.beg + p.rc + fuel by omega))
  · have full : p.beg + p.rc = s.len := by omega
    rw [if_neg more] at run
    rw [encodeFrom_of_le _ _ (Nat.le_of_eq full.symm), List.append_nil]
    exact ⟨_, run, ⟨Nat.le_refl _, hl, h.rc, h.ln⟩, rfl, rfl⟩

/-- The literals up to the run found, the run, and the rest of the plane. -/
theorem span_then_plane {b rc : Nat} (h : p.Fits s.len) (hb : p.cur ≤ b) (hrc : 4 ≤ rc) (hmax : rc ≤ 127)
    (hl : b + rc ≤ s.len) (hfuel : s.len ≤ b + (fuel + 1)) :
    FinishesPlane s (p.found (b, rc)) out (literals s.len (slice (rowPlane s p.pl) p.cur b) ++
      ([runControlByte rc, rowPlane s p.pl b] ++ encodeFrom (rowPlane s p.pl) s.len fuel (b + rc))) := by
  have to_run : afterSpan rc = .eRunCtl := if_pos hrc
  have inside : b ≤ s.len := by omega
  by_cases literal : p.cur < b
  · have at_literals : { p with beg := b, rc := rc, fsm := .eLitCtl : Place }.Fits s.len :=
      ⟨hb, inside, hmax, h.ln⟩
    have at_run : { p with cur := b, beg := b, rc := rc, ln := 0, fsm := afterSpan rc : Place }.Fits s.len :=
      ⟨Nat.le_refl _, inside, hmax, Nat.zero_le _⟩
    have span := span_reaches (out := out) (fuel := s.len) hs at_literals rfl literal
      (show b ≤ p.cur + s.len by omega)
    rw [Place.found, if_pos literal]
    exact .of_emits span rfl (run_then_plane hs ih at_run to_run hrc hl hfuel)
  · have here : p.cur = b := by omega
    have at_run : (p.found (b, rc)).Fits s.len := ⟨hb, inside, hmax, h.ln⟩
    rw [here, slice_of_le _ (Nat.le_refl _), literals_nil, List.nil_append]
    exact run_then_plane hs ih at_run ((if_neg literal).trans to_run) hrc hl hfuel

end

end

/-- The encoder's state machine emits EncodePlane (rule R97). -/
theorem emitsPlane {s : State} (hs : Undisturbed s) (fuel : Nat) : EmitsPlane s fuel := by
  induction fuel with
  | zero => intro p out _ _ _ inside hfuel; omega
  | succ fuel ih =>
    intro p out h hf hc inside hfuel
    have scan := scan_reaches (out := out) (fuel := s.len) hs h hf (Nat.le_add_left _ _)
    obtain last | ⟨b, rc, found, hb, hrc, hmax, hl⟩ :=
      findRun_cases (rowPlane s p.pl) (fuel := s.len) h.beg (Nat.le_add_left _ _)
    · rw [last] at scan
      rw [encodeFrom_of_end _ _ inside last, ← hc]
      exact .of_reaches scan rfl (span_finishes hs h (hc.trans_lt inside))
    · rw [found] at scan
      rw [encodeFrom_of_run _ _ inside found hrc, ← hc]
      exact .of_reaches scan rfl (span_then_plane hs ih h (hc.trans_le hb) hrc hmax hl (by omega))

end Sys2Proof.Proofs
end

section
/-! ENCODE_ROW from its acceptance to its end (rules R87, R88, R97, R99). -/

namespace Sys2Proof.Proofs

open Sys2Proof Sys2Proof.Machine

/-! ### The planes of an adaptive row -/

/-- A whole plane, from its first byte. -/
theorem plane_finishes {s : State} {p : Place} (out : List Byte) (hs : Undisturbed s) (hl : 0 < s.len)
    (h : p.Fits s.len) (hf : p.fsm = .eScan) (hc : p.cur = 0) (hb : p.beg = 0) :
    FinishesPlane s p out (encodePlane (fun x => s.rowByte x p.pl.toNat) s.len) := by
  have plane := emitsPlane hs s.len p out h hf (hc.trans hb.symm) (hb.trans_lt hl) (Nat.le_add_left _ _)
  rw [hb] at plane
  exact plane

/-- The encodings of the planes from PL on are emitted one after the other. -/
theorem planes_reach {s : State} {p : Place} {out : List Byte} {n : Nat} (hs : Undisturbed s) (hl : 0 < s.len)
    (h : p.Fits s.len) (hf : p.fsm = .eScan) (hc : p.cur = 0) (hb : p.beg = 0) (hp : p.pl.toNat + n = 3) :
    ∃ q : Place, q.fsm = .eDone ∧
      Reaches (encodeAt s p out)
        (encodeAt s q (out ++
          (List.range' p.pl.toNat (n + 1)).flatMap fun i => encodePlane (fun x => s.rowByte x i) s.len)) := by
  induction n generalizing p out with
  | zero =>
    obtain ⟨q, plane, -, hq, hpl⟩ := plane_finishes out hs hl h hf hc hb
    have last : q.pl = 3 := hpl.trans (BitVec.eq_of_toNat_eq hp)
    rw [List.range'_one, List.flatMap_singleton]
    exact ⟨{ q with fsm := .eDone }, rfl, plane.trans (.of_step (nextPlane_step_of_eq hs hq last))⟩
  | succ n ih =>
    obtain ⟨q, plane, hfits, hq, hpl⟩ := plane_finishes out hs hl h hf hc hb
    have more : q.pl ≠ 3 := by rw [hpl]; bv_omega
    have next_pl : (q.pl + 1).toNat = p.pl.toNat + 1 := by rw [hpl]; bv_omega
    obtain ⟨r, hr, rest⟩ := ih (p := { q with pl := q.pl + 1, cur := 0, beg := 0, fsm := .eScan })
      (out := out ++ encodePlane (fun x => s.rowByte x p.pl.toNat) s.len)
      ⟨Nat.le_refl _, Nat.zero_le _, hfits.rc, hfits.ln⟩ rfl rfl rfl (by rw [next_pl]; omega)
    rw [List.range'_succ, List.flatMap_cons, ← List.append_assoc, ← next_pl]
    exact ⟨r, hr, plane.trans (.head (nextPlane_step_of_ne hs hq more) rest)⟩

/-! ### A raw row -/

section
variable {s : State}

/-- One pixel, all four bytes of it. -/
theorem pixel_step (hs : Undisturbed s) (hf : s.fsm = .eRaw) (hk : s.k = 0) :
    step s = .next (nextRawPixel (deliverAll (wordBytes (s.rowPixel s.cur.toNat)) s)) := by
  have four := outPutAll_drop_k (s := s) (wordBytes_length (s.rowPixel s.cur.toNat)) hs.sink
  rw [step_eRaw hs.inReset hs.agenda hf, four, hk]
  rfl

/-- The state after the last pixels of a raw row, whose bytes are `bs`. -/
def rawDone (bs : List Byte) (s : State) : State :=
  { deliverAll bs s with k := 0, cur := s.lenField, fsm := .eDone }

theorem rawDone_append (bs cs : List Byte) : rawDone (bs ++ cs) s = rawDone cs (nextRawPixel (deliverAll bs s)) := by
  rw [rawDone, deliverAll_append]
  rfl

theorem nextRawPixel_of_last (bs : List Byte) (h : s.cur + 1 = s.lenField) :
    nextRawPixel (deliverAll bs s) = rawDone bs s := by
  have last : (deliverAll bs s).cur + 1 = (deliverAll bs s).lenField := h
  rw [nextRawPixel, if_pos last, last]
  rfl

theorem cur_succ_toNat (h : s.cur.toNat < s.len) : (s.cur + 1).toNat = s.cur.toNat + 1 := by
  have := len_lt s
  bv_omega

/-- The pixels from CUR on are emitted one after the other (rule R88). -/
theorem pixels_reach {n : Nat} (hs : Undisturbed s) (hf : s.fsm = .eRaw) (hk : s.k = 0)
    (hn : s.cur.toNat + (n + 1) = s.len) :
    Reaches s (rawDone ((List.range' s.cur.toNat (n + 1)).flatMap fun i => wordBytes (s.rowPixel i)) s) := by
  induction n generalizing s with
  | zero =>
    have last : s.cur + 1 = s.lenField := BitVec.eq_of_toNat_eq ((cur_succ_toNat (by omega)).trans hn)
    rw [List.range'_one, List.flatMap_singleton, ← nextRawPixel_of_last _ last]
    exact .of_step (pixel_step hs hf hk)
  | succ n ih =>
    have next : (s.cur + 1).toNat = s.cur.toNat + 1 := cur_succ_toNat (by omega)
    have more : s.cur + 1 ≠ s.lenField := by
      intro h
      have : s.cur.toNat + 1 = s.len := next.symm.trans (congrArg BitVec.toNat h)
      omega
    have moved : (s.cur + 1).toNat + (n + 1) = s.len := by omega
    have rest := ih (s := nextRawPixel (deliverAll (wordBytes (s.rowPixel s.cur.toNat)) s))
      ⟨hs.inReset, hs.agenda, hs.sink⟩ (if_neg more) rfl moved
    rw [List.range'_succ, List.flatMap_cons, rawDone_append, ← next]
    exact .head (pixel_step hs hf hk) rest

end

/-! ### The row -/

/-- The state in which ENCODE_ROW is accepted, and its first state entered (rules R87, R96, R115). -/
def encodeStarted (len : BitVec 16) (s : State) : State :=
  { acceptClear (cmdWord 2 false len) s with
    path := if adaptiveLen len.toNat then pathAdaptive else pathLegacy
    cur := if adaptiveLen len.toNat then s.cur else 0
    k := 0
    fsm := if adaptiveLen len.toNat then .eMark else .eRaw
    reply := okReply 0 }

theorem exec_encodeRow {s : State} {len : BitVec 16} (hs : ready s) (hl : lenInRange s.params len) :
    exec (.encodeRow len) s = .next (encodeStarted len s) := by
  have inRange : badLen s.params len = false := by
    rw [badLen, decide_eq_false_iff_not]
    have := hl.1
    have := hl.2
    omega
  have field : (acceptClear (cmdWord 2 false len) s).len = len.toNat := by
    rw [State.len, State.lenField]
    exact congrArg _ (cmdLen_cmdWord 2 false len)
  obtain ⟨hr, hi⟩ := hs
  simp only [exec, execEncodeRow, writeCmd_idle hr (busy_eq_false.mpr hi), startIfLen, acceptClear_params, inRange,
    startEncode, field, encodeStarted]
  cases adaptiveLen len.toNat <;> rfl

section
variable (bs : List Byte) (s : State)

/-- Behind the marker the encoder is at the place where plane 0 begins. -/
theorem encodeAt_scan_start :
    { deliverAll bs s with k := 3, pl := 0, cur := 0, beg := 0, fsm := .eScan } =
      encodeAt { s with k := 3 }
        { pl := 0, cur := 0, beg := 0, rc := s.rc.toNat, ln := s.ln.toNat, fsm := .eScan } bs := by
  simp [encodeAt, deliverAll]

/-- Behind a raw row the encoder is at a place too. -/
theorem encodeAt_raw_end :
    rawDone bs s =
      encodeAt { s with k := 0 }
        { pl := s.pl, cur := s.len, beg := s.beg.toNat, rc := s.rc.toNat, ln := s.ln.toNat, fsm := .eDone } bs := by
  simp [rawDone, encodeAt, deliverAll, State.len]

end

section
variable {s : State} (hs : Undisturbed s) (hk : s.k = 0)
include hs hk

theorem adaptiveRow_reaches (hf : s.fsm = .eMark) (h : adaptiveLen s.len = true) :
    ∃ q, Reaches s (encodeFinish (encodeAt { s with k := 3 } q (encodeRowBytes s s.lenField))) := by
  obtain ⟨long, short⟩ : 8 ≤ s.len ∧ s.len ≤ 32767 := of_decide_eq_true h
  have marker := step_eMark hs hf hk short
  rw [encodeAt_scan_start] at marker
  obtain ⟨q, hq, planes⟩ := planes_reach (s := { s with k := 3 }) (out := markerBytes s.lenField) (n := 3)
    (p := { pl := 0, cur := 0, beg := 0, rc := s.rc.toNat, ln := s.ln.toNat, fsm := .eScan })
    ⟨hs.inReset, hs.agenda, hs.sink⟩ (Nat.zero_lt_of_lt long)
    ⟨Nat.le_refl _, Nat.zero_le _, Nat.le_of_lt_succ s.rc.isLt, Nat.le_of_lt_succ s.ln.isLt⟩ rfl rfl rfl rfl
  rw [encodeRowBytes_of_adaptive h]
  exact ⟨q, .head marker (planes.trans (.of_step (step_eDone hs.inReset hs.agenda hq)))⟩

theorem rawRow_reaches (hf : s.fsm = .eRaw) (hc : s.cur = 0) (h : adaptiveLen s.len = false) (hl : 0 < s.len) :
    ∃ q, Reaches s (encodeFinish (encodeAt { s with k := 0 } q (encodeRowBytes s s.lenField))) := by
  have first : s.cur.toNat = 0 := by rw [hc]; rfl
  have pixels := pixels_reach (n := s.len - 1) hs hf hk (by omega)
  rw [encodeAt_raw_end, Nat.sub_add_cancel hl, first] at pixels
  rw [encodeRowBytes_of_raw h]
  exact ⟨_, pixels.trans (.of_step (step_eDone hs.inReset hs.agenda rfl))⟩

end

section
variable (s : State) (len : BitVec 16)

theorem encodeStarted_lenField : (encodeStarted len s).lenField = len := cmdLen_cmdWord 2 false len

theorem encodeStarted_len : (encodeStarted len s).len = len.toNat :=
  congrArg BitVec.toNat (encodeStarted_lenField s len)

theorem encodeStarted_path :
    (encodeStarted len s).path = if 8 ≤ len.toNat ∧ len.toNat ≤ 32767 then 2 else 1 := by
  simp only [encodeStarted, adaptiveLen, decide_eq_true_eq]
  rfl

end

/-- The accepted command emits the row and completes, whichever the path (rules R97, R99). -/
theorem encodeStarted_reaches {s : State} {len : BitVec 16} (hs : Undisturbed s) (hl : 0 < len.toNat) :
    ∃ k q, Reaches (encodeStarted len s)
      (encodeFinish (encodeAt { encodeStarted len s with k := k } q (encodeRowBytes s len))) := by
  have hs' : Undisturbed (encodeStarted len s) := ⟨hs.inReset, hs.agenda, hs.sink⟩
  have length := encodeStarted_len s len
  have emitted : encodeRowBytes (encodeStarted len s) (encodeStarted len s).lenField = encodeRowBytes s len := by
    rw [encodeStarted_lenField]
    rfl
  rw [← emitted]
  cases adaptive : adaptiveLen len.toNat with
  | true => exact ⟨3, adaptiveRow_reaches hs' rfl (if_pos adaptive) ((congrArg adaptiveLen length).trans adaptive)⟩
  | false =>
    have raw : ¬ adaptiveLen len.toNat = true := Bool.eq_false_iff.mp adaptive
    exact ⟨0, rawRow_reaches hs' rfl (if_neg raw) (if_neg raw) ((congrArg adaptiveLen length).trans adaptive)
      (hl.trans_eq length.symm)⟩

/-- Settles O31: the accepted command stands at the marker or at the first raw pixel, and from there the whole row is
emitted, to the end of rule R99, whose PLANE follows PATH. -/
theorem stateMachineEmitsEncoding : Obligations.StateMachineEmitsEncoding := by
  intro s len hready hlen hsink hagenda
  obtain ⟨k, q, row⟩ := encodeStarted_reaches (len := len) ⟨hready.1, hagenda, hsink⟩ hlen.1
  obtain ⟨n, run⟩ := row.exists_runSteps
  have path := encodeStarted_path s len
  have plane : finalPlane (encodeStarted len s).path = if 8 ≤ len.toNat ∧ len.toNat ≤ 32767 then 3 else 0 := by
    rw [path]
    split <;> rfl
  exact ⟨_, n, _, exec_encodeRow hready hlen, run, rfl, BitVec.zero_add _, rfl, rfl, rfl, rfl,
    encodeStarted_lenField s len, path, plane, rfl, rfl, rfl, rfl, rfl, rfl⟩

end Sys2Proof.Proofs
end

section
/-! CONVERT_ROW (rules R103, R105, R111): FBUF word by word after the conversion, and its frame. -/

namespace Sys2Proof.Proofs

open Sys2Proof Sys2Proof.Machine

/-! ### Words in memory (rule R35) -/

/-- A word at a bus address is known once its four bytes are. -/
theorem readWord_of_get? {s : State} {a : Nat} {w : Word}
    (h : ∀ p, p < 4 → s.mem.get? (a + p) = some (w.extractLsb' (8 * p) 8)) : s.readWord a = w := by
  have byte (p : Nat) (hp : p < 4) : s.readByte (a + p) = w.extractLsb' (8 * p) 8 := readByte_of_get? (h p hp)
  calc s.readWord a
      = wordOfBytes (s.readByte (a + 0)) (s.readByte (a + 1)) (s.readByte (a + 2)) (s.readByte (a + 3)) := rfl
    _ = wordOfBytes (w.extractLsb' 0 8) (w.extractLsb' 8 8) (w.extractLsb' 16 8) (w.extractLsb' 24 8) := by
        rw [byte 0 (by decide), byte 1 (by decide), byte 2 (by decide), byte 3 (by decide)]
    _ = w := wordOfBytes_wordBytes w

theorem flatMap_wordBytes_length (ws : List Word) : (ws.flatMap wordBytes).length = 4 * ws.length := by
  induction ws with
  | nil => rfl
  | cons w ws ih =>
    rw [List.flatMap_cons, List.length_append, ih, wordBytes_length, List.length_cons]
    omega

/-- Writing words one after the other begins with the first of them. -/
theorem setBytes_words_cons (w : Word) (ws : List Word) (a : Nat) (m : Memory) :
    Memory.setBytes ((w :: ws).flatMap wordBytes) a m =
      Memory.setBytes (ws.flatMap wordBytes) (a + 4) (m.setWord a w) := rfl

/-- Word `c` of those written from an address up stands `4 * c` above it. -/
theorem get?_setBytes_words (ws : List Word) (a : Nat) (m : Memory) {c p : Nat} (hc : c < ws.length) (hp : p < 4) :
    (Memory.setBytes (ws.flatMap wordBytes) a m).get? (a + 4 * c + p) = some (ws[c].extractLsb' (8 * p) 8) := by
  induction ws generalizing a m c with
  | nil => simp at hc
  | cons w ws ih =>
    rw [setBytes_words_cons]
    cases c with
    | zero =>
      rw [Memory.get?_setBytes_outside _ _ _ (by omega)]
      exact (Memory.get?_setWord m a w).1 p hp
    | succ c =>
      rw [show a + 4 * (c + 1) + p = a + 4 + 4 * c + p by omega]
      exact ih (a + 4) _ (Nat.lt_of_succ_lt_succ hc)

/-! ### FBUF (rule R40) -/

theorem get?_setFb_at (m : Memory) (i : Nat) (ws : List Word) {c p : Nat} (hc : c < ws.length) (hp : p < 4) :
    (m.setFb i ws).get? (fbAddr i c + p) = some (ws[c].extractLsb' (8 * p) 8) :=
  get?_setBytes_words ws (fbAddr i 0) m hc hp

theorem get?_setFb_outside (m : Memory) (i : Nat) (ws : List Word) {a : Nat}
    (h : a < fbAddr i 0 ∨ fbAddr i 0 + 4 * ws.length ≤ a) : (m.setFb i ws).get? a = m.get? a :=
  Memory.get?_setBytes_outside _ _ _ (by rwa [flatMap_wordBytes_length])

/-! ### The converted row -/

section
variable (s : State)

/-- The words of a converted pixel, by the bytes of the pixel (rules R28, R105). -/
theorem convertPixel_rowPixel (mode : ConvRound) (x : Nat) :
    convertPixel mode (s.rowPixel x) =
      [channel mode (s.rowByte x 0) (s.rowByte x 3), channel mode (s.rowByte x 1) (s.rowByte x 3),
        channel mode (s.rowByte x 2) (s.rowByte x 3), 0x3F800000] := by
  have bytes : wordBytes (s.rowPixel x) = [s.rowByte x 0, s.rowByte x 1, s.rowByte x 2, s.rowByte x 3] :=
    wordBytes_wordOfBytes _ _ _ _
  simp only [wordBytes, List.cons.injEq, and_true] at bytes
  obtain ⟨red, green, blue, exponent⟩ := bytes
  rw [convertPixel, red, green, blue, exponent]
  rfl

/-- A converted pixel keeps its words while the pixels after it are converted. -/
theorem get?_convertPixels_at (m : Memory) {n x c p : Nat} (hx : x < n) (hc : c < 4) (hp : p < 4) :
    (convertPixels s n m).get? (fbAddr x c + p) =
      some (((convertPixel s.params.convRound (s.rowPixel x))[c]'hc).extractLsb' (8 * p) 8) := by
  induction n with
  | zero => omega
  | succ n ih =>
    rw [convertPixels]
    obtain earlier | rfl := Nat.lt_succ_iff_lt_or_eq.mp hx
    · rw [get?_setFb_outside _ _ _ (by simp only [fbAddr]; omega)]
      exact ih earlier
    · exact get?_setFb_at _ x _ hc hp

/-! ### The converter's turn -/

/-- Every word of FB[0 .. LEN-1] is that of the converted pixel. -/
theorem convertTurn_fbWord {x c : Nat} (hx : x < s.len) (hc : c < 4) :
    (convertTurn s).fbWord x c = (convertPixel s.params.convRound (s.rowPixel x))[c]'hc :=
  readWord_of_get? fun _ hp => get?_convertPixels_at s s.mem hx hc hp

/-- The conversion changes no byte outside FB[0 .. LEN-1] (rule R111). -/
theorem convertTurn_sameOutside : sameOutside (inFb s.len) s (convertTurn s) := by
  intro a ha
  have outside : a < fbAddr 0 0 ∨ fbAddr s.len 0 ≤ a := by
    simp only [inFb] at ha
    omega
  exact readByte_congr (Memory.get?_convertPixels_outside s s.len s.mem outside) rfl

end

theorem step_convert {s : State} (hr : s.inReset = false) (ha : s.agenda = []) (hf : s.fsm = .convert) :
    step s = .next (convertTurn s) := by
  rw [step_of_partTurn hr ha (by simp [nextInstr, hf]), partTurn, hf]

/-- Settles O36: one turn converts the whole row, each pixel's four words by the pixel's bytes. -/
theorem convertRowFillsFbuf : Obligations.ConvertRowFillsFbuf := by
  intro s hr ha hf
  refine ⟨convertTurn s, step_convert hr ha hf, fun x hx => ?_, convertTurn_sameOutside s, rfl⟩
  have word (c : Nat) (hc : c < 4) := convertTurn_fbWord s hx hc
  simp only [convertPixel_rowPixel] at word
  exact ⟨word 0 (by decide), word 1 (by decide), word 2 (by decide), word 3 (by decide)⟩

end Sys2Proof.Proofs
end

section
/-! A write to CMD while a command runs (rules R18, R128, R132): whichever command the word names, its meaning is a
`writeCmd`, and a running block drops that. -/

namespace Sys2Proof.Proofs

open Sys2Proof Sys2Proof.Machine

theorem busy_eq_true {s : State} : s.busy = true ↔ s.fsm ≠ .idle := bne_iff_ne

/-- Every command word, reserved or not, means a write to CMD with that command's start to follow. -/
theorem exec_decodeCmd_eq_writeCmd (w : Word) (s : State) :
    ∃ word start, exec (decodeCmd w) s = .next (writeCmd word start s) := by
  cases reserved : isReserved w with
  | true => exact ⟨_, _, congrArg (exec · s) (decodeCmd_of_reserved reserved)⟩
  | false =>
    obtain ⟨first, len, -, named⟩ | ⟨len, -, named⟩ | ⟨len, -, named⟩ := decodeCmd_of_not_reserved reserved
    all_goals exact ⟨_, _, congrArg (exec · s) named⟩

theorem exec_decodeCmd_of_busy {s : State} (h : s.busy = true) (w : Word) :
    exec (decodeCmd w) s = .next (slverr s) := by
  obtain ⟨word, start, meaning⟩ := exec_decodeCmd_eq_writeCmd w s
  rw [meaning, writeCmd_busy h]

/-- While reset is asserted a bus write is refused, wherever it goes (rule R128). -/
theorem busWrite_of_inReset {s : State} (h : s.inReset = true) (addr : Word) (size : Nat) (v : Word) :
    busWrite addr size v s = .next (slverr s) := by
  simp [busWrite, h]

/-- Settles O8: out of reset the write runs the command its word names, and a running block drops every one of them;
during reset the bus refuses the write before it reaches CMD. -/
theorem commandWhileBusyIsDropped : Obligations.CommandWhileBusyIsDropped := by
  intro s w rest hbusy h
  obtain hr | hr := s.inReset.eq_false_or_eq_true
  · rw [step_of_host h]
    exact busWrite_of_inReset (s := { s with agenda := rest }) hr 0x00C 4 w
  · rw [step_of_writeCmd hr h]
    exact exec_decodeCmd_of_busy (s := { s with agenda := rest }) (busy_eq_true.mpr hbusy) w

end Sys2Proof.Proofs
end

section
/-! Encoding against decoding, port by port (rules R54 to R65), and a step against the instruction the decoder reads
(rules R18, R66, R77). -/

namespace Sys2Proof.Proofs

open Sys2Proof Sys2Proof.Machine

/-! ### Command words (rules R54, R55, R58) -/

theorem decode_wordBytes (w : Word) (rest : List Byte) :
    decode .command (wordBytes w ++ rest) = .ok (decodeCmd w, rest) :=
  congrArg (fun v => Except.ok (decodeCmd v, rest)) (wordOfBytes_wordBytes w)

theorem decodeCmd_decodeRow (first : Bool) (len : BitVec 16) :
    decodeCmd (cmdWord 1 first len) = .decodeRow first len := by
  simp [decodeCmd, isReserved_cmdWord]

theorem decodeCmd_encodeRow (len : BitVec 16) : decodeCmd (cmdWord 2 false len) = .encodeRow len := by
  simp [decodeCmd, isReserved_cmdWord]

theorem decodeCmd_convertRow (len : BitVec 16) : decodeCmd (cmdWord 3 false len) = .convertRow len := by
  simp [decodeCmd, isReserved_cmdWord]

/-- Settles O2: a reserved word stands for itself, and any other word is built from the fields of its command. -/
theorem commandWordsKeepEveryBit : Obligations.CommandWordsKeepEveryBit := by
  intro w
  cases hw : isReserved w with
  | true => rw [decodeCmd_of_reserved hw]; exact ⟨hw, rfl⟩
  | false =>
    obtain ⟨first, len, rfl, hdec⟩ | ⟨len, rfl, hdec⟩ | ⟨len, rfl, hdec⟩ := decodeCmd_of_not_reserved hw
    all_goals rw [hdec]; exact ⟨rfl, rfl⟩

/-! ### Markers (rules R63, R89) -/

section
variable (h : BitVec 7)

theorem marker_top_bit : (0#1 ++ h).getLsbD 7 = false := by
  simp only [BitVec.getLsbD_append]
  rfl

theorem marker_low_bits : (0#1 ++ h).extractLsb' 0 7 = h := by
  apply BitVec.eq_of_getLsbD_eq
  intro i hi
  simp only [BitVec.getLsbD_extractLsb', BitVec.getLsbD_append, Nat.zero_add, hi, decide_true, Bool.true_and, if_true]

theorem marker_byte_toNat : (0#1 ++ h).toNat = h.toNat := by
  rw [BitVec.toNat_append]
  simp

end

theorem decodeMarker_of_marker (h : BitVec 7) (l : Byte) : decodeMarker 2 2 (0#1 ++ h) l = .adpMarker h l := by
  rw [decodeMarker, if_pos ⟨rfl, rfl, marker_top_bit h⟩, marker_low_bits]

theorem decodeMarkerOut_of_long {h : BitVec 7} {l : Byte} (hl : 8 ≤ markerLength h l) :
    decodeMarkerOut 2 2 (0#1 ++ h) l = .ok (.encMarker h l) := by
  rw [decodeMarkerOut, if_pos ⟨rfl, rfl, marker_top_bit h, by rwa [marker_byte_toNat]⟩, marker_low_bits]

/-! ### Plane tokens (rule R64) -/

theorem decodePlane_runControl {n : BitVec 7} (hn : n ≠ 0) (v : Byte) (rest : List Byte) :
    decodePlane (runControl n :: v :: rest) = .ok (.adpRun n v, rest) := by
  have run : isRunControl (runControl n) = true := by
    rw [isRunControl, runControl_toNat, decide_eq_true_eq]
    bv_omega
  simp only [decodePlane, if_pos run, runCount_runControl]

theorem decodePlane_literal {data : List Byte} (hd : data.length ≤ 128) (rest : List Byte) :
    decodePlane (BitVec.ofNat 8 data.length :: (data ++ rest)) = .ok (.adpLit data, rest) := by
  have count : (BitVec.ofNat 8 data.length).toNat = data.length := by
    rw [BitVec.toNat_ofNat]
    omega
  have literal : ¬ isRunControl (BitVec.ofNat 8 data.length) = true := by
    rw [isRunControl, count, decide_eq_true_eq]
    omega
  simp [decodePlane, if_neg literal, count]

/-- Settles O1: each constructor is decoded at its own port, where the well-formedness of the instruction shuts out the
other readings of its bytes. -/
theorem decodeInvertsEncode : Obligations.DecodeInvertsEncode := by
  intro i rest wf
  cases i with
  | decodeRow first len => exact (decode_wordBytes _ rest).trans (by rw [decodeCmd_decodeRow])
  | encodeRow len => exact (decode_wordBytes _ rest).trans (by rw [decodeCmd_encodeRow])
  | convertRow len => exact (decode_wordBytes _ rest).trans (by rw [decodeCmd_convertRow])
  | reservedCmd w => exact (decode_wordBytes w rest).trans (by rw [decodeCmd_of_reserved wf])
  | lqPixel r g b e =>
    have pixel : ¬ (r = 1 ∧ g = 1 ∧ b = 1) := by simpa [Instr.wf, or_assoc, imp_iff_not_or] using wf
    exact congrArg (fun j => Except.ok (j, rest)) (decodeQuad_of_pixel e pixel)
  | lqRun c => rfl
  | adpMarker h l => exact congrArg (fun j => Except.ok (j, rest)) (decodeMarker_of_marker h l)
  | adpRun n v => exact decodePlane_runControl (by simpa [Instr.wf] using wf) v rest
  | adpLit data => exact decodePlane_literal (of_decide_eq_true wf) rest
  | encMarker h l =>
    exact congrArg (fun r => Except.map (fun j => (j, rest)) r) (decodeMarkerOut_of_long (of_decide_eq_true wf))
  | rawPixel r g b e => rfl

/-- Settles O3, by running the decoder on each word. -/
theorem writtenOutWordsDecode : Obligations.WrittenOutWordsDecode := by
  refine ⟨?_, ?_, ?_, ?_, ?_, ?_, ?_, ?_, ?_, ?_⟩ <;> rfl

/-! ### Steps (rules R18, R66, R77) -/

theorem decodedInstr_of_ok {p : Port} {bytes more : List Byte} {i : Instr} (h : decode p bytes = .ok (i, more)) :
    decodedInstr p bytes = some i := by
  rw [decodedInstr, h]

/-- The marker the engine emits carries the low 15 bits of LEN, as the decoder reads them from the marker's bytes. -/
theorem instr_of_decodeMarkerOut {len : BitVec 16} {i : Instr} {more : List Byte}
    (h : decode .markerOut [2, 2, len.extractLsb' 8 8, len.extractLsb' 0 8] = .ok (i, more)) :
    i = .encMarker (len.extractLsb' 8 7) (len.extractLsb' 0 8) := by
  have low : (len.extractLsb' 8 8).extractLsb' 0 7 = len.extractLsb' 8 7 := by
    apply BitVec.eq_of_getLsbD_eq
    intro k hk
    simp only [BitVec.getLsbD_extractLsb', Nat.zero_add]
    simp [hk, Nat.lt_succ_of_lt hk]
  change (decodeMarkerOut 2 2 (len.extractLsb' 8 8) (len.extractLsb' 0 8)).map _ = _ at h
  rw [decodeMarkerOut, low] at h
  split at h
  · cases h; rfl
  · cases h

/-- The bytes that meet the block where the engine stands, and the instruction they hold. -/
def EngineReads (s : State) (p : Port) (i : Instr) (more : List Byte) : Prop :=
  (p = .quad ∧ s.fsm = .dQuad ∧ decode p (s.hold ++ s.q) = .ok (i, more)) ∨
    (p = .marker ∧ s.fsm = .dMark ∧ decode p (s.hold ++ s.q) = .ok (i, more)) ∨
    (p = .plane ∧ s.fsm = .dCtl ∧ decode p s.q = .ok (i, more)) ∨
    (p = .rawOut ∧ s.fsm = .eRaw ∧ decode p (wordBytes (s.rowPixel s.cur.toNat)) = .ok (i, more)) ∨
    (p = .markerOut ∧ s.fsm = .eMark ∧
      decode p [2, 2, s.lenField.extractLsb' 8 8, s.lenField.extractLsb' 0 8] = .ok (i, more))

theorem nextInstr_of_engineReads {s : State} {p : Port} {i : Instr} {more : List Byte}
    (h : EngineReads s p i more) : nextInstr s = some i := by
  obtain ⟨rfl, hf, hd⟩ | ⟨rfl, hf, hd⟩ | ⟨rfl, hf, hd⟩ | ⟨rfl, hf, hd⟩ | ⟨rfl, hf, hd⟩ := h
  · simp only [nextInstr, hf, decodedInstr_of_ok hd]
  · simp only [nextInstr, hf, decodedInstr_of_ok hd]
  · simp only [nextInstr, hf, decodedInstr_of_ok hd]
  · rw [State.rowPixel, State.readWord, wordBytes_wordOfBytes] at hd
    cases hd
    simp only [nextInstr, hf]
    rfl
  · rw [instr_of_decodeMarkerOut hd]
    simp only [nextInstr, hf]

theorem engineTurn_of_nextInstr {s : State} {i : Instr} (hr : s.inReset = false) (hi : nextInstr s = some i) :
    engineTurn s = exec i s := by
  rw [engineTurn, hr, hi]
  rfl

/-- An engine turn at the head of the agenda is what the step does. -/
theorem step_of_engine {s : State} {rest : List Turn} (h : s.agenda = .engine none :: rest) :
    step s = engineTurn { s with agenda := rest } := by
  simp only [step, h]

/-- Settles O4: a write to CMD runs the decoded command, and the engine's next token is what the decoder reads where the
engine stands. -/
theorem stepRunsDecodedInstruction : Obligations.StepRunsDecodedInstruction := by
  intro s rest hr
  refine ⟨fun w h => step_of_writeCmd hr h, fun p i more reads => ⟨fun h => ?_, fun h => ?_⟩⟩
  · have token : nextInstr { s with agenda := rest } = some i := nextInstr_of_engineReads (p := p) (more := more) reads
    exact (step_of_engine h).trans (engineTurn_of_nextInstr (s := { s with agenda := rest }) hr token)
  · exact step_of_nextInstr hr h (nextInstr_of_engineReads reads)

end Sys2Proof.Proofs
end

section
/-! The host's bus accesses: which are refused, that a refused one has no effect, and what the registers read as (rules
R14 to R24, R34 to R41, R118). -/

namespace Sys2Proof.Proofs

open Sys2Proof Sys2Proof.Machine

/-! ### A refused access has no effect (rules R36, R118) -/

section
variable (s : State)

theorem readReg_okay (r : Reg) : ∃ d f, readReg r s = respond .okay d { s with fresh := f } := by
  have draw (w : Word) (g : Word → Word) : ∃ d f, readOrDraw w g s = respond .okay d { s with fresh := f } := by
    unfold readOrDraw
    split
    · exact ⟨_, _, rfl⟩
    · exact ⟨_, s.fresh, rfl⟩
  cases r with
  | id | param | ctrl | cmd => exact ⟨_, s.fresh, rfl⟩
  | status | incount | outcount | pos | prevpix => simp only [readReg]; exact draw _ _

/-- A read is refused with no effect, or answered OKAY. -/
theorem busRead_slverr_or_okay (addr : Word) (size : Nat) :
    busRead addr size s = slverr s ∨ ∃ d f, busRead addr size s = respond .okay d { s with fresh := f } := by
  unfold busRead
  split
  · exact .inl rfl
  · cases target s.params addr.toNat with
    | reg r => exact .inr (readReg_okay s r)
    | row i | fb i c =>
      cases s.busy
      · exact .inr ⟨_, s.fresh, rfl⟩
      · exact .inl rfl
    | reserved => exact .inl rfl

/-- A command word written to CMD is dropped, or answered OKAY. -/
theorem exec_decodeCmd_slverr_or_okay (w : Word) :
    ∃ t, exec (decodeCmd w) s = .next t ∧ (t = slverr s ∨ t.reply = okReply 0) := by
  obtain ⟨word, start, meaning⟩ := exec_decodeCmd_eq_writeCmd w s
  refine ⟨_, meaning, ?_⟩
  obtain ⟨-, h⟩ | ⟨-, -, h⟩ := writeCmd_cases word start s
  · exact .inl h
  · exact .inr (by rw [h]; rfl)

/-- A write is refused with no effect, or answered OKAY. -/
theorem busWrite_slverr_or_okay (addr : Word) (size : Nat) (v : Word) :
    ∃ t, busWrite addr size v s = .next t ∧ (t = slverr s ∨ t.reply = okReply 0) := by
  unfold busWrite
  split
  · exact ⟨_, rfl, .inl rfl⟩
  · cases target s.params addr.toNat with
    | reg r =>
      cases r with
      | cmd => exact exec_decodeCmd_slverr_or_okay s v
      | ctrl | status => exact ⟨_, rfl, .inr rfl⟩
      | id | param | incount | outcount | pos | prevpix => exact ⟨_, rfl, .inl rfl⟩
    | row i =>
      cases s.busy
      · exact ⟨_, rfl, .inr rfl⟩
      · exact ⟨_, rfl, .inl rfl⟩
    | fb i c | reserved => exact ⟨_, rfl, .inl rfl⟩

end

/-- A step that is a read or a write leaves only the reply changed, or answers OKAY. -/
theorem step_access_slverr_or_okay {s t : State} {op : HostOp} {rest : List Turn} (h : s.agenda = .host op :: rest)
    (access : (∃ a z, op = .read a z) ∨ ∃ a z v, op = .write a z v) (ht : step s = .next t) :
    t = slverr { s with agenda := rest } ∨ ∃ d, t.reply = okReply d := by
  rw [step_of_host h] at ht
  obtain ⟨a, z, rfl⟩ | ⟨a, z, v, rfl⟩ := access
  · simp only [hostTurn] at ht
    split at ht
    next =>
      obtain refused | ⟨d, f, okay⟩ := busRead_slverr_or_okay { s with agenda := rest } a z
      · rw [refused] at ht
        cases ht
        exact .inl rfl
      · rw [okay] at ht
        cases ht
        exact .inr ⟨d, rfl⟩
    next => cases ht
  · simp only [hostTurn] at ht
    split at ht
    next =>
      obtain ⟨u, next, outcome⟩ := busWrite_slverr_or_okay { s with agenda := rest } a z v
      rw [next] at ht
      cases ht
      exact outcome.imp id fun okay => ⟨0, okay⟩
    next => cases ht

/-- Settles O41: a reply SLVERR is not an OKAY, so the access was a refused one. -/
theorem slverrHasNoEffect : Obligations.SlverrHasNoEffect := by
  intro s t op rest d h access ht reply
  obtain rfl | ⟨e, okay⟩ := step_access_slverr_or_okay h access ht
  · cases reply
    exact ⟨rfl, rfl⟩
  · rw [okay] at reply
    cases reply

/-! ### Which accesses are refused (rules R34, R36 to R41, R128) -/

theorem regAt_of_ge {n : Nat} (h : 9 ≤ n) : regAt n = .reserved := by
  unfold regAt
  split
  case h_10 => rfl
  all_goals omega

section
variable (p : Params) {a : Nat}

/-- The addresses of rule R38 behind which nothing stands, the ends of the windows among them. -/
theorem target_of_nothing
    (h : (0x24 ≤ a ∧ a < 0x40000) ∨ (0x80000 ≤ a ∧ a < 0x100000) ∨
      (0x40000 ≤ a ∧ a < 0x80000 ∧ p.rowMax.toNat ≤ (a - 0x40000) / 4) ∨
      (0x100000 ≤ a ∧ p.rowMax.toNat ≤ (a - 0x100000) / 16)) : target p a = .reserved := by
  unfold target
  split_ifs with registers rowbuf pixel gap fbuf word
  · exact regAt_of_ge (by omega)
  · omega
  · rfl
  · rfl
  · omega
  · rfl
  · rfl

/-- In the windows of the buffers stands a pixel or nothing. -/
theorem target_of_window (h : (0x40000 ≤ a ∧ a < 0x80000) ∨ 0x100000 ≤ a) :
    bufferAddr p a = true ∨ target p a = .reserved := by
  unfold bufferAddr target
  split_ifs with registers rowbuf pixel gap fbuf word
  · omega
  · exact .inl rfl
  · exact .inr rfl
  · exact .inr rfl
  · exact .inl rfl
  · exact .inr rfl
  · exact .inr rfl

/-- Above ROWBUF's window stands a pixel of FBUF or nothing. -/
theorem target_of_fbuf (h : 0x100000 ≤ a) : (∃ i c, target p a = .fb i c) ∨ target p a = .reserved := by
  unfold target
  split_ifs with registers rowbuf pixel gap fbuf word
  · omega
  · omega
  · exact .inr rfl
  · exact .inr rfl
  · exact .inl ⟨_, _, rfl⟩
  · exact .inr rfl
  · exact .inr rfl

/-- The registers a host only reads. -/
theorem target_of_readOnly (h : a < 0x8 ∨ (0x14 ≤ a ∧ a < 0x24)) :
    ∃ r, target p a = .reg r ∧ r ≠ .ctrl ∧ r ≠ .cmd ∧ r ≠ .status := by
  have word : a / 4 = 0 ∨ a / 4 = 1 ∨ a / 4 = 5 ∨ a / 4 = 6 ∨ a / 4 = 7 ∨ a / 4 = 8 := by omega
  have register (r : Reg) (hr : regAt (a / 4) = .reg r) (h1 : r ≠ .ctrl) (h2 : r ≠ .cmd) (h3 : r ≠ .status) :
      ∃ r, target p a = .reg r ∧ r ≠ .ctrl ∧ r ≠ .cmd ∧ r ≠ .status := ⟨r, target_of_regAt p hr, h1, h2, h3⟩
  obtain h | h | h | h | h | h := word
  · exact register .id (by rw [h]; rfl) nofun nofun nofun
  · exact register .param (by rw [h]; rfl) nofun nofun nofun
  · exact register .incount (by rw [h]; rfl) nofun nofun nofun
  · exact register .outcount (by rw [h]; rfl) nofun nofun nofun
  · exact register .pos (by rw [h]; rfl) nofun nofun nofun
  · exact register .prevpix (by rw [h]; rfl) nofun nofun nofun

end

section
variable {s : State} {addr : Word} {size : Nat}

/-- An access during reset, or not of one aligned word, is refused before the address is looked at. -/
theorem refused_of_not_word (h : s.inReset = true ∨ size ≠ 4 ∨ addr.toNat % 4 ≠ 0) :
    (s.inReset || !wordAccess addr size) = true := by
  obtain hr | hw := h
  · rw [hr, Bool.true_or]
  · have misfit : wordAccess addr size = false := decide_eq_false (by omega)
    rw [misfit, Bool.not_false, Bool.or_true]

theorem busRead_of_not_word (h : s.inReset = true ∨ size ≠ 4 ∨ addr.toNat % 4 ≠ 0) :
    busRead addr size s = slverr s := if_pos (refused_of_not_word h)

theorem busWrite_of_not_word (v : Word) (h : s.inReset = true ∨ size ≠ 4 ∨ addr.toNat % 4 ≠ 0) :
    busWrite addr size v s = .next (slverr s) := if_pos (refused_of_not_word h)

theorem busRead_of_reserved (h : target s.params addr.toNat = .reserved) : busRead addr size s = slverr s := by
  rw [busRead, h]
  exact ite_self _

theorem busWrite_of_reserved (v : Word) (h : target s.params addr.toNat = .reserved) :
    busWrite addr size v s = .next (slverr s) := by
  rw [busWrite, h]
  exact ite_self _

/-- While a command runs the buffers are out of the host's reach (rule R41). -/
theorem busRead_of_buffer (hb : s.busy = true) (h : bufferAddr s.params addr.toNat = true) :
    busRead addr size s = slverr s := by
  unfold bufferAddr at h
  unfold busRead
  split
  · rfl
  · cases ht : target s.params addr.toNat with
    | row i | fb i c => rfl
    | reg r | reserved => simp [ht] at h

theorem busWrite_of_buffer (v : Word) (hb : s.busy = true) (h : bufferAddr s.params addr.toNat = true) :
    busWrite addr size v s = .next (slverr s) := by
  unfold bufferAddr at h
  unfold busWrite
  split
  · rfl
  · cases ht : target s.params addr.toNat with
    | row i => rfl
    | fb i c => rfl
    | reg r | reserved => simp [ht] at h

theorem busWrite_of_readOnly (v : Word)
    (h : addr.toNat < 0x8 ∨ (0x14 ≤ addr.toNat ∧ addr.toNat < 0x24) ∨ 0x100000 ≤ addr.toNat) :
    busWrite addr size v s = .next (slverr s) := by
  unfold busWrite
  split
  · rfl
  · rw [← or_assoc] at h
    obtain register | fbuf := h
    · obtain ⟨r, ht, h1, h2, h3⟩ := target_of_readOnly s.params register
      rw [ht]
      cases r with
      | ctrl | cmd | status => contradiction
      | _ => rfl
    · obtain ⟨i, c, ht⟩ | ht := target_of_fbuf s.params fbuf <;> rw [ht]

theorem busWrite_of_cmd_busy (v : Word) (hb : s.busy = true) (h : addr.toNat = 0x00C) :
    busWrite addr size v s = .next (slverr s) := by
  have ht : target s.params addr.toNat = .reg .cmd := target_of_regAt _ (by rw [h]; rfl)
  unfold busWrite
  split
  · rfl
  · rw [ht]
    exact exec_decodeCmd_of_busy hb v

end

/-- Settles O42: an access is refused for its size or alignment, for what stands at the address, or because a command
runs. -/
theorem refusedAccesses : Obligations.RefusedAccesses := by
  intro s addr size v rest inSpace
  have routed : inAddressSpace addr = true := decide_eq_true inSpace
  refine ⟨fun h refused => ?_, fun h refused => ?_⟩
  · rw [step_of_host h, hostTurn, if_pos routed]
    refine congrArg _ ?_
    obtain (hr | hz | ha | low | gap) | (row | fb) | ⟨window, busy⟩ := refused
    · exact busRead_of_not_word (.inl hr)
    · exact busRead_of_not_word (.inr (.inl hz))
    · exact busRead_of_not_word (.inr (.inr ha))
    · exact busRead_of_reserved (target_of_nothing _ (.inl low))
    · exact busRead_of_reserved (target_of_nothing _ (.inr (.inl gap)))
    · exact busRead_of_reserved (target_of_nothing _ (.inr (.inr (.inl row))))
    · exact busRead_of_reserved (target_of_nothing _ (.inr (.inr (.inr fb))))
    · obtain pixel | nothing := target_of_window s.params window
      · exact busRead_of_buffer (s := { s with agenda := rest }) (busy_eq_true.mpr busy) pixel
      · exact busRead_of_reserved nothing
  · rw [step_of_host h, hostTurn, if_pos routed]
    obtain (hr | hz | ha | low | gap) | (row | fb) | readOnly | ⟨window, busy⟩ | ⟨cmd, busy⟩ := refused
    · exact busWrite_of_not_word v (.inl hr)
    · exact busWrite_of_not_word v (.inr (.inl hz))
    · exact busWrite_of_not_word v (.inr (.inr ha))
    · exact busWrite_of_reserved v (target_of_nothing _ (.inl low))
    · exact busWrite_of_reserved v (target_of_nothing _ (.inr (.inl gap)))
    · exact busWrite_of_reserved v (target_of_nothing _ (.inr (.inr (.inl row))))
    · exact busWrite_of_reserved v (target_of_nothing _ (.inr (.inr (.inr fb))))
    · exact busWrite_of_readOnly v readOnly
    · obtain pixel | nothing := target_of_window s.params window
      · exact busWrite_of_buffer (s := { s with agenda := rest }) v (busy_eq_true.mpr busy) pixel
      · exact busWrite_of_reserved v nothing
    · exact busWrite_of_cmd_busy (s := { s with agenda := rest }) v (busy_eq_true.mpr busy) cmd

end Sys2Proof.Proofs
end

section
/-! What the host reads from the registers and the buffers, what a buffer write stores, and the stream events (rules R14
to R24, R28, R29, R36 to R42). -/

namespace Sys2Proof.Proofs

open Sys2Proof Sys2Proof.Machine

/-! ### The registers' fields -/

theorem paramWord_fields (p : Params) :
    (paramWord p).extractLsb' 0 16 = p.rowMax ∧ (paramWord p).getLsbD 16 = p.lenChk ∧
      (paramWord p).getLsbD 17 = (p.convRound == .f32Step) ∧ (paramWord p).extractLsb' 18 14 = 0 := by
  refine ⟨?_, ?_, ?_, ?_⟩
  case refine_1 | refine_4 =>
    apply BitVec.eq_of_getLsbD_eq
    intro i hi
    simp only [paramWord, BitVec.getLsbD_extractLsb', BitVec.getLsbD_append]
    interval_cases i <;> simp
  all_goals simp only [paramWord, BitVec.getLsbD_append]; simp

theorem ctrlWord_fields (ie : Bool) : (ctrlWord ie).getLsbD 0 = ie ∧ (ctrlWord ie).extractLsb' 1 31 = 0 := by
  cases ie <;> exact ⟨rfl, rfl⟩

theorem idleStatusWord_fields (s : State) :
    (idleStatusWord s).getLsbD 0 = false ∧ (idleStatusWord s).getLsbD 1 = s.done ∧
      (idleStatusWord s).getLsbD 2 = s.err ∧ (idleStatusWord s).getLsbD 3 = s.prevValid ∧
      (idleStatusWord s).extractLsb' 4 4 = s.errcode ∧ (idleStatusWord s).extractLsb' 8 2 = s.path ∧
      (idleStatusWord s).extractLsb' 10 2 = s.plane ∧ (idleStatusWord s).extractLsb' 12 20 = 0 := by
  refine ⟨?_, ?_, ?_, ?_, ?_, ?_, ?_, ?_⟩
  case refine_5 | refine_6 | refine_7 | refine_8 =>
    apply BitVec.eq_of_getLsbD_eq
    intro i hi
    simp only [idleStatusWord, BitVec.getLsbD_extractLsb', BitVec.getLsbD_append]
    interval_cases i <;> simp
  all_goals simp only [idleStatusWord, BitVec.getLsbD_append]; simp

theorem busyStatusWord_fields (free : Word) :
    (busyStatusWord free).getLsbD 0 = true ∧ (busyStatusWord free).getLsbD 1 = false ∧
      (busyStatusWord free).getLsbD 2 = false ∧ (busyStatusWord free).extractLsb' 4 4 = 0 ∧
      (busyStatusWord free).extractLsb' 12 20 = 0 := by
  refine ⟨?_, ?_, ?_, ?_, ?_⟩
  case refine_4 | refine_5 =>
    apply BitVec.eq_of_getLsbD_eq
    intro i hi
    simp only [busyStatusWord, BitVec.getLsbD_extractLsb', BitVec.getLsbD_append]
    interval_cases i <;> simp
  all_goals simp only [busyStatusWord, BitVec.getLsbD_append]; simp

/-! ### Reading the registers (rule R14) -/

section
variable {s : State}

theorem readOrDraw_of_idle (h : s.fsm = .idle) (w : Word) (g : Word → Word) :
    readOrDraw w g s = respond .okay w s := by
  rw [readOrDraw, busy_eq_false.mpr h]
  rfl

theorem readOrDraw_of_busy (h : s.fsm ≠ .idle) (w : Word) (g : Word → Word) :
    readOrDraw w g s = respond .okay (g (Config.busyRead s.fresh)) { s with fresh := s.fresh + 1 } := by
  rw [readOrDraw, busy_eq_true.mpr h]
  rfl

end

/-- Settles O44: each address holds its register, whose reading rule answers with the register's word. -/
theorem idleRegistersReadTheirValues : Obligations.IdleRegistersReadTheirValues := by
  intro s addr rest hr h
  refine ⟨?_, ?_, ?_, fun idle => ⟨?_, ?_, ?_, ?_, ?_⟩⟩
  · rintro rfl
    exact ⟨_, step_of_readReg (r := .param) hr rfl rfl h, paramWord_fields _⟩
  · rintro rfl
    exact ⟨_, step_of_readReg (r := .ctrl) hr rfl rfl h, ctrlWord_fields _⟩
  · rintro rfl
    exact step_of_readReg (r := .cmd) hr rfl rfl h
  all_goals have draw := readOrDraw_of_idle (s := { s with agenda := rest }) idle
  · rintro rfl
    exact ⟨_, (step_of_readReg (r := .status) hr rfl rfl h).trans (congrArg _ (draw _ _)), idleStatusWord_fields _⟩
  · rintro rfl
    exact (step_of_readReg (r := .incount) hr rfl rfl h).trans (congrArg _ (draw s.incount fun w => w))
  · rintro rfl
    exact (step_of_readReg (r := .outcount) hr rfl rfl h).trans (congrArg _ (draw s.outcount fun w => w))
  · rintro rfl
    exact (step_of_readReg (r := .pos) hr rfl rfl h).trans
      (congrArg _ (draw (posWord s.pos) fun w => posWord (w.extractLsb' 0 16)))
  · rintro rfl
    exact (step_of_readReg (r := .prevpix) hr rfl rfl h).trans (congrArg _ (draw s.prevpix fun w => w))

/-- Settles O45: a busy block answers these five reads from a new draw, in which STATUS has its fixed bits. -/
theorem busyReadsShowOnlyBusy : Obligations.BusyReadsShowOnlyBusy := by
  intro s addr rest hr busy h register
  have draw := readOrDraw_of_busy (s := { s with agenda := rest }) busy
  obtain rfl | rfl | rfl | rfl | rfl := register
  · exact ⟨_, (step_of_readReg (r := .status) hr rfl rfl h).trans (congrArg _ (draw _ _)),
      fun _ => busyStatusWord_fields _⟩
  · exact ⟨_, (step_of_readReg (r := .incount) hr rfl rfl h).trans (congrArg _ (draw s.incount fun w => w)), nofun⟩
  · exact ⟨_, (step_of_readReg (r := .outcount) hr rfl rfl h).trans (congrArg _ (draw s.outcount fun w => w)), nofun⟩
  · exact ⟨_, (step_of_readReg (r := .pos) hr rfl rfl h).trans
      (congrArg _ (draw (posWord s.pos) fun w => posWord (w.extractLsb' 0 16))), nofun⟩
  · exact ⟨_, (step_of_readReg (r := .prevpix) hr rfl rfl h).trans (congrArg _ (draw s.prevpix fun w => w)), nofun⟩

/-! ### The buffers' windows (rules R39, R40) -/

theorem target_of_row {p : Params} {i : Nat} (h : i < p.rowMax.toNat) : target p (0x040000 + 4 * i) = .row i := by
  have := p.rowMax.isLt
  have index : (0x040000 + 4 * i - 0x40000) / 4 = i := by omega
  rw [target, if_neg (by omega), if_pos (by omega), index, if_pos h]

theorem target_of_fb {p : Params} {i c : Nat} (h : i < p.rowMax.toNat) (hc : c < 4) :
    target p (0x100000 + 16 * i + 4 * c) = .fb i c := by
  have := p.rowMax.isLt
  have index : (0x100000 + 16 * i + 4 * c - 0x100000) / 16 = i := by omega
  have word : (0x100000 + 16 * i + 4 * c) / 4 % 4 = c := by omega
  rw [target, if_neg (by omega), if_neg (by omega), if_neg (by omega), if_pos (by omega), index, if_pos h, word]

section
variable {s : State} {addr : Word} {i : Nat} (hs : ready s) (hi : i < s.params.rowMax.toNat)
include hs hi

theorem busRead_row (ha : addr.toNat = 0x040000 + 4 * i) :
    busRead addr 4 s = respond .okay (s.rowPixel i) s := by
  have aligned : wordAccess addr 4 = true := wordAccess_of_aligned (by omega)
  rw [busRead, hs.1, aligned, ha, target_of_row hi, busy_eq_false.mpr hs.2]
  rfl

theorem busWrite_row (v : Word) (ha : addr.toNat = 0x040000 + 4 * i) :
    busWrite addr 4 v s = .next (respond .okay 0 { s with mem := s.mem.setWord (rowAddr i 0) v }) := by
  have aligned : wordAccess addr 4 = true := wordAccess_of_aligned (by omega)
  rw [busWrite, hs.1, aligned, ha, target_of_row hi, busy_eq_false.mpr hs.2]
  rfl

theorem busRead_fb {c : Nat} (hc : c < 4) (ha : addr.toNat = 0x100000 + 16 * i + 4 * c) :
    busRead addr 4 s = respond .okay (s.fbWord i c) s := by
  have aligned : wordAccess addr 4 = true := wordAccess_of_aligned (by omega)
  rw [busRead, hs.1, aligned, ha, target_of_fb hi hc, busy_eq_false.mpr hs.2]
  rfl

end

/-- The state with a word stored in ROW[i]. -/
def withRow (i : Nat) (v : Word) (s : State) : State := { s with mem := s.mem.setWord (rowAddr i 0) v }

section
variable (s : State) (i : Nat) (v : Word)

theorem withRow_rowByte {p : Nat} (hp : p < 4) : (withRow i v s).rowByte i p = v.extractLsb' (8 * p) 8 :=
  readByte_of_get? ((Memory.get?_setWord s.mem (rowAddr i 0) v).1 p hp)

theorem withRow_rowPixel : (withRow i v s).rowPixel i = v :=
  rowPixel_of_get? (Memory.get?_setWord s.mem (rowAddr i 0) v).1

theorem withRow_sameOutside : sameOutside (inRow i 1) s (withRow i v s) := by
  intro a ha
  have outside : a < rowAddr i 0 ∨ rowAddr i 0 + 4 ≤ a := by
    simp only [inRow, rowAddr] at ha ⊢
    omega
  exact readByte_congr ((Memory.get?_setWord s.mem (rowAddr i 0) v).2 a outside) rfl

end

section
variable {s : State} {addr : Word} {i : Nat} {rest : List Turn} (hs : ready s) (hi : i < s.params.rowMax.toNat)
include hs hi

theorem step_readRow (ha : addr.toNat = 0x040000 + 4 * i) (h : s.agenda = .host (.read addr 4) :: rest) :
    step s = .next { s with agenda := rest, reply := okReply (s.rowPixel i) } := by
  have := s.params.rowMax.isLt
  have routed : inAddressSpace addr = true := decide_eq_true (by omega)
  rw [step_of_host h, hostTurn, if_pos routed]
  exact congrArg _ (busRead_row (s := { s with agenda := rest }) hs hi ha)

theorem step_writeRow {v : Word} (ha : addr.toNat = 0x040000 + 4 * i)
    (h : s.agenda = .host (.write addr 4 v) :: rest) :
    step s = .next (respond .okay 0 (withRow i v { s with agenda := rest })) := by
  have := s.params.rowMax.isLt
  have routed : inAddressSpace addr = true := decide_eq_true (by omega)
  rw [step_of_host h, hostTurn, if_pos routed]
  exact busWrite_row (s := { s with agenda := rest }) hs hi v ha

end

/-- Settles O50: the write stores the word's bytes in ROW[i] alone, and the read finds them there. -/
theorem rowbufWriteThenRead : Obligations.RowbufWriteThenRead := by
  intro s addr i v rest hs hi ha h
  have given := step_readRow (rest := rest)
    (s := respond .okay 0 (withRow i v { s with agenda := .host (.read addr 4) :: rest })) hs hi ha rfl
  rw [respond_rowPixel, withRow_rowPixel] at given
  exact ⟨_, step_writeRow hs hi ha h, withRow_rowPixel _ i v, fun p hp => withRow_rowByte _ i v hp,
    withRow_sameOutside _ i v, rfl, given⟩

/-- Settles O51: the address is that of word `c` of pixel `i`, which an idle block gives. -/
theorem fbufReads : Obligations.FbufReads := by
  intro s addr i c rest hs hi hc ha h
  have := s.params.rowMax.isLt
  have routed : inAddressSpace addr = true := decide_eq_true (by omega)
  rw [step_of_host h, hostTurn, if_pos routed]
  exact congrArg _ (busRead_fb (s := { s with agenda := rest }) hs hi hc ha)

/-! ### The stream events (rule R42) -/

theorem inAddressSpace_of_ge {addr : Word} (h : 0x200000 ≤ addr.toNat) : inAddressSpace addr = false :=
  decide_eq_false (by omega)

/-- Settles O52: one case of the host's turn for each event. -/
theorem inputStreamEvents : Obligations.InputStreamEvents := by
  intro s rest bytes addr size v
  refine ⟨fun h => ?_, fun h => step_of_host h, fun h => ?_, fun h above => ?_⟩
  · rw [step_of_host h]
    exact ⟨fun open' => by simp [hostTurn, open'], fun ended => by simp [hostTurn, ended]⟩
  · rw [step_of_host h]
    exact ⟨fun idle => by simp [hostTurn, State.busy, idle], fun busy => by simp [hostTurn, State.busy, busy]⟩
  · obtain h | h := h
    all_goals rw [step_of_host h, hostTurn, inAddressSpace_of_ge above]; rfl

end Sys2Proof.Proofs
end

section
/-! The interrupt line, and what the resets leave (rules R31, R32, R119, R128 to R130). -/

namespace Sys2Proof.Proofs

open Sys2Proof Sys2Proof.Machine

section
variable {s : State} {v : Word}

theorem writeCtrl_of_keep (h : v.getLsbD 1 = false) : writeCtrl v s = { s with ie := v.getLsbD 0 } := by
  rw [writeCtrl, h]
  rfl

theorem writeCtrl_of_reset (h : v.getLsbD 1 = true) : writeCtrl v s = softReset { s with ie := v.getLsbD 0 } := by
  rw [writeCtrl, h]
  rfl

end

/-- Settles O47: the line is IE and (DONE or ERR), and each event sets one of these as its rule says. -/
theorem interruptFollowsDoneAndErr : Obligations.InterruptFollowsDoneAndErr := by
  intro s
  refine ⟨?_, fun code => ?_, fun v rest hr h keep => ?_, fun rest hr h => ?_⟩
  · simp [State.irq]
  · simp [State.irq]
  · refine ⟨_, step_of_writeReg (r := .ctrl) hr rfl rfl h, ?_⟩
    rw [writeCtrl_of_keep keep]
    exact ⟨rfl, rfl⟩
  · exact ⟨_, step_of_writeReg (r := .status) hr rfl rfl h, by simp [writeStatus, State.irq]⟩

/-- Settles O48: a write to CTRL with SRST is the soft reset, with the buffers lost where a command was running. -/
theorem softResetClearsRegisters : Obligations.SoftResetClearsRegisters := by
  intro s v rest hr h srst
  have run : step s = .next (respond .okay 0 (softReset { s with agenda := rest, ie := v.getLsbD 0 })) := by
    rw [step_of_writeReg (r := .ctrl) hr rfl rfl h, writeReg, writeCtrl_of_reset srst]
  refine ⟨_, run, ?_⟩
  obtain ⟨busy, reset⟩ | ⟨idle, reset⟩ := softReset_cases { s with agenda := rest, ie := v.getLsbD 0 }
  · rw [reset]
    refine ⟨fun idle => absurd idle (busy_eq_true.mp busy), rfl, ?_⟩
    simp [resetRegisters, loseBuffers, toIdle, respond, okReply, hr]
  · rw [reset]
    refine ⟨fun _ => ⟨rfl, rfl⟩, rfl, ?_⟩
    simp [resetRegisters, toIdle, respond, okReply, hr]

/-- Settles O49: both edges of the reset input are the hard reset, and the engine stands still while it is asserted. -/
theorem hardResetClearsRegisters : Obligations.HardResetClearsRegisters := by
  intro s rest held h
  refine ⟨{ hardReset { s with agenda := rest } with inReset := held }, ?_, rfl, rfl, ?_⟩
  · rw [step_of_host h]
    cases held <;> rfl
  · rintro rfl
    rfl

/-- Settles O53, by evaluating the reset state. -/
theorem resetValues : Obligations.ResetValues := by
  refine ⟨?_, ?_, ?_, ?_, ?_, ?_, ?_, ?_, ?_, ?_, ?_, ?_, ?_⟩ <;> rfl

/-- Settles O54: the reset state has no written byte, no flag set and an IDLE engine. -/
theorem resetMeetsInvariant : Obligations.ResetMeetsInvariant where
  legal := rfl
  canonical := rfl
  mapped := nofun
  exclusive := nofun
  errCode := by decide
  errRange := by decide
  running := nofun
  donePos := nofun
  reset := nofun
  offer := by decide
  shift := .inl rfl
  fsm := rfl

end Sys2Proof.Proofs
end

section
/-! What stands before the engine: the whole token at the head of the stream, taken apart, or why there is none (rules
R42, R61, R64, R71). -/

namespace Sys2Proof.Proofs

open Sys2Proof Sys2Proof.Machine

/-! ### Control bytes (rule R64) -/

section
variable {c : Byte}

theorem runCount_toNat (h : isRunControl c = true) : (runCount c).toNat = c.toNat - 128 := by
  have above : 128 < c.toNat := of_decide_eq_true h
  have := c.isLt
  rw [runCount, BitVec.extractLsb'_toNat, Nat.shiftRight_zero]
  omega

theorem runControl_runCount (h : isRunControl c = true) : runControl (runCount c) = c := by
  have above : 128 < c.toNat := of_decide_eq_true h
  apply BitVec.eq_of_toNat_eq
  rw [runControl_toNat, runCount_toNat h]
  omega

theorem runCount_ne_zero (h : isRunControl c = true) : runCount c ≠ 0 := by
  have above : 128 < c.toNat := of_decide_eq_true h
  have count := runCount_toNat h
  intro zero
  have : (runCount c).toNat = 0 := congrArg BitVec.toNat zero
  omega

theorem literal_count_le (h : isRunControl c = false) : c.toNat ≤ 128 := Nat.not_lt.mp (of_decide_eq_false h)

end

theorem isRunControl_runControl {n : BitVec 7} (h : n ≠ 0) : isRunControl (runControl n) = true := by
  rw [isRunControl, runControl_toNat, decide_eq_true_eq]
  bv_omega

theorem literalControl_toNat {n : Nat} (h : n ≤ 128) : (BitVec.ofNat 8 n).toNat = n := by
  rw [BitVec.toNat_ofNat]
  omega

theorem isRunControl_literal {n : Nat} (h : n ≤ 128) : isRunControl (BitVec.ofNat 8 n) = false := by
  rw [isRunControl, literalControl_toNat h]
  exact decide_eq_false (by omega)

/-! ### The token at the head of the stream -/

/-- Four bytes are there, or no quad is. -/
theorem decodedInstr_quad_cases (bytes : List Byte) :
    (bytes.length < 4 ∧ decodedInstr .quad bytes = none) ∨
      ∃ b0 b1 b2 b3 rest, bytes = b0 :: b1 :: b2 :: b3 :: rest ∧
        decodedInstr .quad bytes = some (decodeQuad b0 b1 b2 b3) := by
  match bytes with
  | [] | [_] | [_, _] | [_, _, _] => exact .inl ⟨by simp, rfl⟩
  | b0 :: b1 :: b2 :: b3 :: rest => exact .inr ⟨b0, b1, b2, b3, rest, rfl, rfl⟩

theorem decodedInstr_marker_cases (bytes : List Byte) :
    (bytes.length < 4 ∧ decodedInstr .marker bytes = none) ∨
      ∃ b0 b1 b2 b3 rest, bytes = b0 :: b1 :: b2 :: b3 :: rest ∧
        decodedInstr .marker bytes = some (decodeMarker b0 b1 b2 b3) := by
  match bytes with
  | [] | [_] | [_, _] | [_, _, _] => exact .inl ⟨by simp, rfl⟩
  | b0 :: b1 :: b2 :: b3 :: rest => exact .inr ⟨b0, b1, b2, b3, rest, rfl, rfl⟩

/-- A control byte whose token is not all there: a run without its value, or a literal with bytes missing. -/
def PartToken (c : Byte) (rest : List Byte) : Prop :=
  (isRunControl c = true ∧ rest = []) ∨ (isRunControl c = false ∧ rest.length < c.toNat)

/-- A plane's bytes begin with a whole run, a whole literal or a part of a token, or there are none. -/
theorem decodedInstr_plane_cases (bytes : List Byte) :
    (bytes = [] ∧ decodedInstr .plane bytes = none) ∨
      (∃ n v rest, n ≠ 0 ∧ bytes = runControl n :: v :: rest ∧ decodedInstr .plane bytes = some (.adpRun n v)) ∨
      (∃ data rest, data.length ≤ 128 ∧ bytes = BitVec.ofNat 8 data.length :: (data ++ rest) ∧
        decodedInstr .plane bytes = some (.adpLit data)) ∨
      (∃ c rest, bytes = c :: rest ∧ PartToken c rest ∧ decodedInstr .plane bytes = none) := by
  match bytes with
  | [] => exact .inl ⟨rfl, rfl⟩
  | c :: rest =>
    cases run : isRunControl c with
    | true =>
      match rest with
      | [] => exact .inr (.inr (.inr ⟨c, [], rfl, .inl ⟨run, rfl⟩, by simp [decodedInstr, decode, decodePlane, run]⟩))
      | v :: rest =>
        refine .inr (.inl ⟨runCount c, v, rest, runCount_ne_zero run, ?_, ?_⟩)
        · rw [runControl_runCount run]
        · simp [decodedInstr, decode, decodePlane, run]
    | false =>
      by_cases whole : c.toNat ≤ rest.length
      · refine .inr (.inr (.inl ⟨rest.take c.toNat, rest.drop c.toNat, ?_, ?_, ?_⟩))
        · exact (List.length_take_le _ _).trans (literal_count_le run)
        · rw [List.length_take, Nat.min_eq_left whole, List.take_append_drop, BitVec.ofNat_toNat, BitVec.setWidth_eq]
        · simp [decodedInstr, decode, decodePlane, run, whole]
      · exact .inr (.inr (.inr ⟨c, rest, rfl, .inr ⟨run, Nat.not_le.mp whole⟩,
          by simp [decodedInstr, decode, decodePlane, run, whole]⟩))

/-- The token the engine executes next, and the bytes it stands on. -/
inductive Token (s : State) : Instr → Prop
  /-- A quad of the legacy loop. -/
  | quad {b0 b1 b2 b3 : Byte} {rest : List Byte} (fsm : s.fsm = .dQuad)
      (bytes : s.hold ++ s.q = b0 :: b1 :: b2 :: b3 :: rest) : Token s (decodeQuad b0 b1 b2 b3)
  /-- The four bytes at the marker position. -/
  | marker {b0 b1 b2 b3 : Byte} {rest : List Byte} (fsm : s.fsm = .dMark)
      (bytes : s.hold ++ s.q = b0 :: b1 :: b2 :: b3 :: rest) : Token s (decodeMarker b0 b1 b2 b3)
  /-- A run of a plane. -/
  | run {n : BitVec 7} {v : Byte} {rest : List Byte} (fsm : s.fsm = .dCtl) (positive : n ≠ 0)
      (bytes : s.q = runControl n :: v :: rest) : Token s (.adpRun n v)
  /-- A literal of a plane. -/
  | literal {data rest : List Byte} (fsm : s.fsm = .dCtl) (short : data.length ≤ 128)
      (bytes : s.q = BitVec.ofNat 8 data.length :: (data ++ rest)) : Token s (.adpLit data)
  /-- The pixel to emit. -/
  | rawPixel (fsm : s.fsm = .eRaw) : Token s (.rawPixel (s.rowByte s.cur.toNat 0) (s.rowByte s.cur.toNat 1)
      (s.rowByte s.cur.toNat 2) (s.rowByte s.cur.toNat 3))
  /-- The marker to emit. -/
  | encMarker (fsm : s.fsm = .eMark) :
      Token s (.encMarker (s.lenField.extractLsb' 8 7) (s.lenField.extractLsb' 0 8))

theorem token_of_nextInstr {s : State} {i : Instr} (h : nextInstr s = some i) : Token s i := by
  unfold nextInstr at h
  split at h
  case h_1 hf =>
    obtain ⟨-, none⟩ | ⟨b0, b1, b2, b3, rest, bytes, token⟩ := decodedInstr_quad_cases (s.hold ++ s.q)
    · rw [none] at h; cases h
    · rw [token] at h; cases h; exact .quad hf bytes
  case h_2 hf =>
    obtain ⟨-, none⟩ | ⟨b0, b1, b2, b3, rest, bytes, token⟩ := decodedInstr_marker_cases (s.hold ++ s.q)
    · rw [none] at h; cases h
    · rw [token] at h; cases h; exact .marker hf bytes
  case h_3 hf =>
    obtain ⟨-, none⟩ | ⟨n, v, rest, hn, bytes, token⟩ | ⟨data, rest, hd, bytes, token⟩ | ⟨c, rest, -, -, none⟩ :=
      decodedInstr_plane_cases s.q
    · rw [none] at h; cases h
    · rw [token] at h; cases h; exact .run hf hn bytes
    · rw [token] at h; cases h; exact .literal hf hd bytes
    · rw [none] at h; cases h
  case h_4 hf => cases h; exact .rawPixel hf
  case h_5 hf => cases h; exact .encMarker hf
  all_goals cases h

/-! ### No whole token -/

section
variable {s : State} (h : nextInstr s = none)
include h

theorem hold_q_short_of_dQuad (hf : s.fsm = .dQuad) : (s.hold ++ s.q).length < 4 := by
  obtain ⟨short, -⟩ | ⟨b0, b1, b2, b3, rest, -, token⟩ := decodedInstr_quad_cases (s.hold ++ s.q)
  · exact short
  · simp only [nextInstr, hf, token] at h; cases h

theorem hold_q_short_of_dMark (hf : s.fsm = .dMark) : (s.hold ++ s.q).length < 4 := by
  obtain ⟨short, -⟩ | ⟨b0, b1, b2, b3, rest, -, token⟩ := decodedInstr_marker_cases (s.hold ++ s.q)
  · exact short
  · simp only [nextInstr, hf, token] at h; cases h

theorem partToken_of_dCtl (hf : s.fsm = .dCtl) {c : Byte} {rest : List Byte} (hq : s.q = c :: rest) :
    PartToken c rest := by
  obtain ⟨empty, -⟩ | ⟨n, v, rest', hn, -, token⟩ | ⟨data, rest', hd, -, token⟩ | ⟨d, rest', bytes, part, -⟩ :=
    decodedInstr_plane_cases s.q
  · rw [hq] at empty; cases empty
  · simp only [nextInstr, hf, token] at h; cases h
  · simp only [nextInstr, hf, token] at h; cases h
  · rw [hq] at bytes; cases bytes; exact part

theorem not_eRaw : s.fsm ≠ .eRaw := fun hf => by simp only [nextInstr, hf] at h; cases h

theorem not_eMark : s.fsm ≠ .eMark := fun hf => by simp only [nextInstr, hf] at h; cases h

end

/-! ### A control byte taken by itself (rules R75, R76) -/

/-- The number of bytes a control byte announces. -/
def controlCount (c : Byte) : Nat := if isRunControl c then (runCount c).toNat else c.toNat

/-- The control byte of a part token ends the row with ERR_OVERRUN, or its data bytes come next. -/
theorem controlTurn_cases {s : State} {c : Byte} {rest : List Byte} (hq : s.q = c :: rest) :
    (overruns (controlCount c) (takeBytes 1 s) = true ∧ controlTurn s = failAdaptive errOverrun (takeBytes 1 s)) ∨
      (overruns (controlCount c) (takeBytes 1 s) = false ∧ controlTurn s =
        { takeBytes 1 s with fsm := if isRunControl c then .dRun (runCount c) else .dLit c }) := by
  cases past : overruns (controlCount c) (takeBytes 1 s) with
  | true => exact .inl ⟨rfl, by simp only [controlTurn, hq]; exact if_pos past⟩
  | false => exact .inr ⟨rfl, by simp only [controlTurn, hq]; exact if_neg (Bool.eq_false_iff.mp past)⟩

theorem controlTurn_nil {s : State} (hq : s.q = []) : controlTurn s = atEmpty failAdaptive s := by
  simp only [controlTurn, hq]

end Sys2Proof.Proofs
end

section
/-! What every turn of the engine leaves unchanged, and what a step never takes back (rules R16, R24, R42, R43, R45, R99,
R111, R127). -/

namespace Sys2Proof.Proofs

open Sys2Proof Sys2Proof.Machine

/-! ### A turn of the encoder -/

/-- What no turn of the encoder touches: ROW, PREVPIX, the input, the running command and the block around the engine. -/
def encodeKept (s : State) :=
  (s.params, s.inReset, s.cmd, s.memTag, s.ended, s.agenda, s.q, s.incount, s.mem, s.prevpix, s.prevValid)

/-- A turn of the encoder leads from `s` to `t`: it changes none of these, and bytes only join the accepted ones. -/
def Emits (s t : State) : Prop := encodeKept t = encodeKept s ∧ s.sunk <+: t.sunk

section
variable {s t u : State}

theorem Emits.of_same (kept : encodeKept t = encodeKept s) (sunk : t.sunk = s.sunk) : Emits s t :=
  ⟨kept, sunk ▸ List.prefix_rfl⟩

theorem Emits.trans (h1 : Emits s t) (h2 : Emits t u) : Emits s u := ⟨h2.1.trans h1.1, h1.2.trans h2.2⟩

/-- The state in which the sink's answer leaves the block. -/
def emittedState : Emitted → State
  | .accepted s => s
  | .failed s => s
  | .waiting s => s

theorem outPut_emits (b : Byte) (s : State) : Emits s (emittedState (outPut b s)) := by
  obtain ⟨k, h⟩ | ⟨k, h⟩ | h := outPut_cases b s <;> rw [h]
  · exact ⟨rfl, List.prefix_append _ _⟩
  · exact .of_same rfl rfl
  · exact .of_same rfl rfl

theorem outPutAll_emits (bs : List Byte) (s : State) : Emits s (emittedState (outPutAll bs s)) := by
  induction bs generalizing s with
  | nil => exact .of_same rfl rfl
  | cons b bs ih =>
    cases bs with
    | nil => exact outPut_emits b s
    | cons c cs =>
      have first := outPut_emits b s
      simp only [outPutAll]
      cases h : outPut b s with
      | accepted t =>
        rw [h] at first
        exact first.trans (Emits.trans (t := { t with k := t.k + 1 }) (.of_same rfl rfl) (ih _))
      | failed t | waiting t => rw [h] at first; exact first

theorem afterOutput_emits {p : Bool} {go : State → State} {e : Emitted} (h : Emits s (emittedState e))
    (hgo : ∀ t, Emits t (go t)) : Emits s (afterOutput p go e) := by
  cases e with
  | accepted t => exact h.trans (hgo t)
  | failed t => exact h.trans (.of_same rfl rfl)
  | waiting t => exact h

end

section
variable (s : State)

theorem scanTurn_emits : Emits s (scanTurn s) := by
  unfold scanTurn
  split
  · exact .of_same rfl rfl
  · split <;> exact .of_same rfl rfl

theorem literalControlTurn_emits : Emits s (literalControlTurn s) :=
  afterOutput_emits (Emits.trans (t := { s with ln := _ }) (.of_same rfl rfl) (outPut_emits _ _))
    fun _ => .of_same rfl rfl

theorem literalDataTurn_emits : Emits s (literalDataTurn s) :=
  afterOutput_emits (outPut_emits _ s) fun _ => .of_same rfl rfl

theorem runControlTurn_emits : Emits s (runControlTurn s) :=
  afterOutput_emits (outPut_emits _ s) fun _ => .of_same rfl rfl

theorem runByteTurn_emits : Emits s (runByteTurn s) :=
  afterOutput_emits (outPut_emits _ s) fun _ => .of_same rfl rfl

theorem nextPlaneTurn_emits : Emits s (nextPlaneTurn s) := by
  unfold nextPlaneTurn
  split <;> exact .of_same rfl rfl

theorem encodeFinish_emits : Emits s (encodeFinish s) := .of_same rfl rfl

end

/-- The meaning of an emitted token: its bytes from byte K on are offered. -/
theorem exec_rawPixel_emits {s t : State} {r g b e : Byte} (h : exec (.rawPixel r g b e) s = .next t) : Emits s t := by
  cases h
  exact afterOutput_emits (outPutAll_emits _ s) fun _ => .of_same rfl rfl

theorem exec_encMarker_emits {s t : State} {h : BitVec 7} {l : Byte} (ht : exec (.encMarker h l) s = .next t) :
    Emits s t := by
  cases ht
  exact afterOutput_emits (outPutAll_emits _ s) fun _ => .of_same rfl rfl

/-! ### A turn of the engine -/

/-- What no turn of the engine touches: the block around it, the running command, the end of the stream. -/
def engineKept (s : State) := (s.params, s.inReset, s.cmd, s.memTag, s.ended, s.agenda)

/-- A turn of the engine leads from `s` to `t`: bytes leave the head of Q and INCOUNT counts them (rules R42, R43), and
bytes only join the accepted ones (rule R45). -/
structure TurnFrame (s t : State) : Prop where
  kept : engineKept t = engineKept s
  input : ∃ n, n ≤ s.q.length ∧ t.q = s.q.drop n ∧ t.incount = s.incount + BitVec.ofNat 32 n
  output : s.sunk <+: t.sunk

/-- Two states that differ neither in what the engine keeps nor in the streams. -/
def sameStreams (s : State) := (engineKept s, s.q, s.incount, s.sunk)

section
variable {s t u : State}

theorem TurnFrame.of_same (h : sameStreams t = sameStreams s) : TurnFrame s t := by
  simp only [sameStreams, Prod.mk.injEq] at h
  obtain ⟨kept, q, incount, sunk⟩ := h
  exact ⟨kept, ⟨0, Nat.zero_le _, q, by simp [incount]⟩, sunk ▸ List.prefix_rfl⟩

theorem TurnFrame.of_emits (h : Emits s t) : TurnFrame s t := by
  obtain ⟨kept, sunk⟩ := h
  simp only [encodeKept, Prod.mk.injEq] at kept
  obtain ⟨params, inReset, cmd, memTag, ended, agenda, q, incount, -⟩ := kept
  exact ⟨by simp only [engineKept, params, inReset, cmd, memTag, ended, agenda],
    ⟨0, Nat.zero_le _, q, by simp [incount]⟩, sunk⟩

theorem TurnFrame.trans (h1 : TurnFrame s t) (h2 : TurnFrame t u) : TurnFrame s u := by
  obtain ⟨n, hn, hq, hi⟩ := h1.input
  obtain ⟨m, hm, hq', hi'⟩ := h2.input
  rw [hq, List.length_drop] at hm
  refine ⟨h2.kept.trans h1.kept, ⟨n + m, by omega, ?_, ?_⟩, h1.output.trans h2.output⟩
  · rw [hq', hq, List.drop_drop]
  · rw [hi', hi, BitVec.ofNat_add, BitVec.add_assoc]

theorem TurnFrame.then_same (h1 : TurnFrame s t) (h2 : sameStreams u = sameStreams t) : TurnFrame s u :=
  h1.trans (.of_same h2)

theorem takeBytes_frame {n : Nat} (h : n ≤ s.q.length) : TurnFrame s (takeBytes n s) :=
  ⟨rfl, ⟨n, h, rfl, rfl⟩, List.prefix_rfl⟩

theorem takeToken_frame (h : 4 ≤ (s.hold ++ s.q).length) : TurnFrame s (takeToken 4 s) := by
  rw [List.length_append] at h
  exact (takeBytes_frame (n := 4 - s.hold.length) (by omega)).then_same rfl

theorem holdBytes_frame (s : State) : TurnFrame s (holdBytes s) :=
  (takeBytes_frame (Nat.le_refl _)).then_same rfl

theorem closeLegacy_streams (s : State) : sameStreams (closeLegacy s) = sameStreams s := by
  obtain ⟨-, h⟩ | ⟨-, h⟩ := closeLegacy_cases s <;> rw [h] <;> rfl

theorem closePlane_streams (s : State) : sameStreams (closePlane s) = sameStreams s := by
  obtain ⟨-, h⟩ | ⟨-, -, h⟩ | ⟨-, -, h⟩ := closePlane_cases s <;> rw [h] <;> rfl

theorem atEmpty_streams {fail : BitVec 4 → State → State} (s : State)
    (h : sameStreams (fail errEos s) = sameStreams s) : sameStreams (atEmpty fail s) = sameStreams s := by
  obtain ⟨-, e⟩ | ⟨-, e⟩ := atEmpty_cases fail s <;> rw [e]
  exact h

/-! ### The tokens the decoder consumes -/

theorem exec_lqPixel_frame {r g b e : Byte} (hq : 4 ≤ (s.hold ++ s.q).length)
    (h : exec (.lqPixel r g b e) s = .next t) : TurnFrame s t := by
  cases h
  refine ((takeToken_frame hq).then_same ?_).then_same (closeLegacy_streams _)
  split <;> rfl

theorem exec_lqRun_frame {c : Byte} (hq : 4 ≤ (s.hold ++ s.q).length) (h : exec (.lqRun c) s = .next t) :
    TurnFrame s t := by
  have taken := takeToken_frame hq
  simp only [exec, execLqRun] at h
  split at h
  · cases h; exact taken.then_same rfl
  · split at h
    · cases h; exact taken.then_same (closeLegacy_streams _)
    · split at h
      · cases h; exact taken.then_same rfl
      · cases h; exact taken.then_same (closeLegacy_streams _)

theorem exec_adpMarker_frame {hi : BitVec 7} {l : Byte} (hq : 4 ≤ (s.hold ++ s.q).length)
    (h : exec (.adpMarker hi l) s = .next t) : TurnFrame s t := by
  have taken := takeToken_frame hq
  simp only [exec, execAdpMarker] at h
  split at h <;> cases h <;> exact taken.then_same rfl

theorem exec_adpRun_frame {n : BitVec 7} {v : Byte} (hq : 2 ≤ s.q.length) (h : exec (.adpRun n v) s = .next t) :
    TurnFrame s t := by
  have control : TurnFrame s (takeBytes 1 s) := takeBytes_frame (by omega)
  have value : TurnFrame (takeBytes 1 s) (takeBytes 1 (takeBytes 1 s)) :=
    takeBytes_frame (by rw [takeBytes_q, List.length_drop]; omega)
  simp only [exec, execAdpRun] at h
  split at h <;> cases h
  · exact control.then_same rfl
  · exact (control.trans value).then_same (closePlane_streams _)

theorem exec_adpLit_frame {data : List Byte} (hq : 1 + data.length ≤ s.q.length)
    (h : exec (.adpLit data) s = .next t) : TurnFrame s t := by
  have control : TurnFrame s (takeBytes 1 s) := takeBytes_frame (by omega)
  have bytes : TurnFrame (takeBytes 1 s) (takeBytes data.length (takeBytes 1 s)) :=
    takeBytes_frame (by rw [takeBytes_q, List.length_drop]; omega)
  simp only [exec, execAdpLit] at h
  split at h <;> cases h
  · exact control.then_same rfl
  · exact (control.trans bytes).then_same (closePlane_streams _)

/-- A token that stands before the engine has its bytes in the stream. -/
theorem exec_token_frame {i : Instr} (token : Token s i) (h : exec i s = .next t) : TurnFrame s t := by
  cases token with
  | @quad b0 b1 b2 b3 rest _ bytes =>
    have four : 4 ≤ (s.hold ++ s.q).length := by simp [bytes]
    unfold decodeQuad at h
    split at h
    · exact exec_lqRun_frame four h
    · exact exec_lqPixel_frame four h
  | @marker b0 b1 b2 b3 rest _ bytes =>
    have four : 4 ≤ (s.hold ++ s.q).length := by simp [bytes]
    unfold decodeMarker at h
    split at h
    · exact exec_adpMarker_frame four h
    · exact exec_lqPixel_frame four h
  | run _ _ bytes => exact exec_adpRun_frame (by simp [bytes]) h
  | literal _ _ bytes => exact exec_adpLit_frame (by simp [bytes]; omega) h
  | rawPixel => exact .of_emits (exec_rawPixel_emits h)
  | encMarker => exact .of_emits (exec_encMarker_emits h)

/-! ### The engine's other moves -/

theorem peekTurn_streams (s : State) : sameStreams (peekTurn s) = sameStreams s := by
  unfold peekTurn
  split
  · exact atEmpty_streams s rfl
  · split <;> rfl

theorem partTokenTurn_frame {fail : BitVec 4 → State → State} (h : sameStreams (fail errEos s) = sameStreams s) :
    TurnFrame s (partTokenTurn fail s) := by
  unfold partTokenTurn
  split
  · exact .of_same (atEmpty_streams s h)
  · exact holdBytes_frame s

theorem controlTurn_frame (s : State) : TurnFrame s (controlTurn s) := by
  cases hq : s.q with
  | nil => rw [controlTurn_nil hq]; exact .of_same (atEmpty_streams s rfl)
  | cons c rest =>
    have control : TurnFrame s (takeBytes 1 s) := takeBytes_frame (by simp [hq])
    obtain ⟨-, e⟩ | ⟨-, e⟩ := controlTurn_cases hq <;> rw [e] <;> exact control.then_same rfl

theorem runValueTurn_frame (n : BitVec 7) (s : State) : TurnFrame s (runValueTurn n s) := by
  unfold runValueTurn
  split
  · exact .of_same (atEmpty_streams s rfl)
  next hq => exact (takeBytes_frame (n := 1) (by simp [hq])).then_same (closePlane_streams _)

theorem literalTurn_frame (left : Byte) (s : State) : TurnFrame s (literalTurn left s) := by
  unfold literalTurn
  split
  · exact .of_same (atEmpty_streams s rfl)
  · have bytes : TurnFrame s (takeBytes (s.q.take left.toNat).length s) :=
      takeBytes_frame (List.length_take_le' _ _)
    dsimp only
    split
    · exact bytes.then_same (closePlane_streams _)
    · exact bytes.then_same rfl

theorem partTurn_frame (s : State) : TurnFrame s (partTurn s) := by
  unfold partTurn
  split
  case h_1 | h_8 | h_9 => exact .of_same rfl
  case h_2 => exact .of_same (peekTurn_streams s)
  case h_3 | h_4 => exact partTokenTurn_frame rfl
  case h_5 => exact controlTurn_frame s
  case h_6 => exact runValueTurn_frame _ s
  case h_7 => exact literalTurn_frame _ s
  case h_10 => exact .of_emits (scanTurn_emits s)
  case h_11 => exact .of_emits (literalControlTurn_emits s)
  case h_12 => exact .of_emits (literalDataTurn_emits s)
  case h_13 => exact .of_emits (runControlTurn_emits s)
  case h_14 => exact .of_emits (runByteTurn_emits s)
  case h_15 => exact .of_emits (nextPlaneTurn_emits s)
  case h_16 => exact .of_emits (encodeFinish_emits s)
  case h_17 => exact .of_same rfl

theorem engineTurn_frame (h : engineTurn s = .next t) : TurnFrame s t := by
  obtain ⟨-, turn⟩ | ⟨-, i, token, turn⟩ | ⟨-, -, turn⟩ := engineTurn_cases s <;> rw [turn] at h
  · cases h; exact .of_same rfl
  · exact exec_token_frame (token_of_nextInstr token) h
  · cases h; exact partTurn_frame s

end

/-- Settles O23: the input part of every turn's frame. -/
theorem inputIsConsumedInOrder : Obligations.InputIsConsumedInOrder := by
  intro s t h
  have frame := engineTurn_frame h
  obtain ⟨n, hn, hq, hi⟩ := frame.input
  have kept := frame.kept
  simp only [engineKept, Prod.mk.injEq] at kept
  obtain ⟨-, -, -, -, ended, -⟩ := kept
  exact ⟨n, hn, hq, hi, ended⟩

/-! ### Encoding and converting -/

/-- A turn in one of the encoder's states is one of the encoder's moves. -/
theorem engineTurn_emits {s t : State} (hf : s.fsm.encoding = true) (h : engineTurn s = .next t) : Emits s t := by
  obtain ⟨-, turn⟩ | ⟨-, i, token, turn⟩ | ⟨-, -, turn⟩ := engineTurn_cases s <;> rw [turn] at h
  · cases h; exact .of_same rfl rfl
  · cases token_of_nextInstr token with
    | rawPixel => exact exec_rawPixel_emits h
    | encMarker => exact exec_encMarker_emits h
    | quad hd | marker hd | run hd | literal hd => rw [hd] at hf; cases hf
  · cases h
    unfold partTurn
    split
    case h_1 hd | h_2 hd | h_3 hd | h_4 hd | h_5 hd | h_6 hd | h_7 hd | h_17 hd => rw [hd] at hf; cases hf
    case h_8 | h_9 => exact .of_same rfl rfl
    case h_10 => exact scanTurn_emits s
    case h_11 => exact literalControlTurn_emits s
    case h_12 => exact literalDataTurn_emits s
    case h_13 => exact runControlTurn_emits s
    case h_14 => exact runByteTurn_emits s
    case h_15 => exact nextPlaneTurn_emits s
    case h_16 => exact encodeFinish_emits s

theorem engineTurn_convert {s t : State} (hf : s.fsm = .convert) (h : engineTurn s = .next t) :
    t = s ∨ t = convertTurn s := by
  obtain ⟨-, turn⟩ | ⟨-, i, token, turn⟩ | ⟨-, -, turn⟩ := engineTurn_cases s <;> rw [turn] at h
  · cases h; exact .inl rfl
  · simp [nextInstr, hf] at token
  · cases h; exact .inr (by simp only [partTurn, hf])

/-- The conversion writes above ROWBUF's window only. -/
theorem convertTurn_readByte_row (s : State) {a : Nat} (h : a < 0x080000) :
    (convertTurn s).readByte a = s.readByte a :=
  convertTurn_sameOutside s a (by simp only [inFb, fbAddr]; omega)

/-- Settles O57: the encoder's moves write no memory, and the conversion writes FBUF alone. -/
theorem encodeAndConvertKeepRow : Obligations.EncodeAndConvertKeepRow := by
  intro s t hf h
  obtain hf | hf := hf
  · obtain ⟨kept, -⟩ := engineTurn_emits hf h
    simp only [encodeKept, Prod.mk.injEq] at kept
    obtain ⟨-, -, -, tag, ended, -, q, incount, mem, prevpix, prevValid⟩ := kept
    exact ⟨fun a _ => readByte_congr (by rw [mem]) tag, prevpix, prevValid, q, incount, ended⟩
  · obtain rfl | rfl := engineTurn_convert hf h
    · exact ⟨fun _ _ => rfl, rfl, rfl, rfl, rfl, rfl⟩
    · exact ⟨fun _ ha => convertTurn_readByte_row s ha, rfl, rfl, rfl, rfl, rfl⟩

/-! ### A step -/

/-- A limited turn is the engine's turn on what it sees, with the rest of the stream put back. -/
theorem limitedTurn_next {n : Nat} {s t : State} (h : limitedTurn n s = .next t) :
    ∃ u, engineTurn (seenState n s) = .next u ∧ t = { u with q := u.q ++ s.q.drop n, ended := s.ended } := by
  obtain ⟨u, turn⟩ := engineTurn_next (seenState n s)
  rw [limitedTurn, turn] at h
  cases h
  exact ⟨u, turn, rfl⟩

/-- What no step changes or takes back: the parameters, and the bytes the sink has accepted. -/
def StepFrame (s t : State) : Prop := t.params = s.params ∧ s.sunk <+: t.sunk

section
variable {s t u : State}

theorem StepFrame.of_same (params : t.params = s.params) (sunk : t.sunk = s.sunk) : StepFrame s t :=
  ⟨params, sunk ▸ List.prefix_rfl⟩

theorem TurnFrame.params (h : TurnFrame s t) : t.params = s.params := congrArg Prod.fst h.kept

theorem TurnFrame.stepFrame (h : TurnFrame s t) : StepFrame s t := ⟨h.params, h.output⟩

theorem writeCmd_stepFrame {w : Word} {start : State → State} (h : ∀ u, StepFrame u (start u)) :
    StepFrame s (writeCmd w start s) := by
  obtain ⟨-, e⟩ | ⟨-, -, e⟩ := writeCmd_cases w start s <;> rw [e]
  · exact .of_same rfl rfl
  · exact h (acceptClear w s)

theorem startIfLen_stepFrame {len : BitVec 16} {start : State → State} (h : ∀ u, StepFrame u (start u)) (u : State) :
    StepFrame u (startIfLen len start u) := by
  obtain ⟨-, e⟩ | ⟨-, e⟩ := startIfLen_cases len start u <;> rw [e]
  · exact .of_same rfl rfl
  · exact h u

theorem startDecode_stepFrame (s : State) : StepFrame s (startDecode s) := by
  unfold startDecode
  split <;> exact .of_same rfl rfl

theorem startEncode_stepFrame (s : State) : StepFrame s (startEncode s) := by
  unfold startEncode
  split <;> exact .of_same rfl rfl

theorem exec_decodeCmd_stepFrame {w : Word} (h : exec (decodeCmd w) s = .next t) : StepFrame s t := by
  cases reserved : isReserved w with
  | true =>
    rw [decodeCmd_of_reserved reserved] at h
    cases h
    exact writeCmd_stepFrame fun _ => .of_same rfl rfl
  | false =>
    obtain ⟨first, len, -, named⟩ | ⟨len, -, named⟩ | ⟨len, -, named⟩ := decodeCmd_of_not_reserved reserved
    all_goals rw [named] at h; cases h
    · refine writeCmd_stepFrame (startIfLen_stepFrame fun u => ?_)
      cases first
      · exact startDecode_stepFrame u
      · exact startDecode_stepFrame { u with prevValid := false }
    · exact writeCmd_stepFrame (startIfLen_stepFrame startEncode_stepFrame)
    · exact writeCmd_stepFrame (startIfLen_stepFrame fun _ => .of_same rfl rfl)

theorem softReset_stepFrame (s : State) : StepFrame s (softReset s) := by
  obtain ⟨-, e⟩ | ⟨-, e⟩ := softReset_cases s <;> rw [e] <;> exact .of_same rfl rfl

theorem writeCtrl_stepFrame (v : Word) (s : State) : StepFrame s (writeCtrl v s) := by
  cases reset : v.getLsbD 1 with
  | true => rw [writeCtrl_of_reset reset]; exact softReset_stepFrame { s with ie := v.getLsbD 0 }
  | false => rw [writeCtrl_of_keep reset]; exact .of_same rfl rfl

theorem busWrite_stepFrame {addr : Word} {size : Nat} {v : Word} (h : busWrite addr size v s = .next t) :
    StepFrame s t := by
  unfold busWrite at h
  split at h
  · cases h; exact .of_same rfl rfl
  · split at h
    · rename_i r _
      cases r with
      | cmd => exact exec_decodeCmd_stepFrame h
      | ctrl => cases h; exact writeCtrl_stepFrame v s
      | id | param | status | incount | outcount | pos | prevpix => cases h; exact .of_same rfl rfl
    · split at h <;> cases h <;> exact .of_same rfl rfl
    · cases h; exact .of_same rfl rfl
    · cases h; exact .of_same rfl rfl

theorem busRead_stepFrame (addr : Word) (size : Nat) (s : State) : StepFrame s (busRead addr size s) := by
  obtain ⟨r, d, f, e⟩ := busRead_cases addr size s
  rw [e]
  exact .of_same rfl rfl

theorem waitTurn_stepFrame (s : State) : StepFrame s (waitTurn s) := by
  unfold waitTurn
  dsimp only
  split <;> exact busRead_stepFrame 0x010 4 s

theorem hostTurn_stepFrame {op : HostOp} (h : hostTurn op s = .next t) : StepFrame s t := by
  unfold hostTurn at h
  split at h
  case h_1 => split at h <;> cases h; exact busRead_stepFrame _ _ s
  case h_2 =>
    split at h
    · exact busWrite_stepFrame h
    · cases h
  case h_3 | h_5 => split at h <;> cases h; exact .of_same rfl rfl
  case h_8 => cases h; exact waitTurn_stepFrame s
  all_goals cases h; exact .of_same rfl rfl

theorem step_stepFrame (h : step s = .next t) : StepFrame s t := by
  obtain ⟨-, turn⟩ | ⟨rest, -, turn⟩ | ⟨n, rest, -, turn⟩ | ⟨op, rest, -, turn⟩ := step_cases s <;> rw [turn] at h
  · exact (engineTurn_frame h).stepFrame
  · exact (engineTurn_frame h).stepFrame
  · obtain ⟨u, seen, rfl⟩ := limitedTurn_next h
    exact (engineTurn_frame seen).stepFrame
  · exact hostTurn_stepFrame (s := { s with agenda := rest }) h

end

/-- Settles O58: no turn and no event of the host shortens what the sink has accepted. -/
theorem acceptedOutputIsNeverLost : Obligations.AcceptedOutputIsNeverLost := fun _ _ h => (step_stepFrame h).2

/-- Settles O60: no turn and no event of the host writes the parameters. -/
theorem parametersAreConstant : Obligations.ParametersAreConstant := fun _ _ h => (step_stepFrame h).1

/-! ### An IDLE engine (rule R127) -/

theorem word_of_regAt_cmd {n : Nat} (h : regAt n = .reg .cmd) : n = 3 := by
  unfold regAt at h
  split at h
  case h_4 => rfl
  all_goals cases h

theorem offset_of_target_cmd {p : Params} {a : Nat} (h : target p a = .reg .cmd) : a / 4 = 3 := by
  unfold target at h
  split_ifs at h
  exact word_of_regAt_cmd h

section
variable {s t : State} (idle : s.fsm = .idle)
include idle

theorem engineTurn_of_idle : engineTurn s = .next s := by
  rw [engineTurn]
  simp [nextInstr, partTurn, idle]

/-- Of all writes only an aligned word to 0x00C reaches CMD. -/
theorem busWrite_idle {addr : Word} {size : Nat} {v : Word} (other : ¬ (addr = 0x00C ∧ size = 4))
    (h : busWrite addr size v s = .next t) : t.fsm = .idle := by
  unfold busWrite at h
  split at h
  · cases h; exact idle
  next access =>
    split at h
    next r hr =>
      cases r with
      | cmd =>
        rw [Bool.or_eq_true, Bool.not_eq_true', not_or, Bool.not_eq_false] at access
        obtain ⟨hz, aligned⟩ : size = 4 ∧ addr.toNat % 4 = 0 := of_decide_eq_true access.2
        have word := offset_of_target_cmd hr
        exact absurd ⟨BitVec.eq_of_toNat_eq (show addr.toNat = 12 by omega), hz⟩ other
      | ctrl =>
        cases h
        cases reset : v.getLsbD 1 with
        | true =>
          rw [writeCtrl_of_reset reset]
          obtain ⟨-, e⟩ | ⟨-, e⟩ := softReset_cases { s with ie := v.getLsbD 0 } <;> rw [e] <;> rfl
        | false => rw [writeCtrl_of_keep reset]; exact idle
      | id | param | status | incount | outcount | pos | prevpix => cases h; exact idle
    · split at h <;> cases h <;> exact idle
    · cases h; exact idle
    · cases h; exact idle

theorem hostTurn_idle {op : HostOp} (other : ∀ w, op ≠ .write 0x00C 4 w) (h : hostTurn op s = .next t) :
    t.fsm = .idle := by
  have read (addr : Word) (size : Nat) : (busRead addr size s).fsm = .idle := by
    obtain ⟨r, d, f, e⟩ := busRead_cases addr size s
    rw [e]
    exact idle
  cases op with
  | read addr size => simp only [hostTurn] at h; split at h <;> cases h; exact read addr size
  | write addr size v =>
    simp only [hostTurn] at h
    split at h
    · exact busWrite_idle idle (fun ⟨ha, hz⟩ => other v (by rw [ha, hz])) h
    · cases h
  | push bytes | reopen => simp only [hostTurn] at h; split at h <;> cases h; exact idle
  | wait =>
    cases h
    rw [waitTurn, busy_eq_false.mpr idle]
    exact read 0x010 4
  | endStream | sink mode | answer a => cases h; exact idle
  | assertReset | releaseReset => cases h; rfl

end

/-- Settles O59: an IDLE engine's turn changes nothing, and of the host's events only a write to CMD starts it. -/
theorem idleEngineStartsNothing : Obligations.IdleEngineStartsNothing := by
  intro s t idle other h
  obtain ⟨-, turn⟩ | ⟨rest, -, turn⟩ | ⟨n, rest, -, turn⟩ | ⟨op, rest, agenda, turn⟩ := step_cases s <;> rw [turn] at h
  · rw [engineTurn_of_idle idle] at h
    cases h
    exact idle
  · rw [engineTurn_of_idle (s := { s with agenda := rest }) idle] at h
    cases h
    exact idle
  · obtain ⟨u, seen, rfl⟩ := limitedTurn_next h
    rw [engineTurn_of_idle (s := seenState n { s with agenda := rest }) idle] at seen
    cases seen
    exact idle
  · exact hostTurn_idle (s := { s with agenda := rest }) idle (fun w hw => other w rest (hw ▸ agenda)) h

end Sys2Proof.Proofs
end

section
/-! Writes confined to a set of addresses: what they keep of the memory, and where each operation of the engine writes
(rules R51, R83, R111). -/

namespace Sys2Proof.Proofs

open Sys2Proof Sys2Proof.Machine

/-! ### Confined writes -/

/-- `m'` comes from `m` by writes at addresses of `P`: the canonical form stays, no other address becomes listed, and
outside `P` every byte is what it was. -/
structure WritesIn (P : Nat → Prop) (m m' : Memory) : Prop where
  wf : m.wf = true → m'.wf = true
  listed : ∀ e ∈ m', e ∈ m ∨ P e.1
  outside : ∀ a, ¬ P a → m'.get? a = m.get? a

section
variable {P : Nat → Prop} {m m' m'' : Memory}

theorem WritesIn.refl (P : Nat → Prop) (m : Memory) : WritesIn P m m := ⟨id, fun _ => .inl, fun _ _ => rfl⟩

theorem WritesIn.trans (h1 : WritesIn P m m') (h2 : WritesIn P m' m'') : WritesIn P m m'' where
  wf := h2.wf ∘ h1.wf
  listed := fun e he => (h2.listed e he).elim (h1.listed e) .inr
  outside := fun a ha => (h2.outside a ha).trans (h1.outside a ha)

theorem WritesIn.set {a : Nat} (m : Memory) (b : Byte) (h : P a) : WritesIn P m (m.set a b) where
  wf := Memory.wf_set a b
  listed := fun _ he => (Memory.mem_set he).elim (fun e => .inr (by rw [e]; exact h)) .inl
  outside := fun _ hx => Memory.get?_set_other m b fun e => hx (e ▸ h)

theorem WritesIn.setBytes {bs : List Byte} {a : Nat} (m : Memory) (h : ∀ k, k < bs.length → P (a + k)) :
    WritesIn P m (Memory.setBytes bs a m) := by
  induction bs generalizing a m with
  | nil => exact .refl P m
  | cons b bs ih =>
    refine (WritesIn.set m b (h 0 (by simp))).trans (ih _ fun k hk => ?_)
    rw [Nat.add_right_comm]
    exact h (k + 1) (by simpa using hk)

theorem WritesIn.setWord {a : Nat} (m : Memory) (w : Word) (h : ∀ p, p < 4 → P (a + p)) :
    WritesIn P m (m.setWord a w) := .setBytes m h

theorem WritesIn.setPixels {ws : List Word} {i : Nat} (m : Memory)
    (h : ∀ k p, i ≤ k → k < i + ws.length → p < 4 → P (rowAddr k p)) :
    WritesIn P m (Memory.setPixels ws i m) := by
  induction ws generalizing i m with
  | nil => exact .refl P m
  | cons w ws ih =>
    rw [List.length_cons] at h
    refine (WritesIn.setWord m w fun p hp => ?_).trans (ih _ fun k p h1 h2 hp => h k p (by omega) (by omega) hp)
    exact h i p (Nat.le_refl i) (by omega) hp

theorem WritesIn.setPlane {p : Nat} {bs : List Byte} {i : Nat} (m : Memory)
    (h : ∀ k, i ≤ k → k < i + bs.length → P (rowAddr k p)) : WritesIn P m (Memory.setPlane p bs i m) := by
  induction bs generalizing i m with
  | nil => exact .refl P m
  | cons b bs ih =>
    rw [List.length_cons] at h
    exact (WritesIn.set m b (h i (Nat.le_refl i) (by omega))).trans (ih _ fun k h1 h2 => h k (by omega) (by omega))

theorem WritesIn.spoilByte {filled : Nat → Nat → Bool} {tag i p : Nat} (m : Memory)
    (h : filled i p = false → P (rowAddr i p)) : WritesIn P m (Memory.spoilByte filled tag i p m) := by
  unfold Memory.spoilByte
  split
  · exact .refl P m
  next unfilled => exact .set m _ (h (Bool.eq_false_iff.mpr unfilled))

/-- A failed decode writes the unfilled bytes of the row only (rule R83). -/
theorem WritesIn.spoil {filled : Nat → Nat → Bool} {tag n : Nat} (m : Memory)
    (h : ∀ k p, k < n → p < 4 → filled k p = false → P (rowAddr k p)) :
    WritesIn P m (Memory.spoil filled tag n m) := by
  induction n with
  | zero => exact .refl P m
  | succ n ih =>
    have byte (p : Nat) (hp : p < 4) (m' : Memory) : WritesIn P m' (Memory.spoilByte filled tag n p m') :=
      .spoilByte m' (h n p (Nat.lt_succ_self n) hp)
    have before := ih fun k p hk => h k p (Nat.lt_succ_of_lt hk)
    exact (((before.trans (byte 0 (by decide) _)).trans (byte 1 (by decide) _)).trans (byte 2 (by decide) _)).trans
      (byte 3 (by decide) _)

/-- The conversion of `n` pixels writes FB[0 .. n-1] only (rule R111). -/
theorem WritesIn.convertPixels {s : State} {n : Nat} (m : Memory) (h : ∀ a, inFb n a → P a) :
    WritesIn P m (Machine.convertPixels s n m) := by
  induction n with
  | zero => exact .refl P m
  | succ n ih =>
    refine (ih fun a ha => h a ?_).trans (.setBytes _ fun k hk => h _ ?_)
    · simp only [inFb, fbAddr] at ha ⊢
      omega
    · rw [flatMap_wordBytes_length] at hk
      simp only [convertPixel, List.length_cons, List.length_nil] at hk
      simp only [inFb, fbAddr]
      omega

theorem WritesIn.readByte {s t : State} (h : WritesIn P s.mem t.mem) (tag : t.memTag = s.memTag) :
    sameOutside P s t := fun a ha => readByte_congr (h.outside a ha) tag

end

/-! ### The decoder's writes -/

theorem closeLegacy_mem (s : State) : (closeLegacy s).mem = s.mem := by
  obtain ⟨-, h⟩ | ⟨-, h⟩ := closeLegacy_cases s
  · rw [h]
  · rw [h]; rfl

theorem closePlane_mem (s : State) : (closePlane s).mem = s.mem := by
  obtain ⟨-, h⟩ | ⟨-, -, h⟩ | ⟨-, -, h⟩ := closePlane_cases s
  · rw [h]
  · rw [h]; rfl
  · rw [h]

/-- The row of LEN pixels, in ROWBUF or converted in FBUF (rule R51). -/
def rowOrFb (n a : Nat) : Prop := inRow 0 n a ∨ inFb n a

theorem rowOrFb_rowAddr {n k p : Nat} (hk : k < n) (hp : p < 4) : rowOrFb n (rowAddr k p) := by
  left
  simp only [inRow, rowAddr]
  omega

section
variable (s : State)

/-- The engine's writes from `s` to `t` stay in its row. -/
def RowWrites (s t : State) : Prop := WritesIn (rowOrFb s.len) s.mem t.mem

theorem failDecode_rowWrites (code : BitVec 4) (pos : BitVec 16) (plane : BitVec 2) (filled : Nat → Nat → Bool) :
    RowWrites s (failDecode code pos plane filled s) :=
  WritesIn.spoil s.mem fun _ _ hk hp _ => rowOrFb_rowAddr hk hp

variable {s}

theorem putPixels_rowWrites {ws : List Word} (h : s.i.toNat + ws.length ≤ s.len) : RowWrites s (putPixels ws s) :=
  WritesIn.setPixels s.mem fun _ _ _ h2 hp => rowOrFb_rowAddr (by omega) hp

theorem putPlane_rowWrites {bs : List Byte} (h : s.j.toNat + bs.length ≤ s.len) : RowWrites s (putPlane bs s) :=
  WritesIn.setPlane s.mem fun _ _ h2 => rowOrFb_rowAddr (by omega) (Nat.lt_of_lt_of_le s.pl.isLt (by decide))

theorem convertTurn_rowWrites : RowWrites s (convertTurn s) := WritesIn.convertPixels s.mem fun _ => .inr

end

end Sys2Proof.Proofs
end

section
/-! The invariant's parts that a turn of the engine can touch, and how each ending of a turn meets them (rules R14, R19,
R23, R27, R112, R117). -/

namespace Sys2Proof.Proofs

open Sys2Proof Sys2Proof.Machine

/-! ### Flags, POS, the offer, SHIFT and the sequencer -/

/-- The part of the invariant that is about the engine and what it reports. -/
structure Settled (s : State) : Prop where
  exclusive : ¬ (s.done = true ∧ s.err = true)
  errCode : s.errcode ≠ 0 ↔ s.err = true
  errRange : s.errcode.toNat ≤ 7
  running : s.busy = true → s.done = false ∧ s.err = false
  donePos : s.done = true → s.pos = s.lenField
  offer : s.offer ≠ none → s.fsm.emitting = true
  shift : s.shift = 0 ∨ s.shift = 8 ∨ s.shift = 16
  fsm : fsmOk s

/-- SHIFT is one of the values of rule R27. -/
def ShiftOk (s : State) : Prop := s.shift = 0 ∨ s.shift = 8 ∨ s.shift = 16

/-- No result is reported, as while a command runs (rule R14). -/
def Quiet (s : State) : Prop := s.done = false ∧ s.err = false ∧ s.errcode = 0 ∧ ShiftOk s

section
variable {s : State}

theorem Quiet.shiftOk (h : Quiet s) : ShiftOk s := h.2.2.2

theorem settled_of_inv (h : Inv s) : Settled s :=
  ⟨h.exclusive, h.errCode, h.errRange, h.running, h.donePos, h.offer, h.shift, h.fsm⟩

theorem quiet_of_inv (h : Inv s) (busy : s.fsm ≠ .idle) : Quiet s := by
  obtain ⟨done, err⟩ := h.running (busy_eq_true.mpr busy)
  have code : s.errcode = 0 := by
    by_contra nonzero
    rw [h.errCode.mp nonzero] at err
    cases err
  exact ⟨done, err, code, h.shift⟩

theorem offer_none_of_inv (h : Inv s) (silent : s.fsm.emitting = false) : s.offer = none := by
  by_contra offered
  rw [h.offer offered] at silent
  cases silent

theorem Settled.of_quiet (quiet : Quiet s) (offer : s.offer ≠ none → s.fsm.emitting = true) (ok : fsmOk s) :
    Settled s := by
  obtain ⟨done, err, code, shift⟩ := quiet
  exact ⟨by simp [done], by simp [code, err], by simp [code], fun _ => ⟨done, err⟩, by simp [done], offer, shift, ok⟩

theorem Settled.of_complete (shift : ShiftOk s) (pos : s.pos = s.lenField) : Settled (complete s) where
  exclusive := nofun
  errCode := by simp
  errRange := Nat.zero_le _
  running := nofun
  donePos := fun _ => pos
  offer := fun h => absurd rfl h
  shift := shift
  fsm := rfl

theorem Settled.of_raiseError {code : BitVec 4} (shift : ShiftOk s) (hcode : 1 ≤ code.toNat ∧ code.toNat ≤ 7) :
    Settled (raiseError code s) where
  exclusive := nofun
  errCode := ⟨fun _ => rfl, fun _ zero => by have := congrArg BitVec.toNat zero; simp at this; omega⟩
  errRange := hcode.2
  running := nofun
  donePos := nofun
  offer := fun h => absurd rfl h
  shift := shift
  fsm := rfl

theorem shiftOk_raiseShift (h : ShiftOk s) : ShiftOk (raiseShift s) := by
  obtain h | h | h := h <;> simp [ShiftOk, raiseShift, h]

/-- The LEN of an accepted command is in range (rules R56, R115). -/
theorem len_of_validCmd {op : BitVec 4} (h : validCmd op s) : 1 ≤ s.len ∧ s.len ≤ s.params.rowMax.toNat := by
  have inRange := of_decide_eq_false h.2.2
  have : s.lenField.toNat = s.len := rfl
  omega

end

/-! ### The ends of the decoder's loops -/

/-- A row is being decoded, and nothing is reported or on offer. -/
def Decoding (s : State) : Prop := Quiet s ∧ s.offer = none ∧ validCmd 1 s

/-- The legacy path from its first pixel on, or the fallback path behind it. -/
def QuadPath (s : State) : Prop := s.path = pathLegacy ∨ (s.path = pathFallback ∧ 0 < s.i.toNat)

section
variable {s : State} (h : Decoding s)
include h

theorem Decoding.quiet : Quiet s := h.1

theorem Decoding.offer : s.offer = none := h.2.1

theorem Decoding.valid : validCmd 1 s := h.2.2

theorem Decoding.settled (ok : fsmOk s) : Settled s := .of_quiet h.quiet (fun offered => absurd h.offer offered) ok

theorem decodeFinish_settled : Settled (decodeFinish s) := .of_complete h.quiet.shiftOk rfl

theorem closeLegacy_settled (hold : s.hold = []) (path : QuadPath s) : Settled (closeLegacy s) := by
  obtain ⟨inside, e⟩ | ⟨-, e⟩ := closeLegacy_cases s <;> rw [e]
  · have short : s.hold.length < 4 := by simp [hold]
    exact Decoding.settled (s := { s with fsm := .dQuad }) h ⟨h.valid, short, inside, path⟩
  · exact decodeFinish_settled h

theorem closePlane_settled (ok : planeOk s) : Settled (closePlane s) := by
  obtain ⟨inside, e⟩ | ⟨-, -, e⟩ | ⟨-, -, e⟩ := closePlane_cases s <;> rw [e]
  · exact Decoding.settled (s := { s with fsm := .dCtl }) h ⟨ok, inside⟩
  · exact decodeFinish_settled h
  · exact Decoding.settled (s := { s with pl := s.pl + 1, j := 0, fsm := .dCtl }) h ⟨ok, (len_of_validCmd h.valid).1⟩

theorem failDecode_settled {code : BitVec 4} (hcode : 1 ≤ code.toNat ∧ code.toNat ≤ 7) (pos : BitVec 16)
    (plane : BitVec 2) (filled : Nat → Nat → Bool) : Settled (failDecode code pos plane filled s) :=
  .of_raiseError h.quiet.shiftOk hcode

end

/-! ### A turn that keeps the invariant's parts -/

/-- A turn from `s` to `t` writes in its row only and ends settled. -/
def Sound (s t : State) : Prop := RowWrites s t ∧ Settled t

section
variable {s t u : State}

theorem Sound.of_mem (mem : t.mem = s.mem) (settled : Settled t) : Sound s t :=
  ⟨by rw [RowWrites, mem]; exact .refl _ _, settled⟩

theorem failDecode_sound (h : Decoding s) {code : BitVec 4} (hcode : 1 ≤ code.toNat ∧ code.toNat ≤ 7)
    (pos : BitVec 16) (plane : BitVec 2) (filled : Nat → Nat → Bool) : Sound s (failDecode code pos plane filled s) :=
  ⟨failDecode_rowWrites s _ _ _ _, failDecode_settled h hcode _ _ _⟩

/-- An empty stream fails the row, or leaves the engine where it is. -/
theorem atEmpty_sound {fail : BitVec 4 → State → State} (failed : Sound s (fail errEos s)) (waits : Settled s) :
    Sound s (atEmpty fail s) := by
  obtain ⟨-, e⟩ | ⟨-, e⟩ := atEmpty_cases fail s <;> rw [e]
  · exact failed
  · exact .of_mem rfl waits

/-! ### Decoding goes on under the decoder's own updates -/

section
variable (h : Decoding s)
include h

theorem Decoding.takeToken (n : Nat) : Decoding (takeToken n s) := h

theorem Decoding.takeBytes (n : Nat) : Decoding (takeBytes n s) := h

theorem Decoding.putPixels (ws : List Word) : Decoding (putPixels ws s) := h

theorem Decoding.putPlane (bs : List Byte) : Decoding (putPlane bs s) := h

theorem Decoding.setPath (path : BitVec 2) : Decoding { s with path := path } := h

theorem Decoding.raiseShift : Decoding (raiseShift s) := by
  obtain ⟨⟨done, err, code, shift⟩, rest⟩ := h
  exact ⟨⟨done, err, code, shiftOk_raiseShift shift⟩, rest⟩

theorem Decoding.clearShift : Decoding { s with shift := 0 } := by
  obtain ⟨⟨done, err, code, -⟩, rest⟩ := h
  exact ⟨⟨done, err, code, .inl rfl⟩, rest⟩

theorem Decoding.startLegacy (path : BitVec 2) : Decoding (startLegacy path s) := h.clearShift

theorem Decoding.startAdaptive : Decoding (startAdaptive s) := h

end

/-! ### The legacy tokens (rules R77 to R81) -/

/-- The state in which a run's pixels meet the loop's test. -/
def afterRun (w : Word) (c : Byte) (s : State) : State :=
  raiseShift (putPixels (List.replicate (runLength c s) w) (takeToken 4 s))

theorem afterRun_i {w : Word} {c : Byte} : (afterRun w c s).i = s.i + BitVec.ofNat 16 (runLength c s) := by
  simp [afterRun]

theorem exec_lqRun_of_overrun {c : Byte} (h : s.len < s.i.toNat + runLength c s) :
    exec (.lqRun c) s = .next (failLegacy errOverrun (takeToken 4 s)) := if_pos h

section
variable {c : Byte} (fits : s.i.toNat + runLength c s ≤ s.len)
include fits

theorem exec_lqRun_of_zero (h : runLength c s = 0) :
    exec (.lqRun c) s = .next (closeLegacy (raiseShift (takeToken 4 s))) :=
  (if_neg (Nat.not_lt.mpr fits)).trans (if_pos h)

variable (h : runLength c s ≠ 0)
include h

theorem exec_lqRun_of_source {w : Word} (source : runSource s = some w) :
    exec (.lqRun c) s = .next (closeLegacy (afterRun w c s)) := by
  have taken : runSource (takeToken 4 s) = some w := source
  refine ((if_neg (Nat.not_lt.mpr fits)).trans (if_neg h)).trans ?_
  rw [taken]
  rfl

theorem exec_lqRun_of_no_source (source : runSource s = none) :
    exec (.lqRun c) s = .next (failLegacy errNoPrev (takeToken 4 s)) := by
  have taken : runSource (takeToken 4 s) = none := source
  refine ((if_neg (Nat.not_lt.mpr fits)).trans (if_neg h)).trans ?_
  rw [taken]

end

/-- A token of the legacy loop that wrote its pixels leads to the loop's test. -/
theorem closeLegacy_sound (h : Decoding t) (hold : t.hold = []) (path : QuadPath t) (writes : RowWrites s t) :
    Sound s (closeLegacy t) :=
  ⟨by rw [RowWrites, closeLegacy_mem]; exact writes, closeLegacy_settled h hold path⟩

theorem exec_lqPixel_sound {r g b e : Byte} (h : Decoding s) (ok : quadOk s) (hf : s.fsm = .dQuad)
    (ht : exec (.lqPixel r g b e) s = .next t) : Sound s t := by
  obtain ⟨-, -, inside, path⟩ := ok
  rw [exec_lqPixel r g b e (by simp [hf])] at ht
  cases ht
  have moved := afterPixel_i_toNat r g b e inside
  have on_path : QuadPath (afterPixel r g b e s) := by
    simp only [QuadPath, moved]
    simp only [afterPixel, putPixels_path, takeToken_path]
    exact path.imp id fun fallback => ⟨fallback.1, Nat.succ_pos _⟩
  exact closeLegacy_sound ((h.takeToken 4).putPixels _).clearShift rfl on_path
    (putPixels_rowWrites (s := takeToken 4 s) inside)

theorem exec_lqRun_sound {c : Byte} (h : Decoding s) (ok : quadOk s) (ht : exec (.lqRun c) s = .next t) :
    Sound s t := by
  obtain ⟨-, -, inside, path⟩ := ok
  have taken := h.takeToken 4
  by_cases fits : s.i.toNat + runLength c s ≤ s.len
  · by_cases zero : runLength c s = 0
    · rw [exec_lqRun_of_zero fits zero] at ht
      cases ht
      exact closeLegacy_sound taken.raiseShift rfl path (.refl _ _)
    · cases source : runSource s with
      | none =>
        rw [exec_lqRun_of_no_source fits zero source] at ht
        cases ht
        exact failDecode_sound taken (by decide) _ _ _
      | some w =>
        rw [exec_lqRun_of_source fits zero source] at ht
        cases ht
        have on_path : QuadPath (afterRun w c s) := by
          simp only [QuadPath, afterRun_i, i_add_toNat fits]
          simp only [afterRun, raiseShift_path, putPixels_path, takeToken_path]
          exact path.imp id fun fallback => ⟨fallback.1, Nat.add_pos_left fallback.2 _⟩
        refine closeLegacy_sound (t := afterRun w c s) (taken.putPixels _).raiseShift rfl on_path ?_
        exact putPixels_rowWrites (s := takeToken 4 s) (by rw [List.length_replicate]; exact fits)
  · rw [exec_lqRun_of_overrun (Nat.not_le.mp fits)] at ht
    cases ht
    exact failDecode_sound taken (by decide) _ _ _

/-! ### At the marker position (rules R71 to R73) -/

/-- The state in which a fallback row's first pixel meets the loop's test. -/
def afterFallback (r g b e : Byte) (s : State) : State :=
  { putPixels [wordOfBytes r g b e] (startLegacy pathFallback (takeToken 4 s)) with shift := 0 }

theorem afterFallback_i (r g b e : Byte) : (afterFallback r g b e s).i = 1 := by
  simp [afterFallback]

theorem exec_lqPixel_marker {r g b e : Byte} (hf : s.fsm = .dMark) :
    exec (.lqPixel r g b e) s = .next (closeLegacy (afterFallback r g b e s)) := by
  simp only [exec, execLqPixel, hf, if_true, afterFallback]

theorem exec_lqPixel_marker_sound {r g b e : Byte} (h : Decoding s) (hf : s.fsm = .dMark)
    (ht : exec (.lqPixel r g b e) s = .next t) : Sound s t := by
  rw [exec_lqPixel_marker hf] at ht
  cases ht
  have first := (h.takeToken 4).startLegacy pathFallback
  have room : 0 + [wordOfBytes r g b e].length ≤ s.len := (len_of_validCmd h.valid).1
  have path : QuadPath (afterFallback r g b e s) := .inr ⟨by simp [afterFallback], by rw [afterFallback_i]; decide⟩
  exact closeLegacy_sound (first.putPixels _).clearShift rfl path
    (putPixels_rowWrites (s := startLegacy pathFallback (takeToken 4 s)) room)

theorem exec_adpMarker_sound {hi : BitVec 7} {l : Byte} (h : Decoding s) (long : adaptiveLen s.len = true)
    (ht : exec (.adpMarker hi l) s = .next t) : Sound s t := by
  have taken := (h.takeToken 4).setPath pathAdaptive
  simp only [exec, execAdpMarker] at ht
  split at ht <;> cases ht
  · exact failDecode_sound taken (by decide) _ _ _
  · refine .of_mem (by simp) (taken.startAdaptive.settled ?_)
    exact ⟨⟨h.2.2, long, rfl, rfl⟩, (len_of_validCmd h.valid).1⟩

/-! ### The plane tokens (rules R74 to R76) -/

/-- Bytes that fit the plane are written, and the loop goes on. -/
theorem closePlane_putPlane_sound {bs : List Byte} (h : Decoding s) (ok : planeOk s)
    (fits : s.j.toNat + bs.length ≤ s.len) : Sound s (closePlane (putPlane bs s)) := by
  refine ⟨?_, closePlane_settled (s := putPlane bs s) h ok⟩
  rw [RowWrites, closePlane_mem]
  exact putPlane_rowWrites fits

theorem fits_of_not_overruns {n : Nat} (h : ¬ overruns n s = true) : s.j.toNat + n ≤ s.len :=
  Nat.not_lt.mp (of_decide_eq_false (Bool.eq_false_iff.mpr h))

theorem exec_adpRun_sound {n : BitVec 7} {v : Byte} (h : Decoding s) (ok : planeOk s)
    (ht : exec (.adpRun n v) s = .next t) : Sound s t := by
  simp only [exec, execAdpRun] at ht
  split at ht <;> cases ht
  · exact failDecode_sound (s := takeBytes 1 s) h (by decide) _ _ _
  next past =>
    have fits : s.j.toNat + n.toNat ≤ s.len := fits_of_not_overruns past
    exact closePlane_putPlane_sound (s := takeBytes 1 (takeBytes 1 s)) h ok (by simpa using fits)

theorem exec_adpLit_sound {data : List Byte} (h : Decoding s) (ok : planeOk s)
    (ht : exec (.adpLit data) s = .next t) : Sound s t := by
  simp only [exec, execAdpLit] at ht
  split at ht <;> cases ht
  · exact failDecode_sound (s := takeBytes 1 s) h (by decide) _ _ _
  next past =>
    have fits : s.j.toNat + data.length ≤ s.len := fits_of_not_overruns past
    exact closePlane_putPlane_sound (s := takeBytes data.length (takeBytes 1 s)) h ok fits

/-! ### The decoder's moves between whole tokens -/

theorem peekTurn_sound (h : Decoding s) (long : adaptiveLen s.len = true) (waits : Settled s) :
    Sound s (peekTurn s) := by
  have room := (len_of_validCmd h.valid).1
  unfold peekTurn
  split
  · exact atEmpty_sound (failDecode_sound h (by decide) _ _ _) waits
  · split
    · exact .of_mem rfl (Decoding.settled (s := { s with fsm := .dMark, hold := [] }) h
        ⟨h.valid, long, Nat.zero_lt_succ 3⟩)
    · exact .of_mem rfl ((h.startLegacy pathLegacy).settled
        ⟨h.valid, Nat.zero_lt_succ 3, room, .inl rfl⟩)

theorem partTokenTurn_sound {fail : BitVec 4 → State → State} (failed : Sound s (fail errEos s)) (waits : Settled s)
    (taken : Settled (holdBytes s)) : Sound s (partTokenTurn fail s) := by
  unfold partTokenTurn
  split
  · exact atEmpty_sound failed waits
  · exact .of_mem rfl taken

theorem controlTurn_sound (h : Decoding s) (ok : planeOk s) (waits : Settled s)
    (part : ∀ c rest, s.q = c :: rest → PartToken c rest) : Sound s (controlTurn s) := by
  cases hq : s.q with
  | nil =>
    rw [controlTurn_nil hq]
    exact atEmpty_sound (failDecode_sound h (by decide) _ _ _) waits
  | cons c rest =>
    obtain ⟨-, e⟩ | ⟨fits, e⟩ := controlTurn_cases hq <;> rw [e]
    · exact failDecode_sound (s := takeBytes 1 s) h (by decide) _ _ _
    · have room : s.j.toNat + controlCount c ≤ s.len := fits_of_not_overruns (Bool.eq_false_iff.mp fits)
      refine .of_mem rfl (Decoding.settled (s := { takeBytes 1 s with fsm := _ }) h ?_)
      obtain ⟨run, -⟩ | ⟨literal, short⟩ := part c rest hq
      · rw [controlCount, if_pos run] at room
        simp only [run, if_true]
        exact ⟨ok, runCount_ne_zero run, room⟩
      · rw [controlCount, literal] at room
        simp only [literal]
        refine ⟨ok, fun zero => ?_, literal_count_le literal, room⟩
        rw [zero] at short
        exact Nat.not_lt_zero _ short

theorem runValueTurn_sound {n : BitVec 7} (h : Decoding s) (ok : planeOk s) (fits : s.j.toNat + n.toNat ≤ s.len)
    (waits : Settled s) : Sound s (runValueTurn n s) := by
  unfold runValueTurn
  split
  · exact atEmpty_sound (failDecode_sound h (by decide) _ _ _) waits
  · exact closePlane_putPlane_sound (s := takeBytes 1 s) h ok (by simpa using fits)

theorem literalTurn_sound {left : Byte} (h : Decoding s) (ok : planeOk s) (short : left.toNat ≤ 128)
    (fits : s.j.toNat + left.toNat ≤ s.len) (waits : Settled s) : Sound s (literalTurn left s) := by
  unfold literalTurn
  split
  · exact atEmpty_sound (failDecode_sound h (by decide) _ _ _) waits
  · have taken : (s.q.take left.toNat).length ≤ left.toNat := List.length_take_le _ _
    have room : s.j.toNat + (s.q.take left.toNat).length ≤ s.len := by omega
    dsimp only
    split
    · exact closePlane_putPlane_sound (s := takeBytes _ s) h ok room
    next part =>
      refine ⟨putPlane_rowWrites (s := takeBytes _ s) room,
        Decoding.settled (s := { putPlane _ (takeBytes _ s) with fsm := _ }) h ?_⟩
      generalize (s.q.take left.toNat) = data at taken room part
      have rest : (left - BitVec.ofNat 8 data.length).toNat = left.toNat - data.length := by bv_omega
      have moved : (s.j + BitVec.ofNat 16 data.length).toNat = s.j.toNat + data.length := by
        have := len_lt s
        bv_omega
      refine ⟨ok, fun zero => ?_, by omega, ?_⟩
      · have : (left - BitVec.ofNat 8 data.length).toNat = 0 := congrArg BitVec.toNat zero
        omega
      · change (s.j + BitVec.ofNat 16 data.length).toNat + (left - BitVec.ofNat 8 data.length).toNat ≤ s.len
        omega

end

end Sys2Proof.Proofs
end

section
/-! Every step keeps the invariant: the encoder's turns, the engine's turn as a whole, and the host's events. -/

namespace Sys2Proof.Proofs

open Sys2Proof Sys2Proof.Machine

/-! ### What the sink's answer changes -/

/-- `t` is `s` after some bytes were offered: the stream side and K have moved, and `o` is on offer. -/
def Offered (s : State) (o : Option Byte) (t : State) : Prop :=
  ∃ sunk outcount k sink, t = { s with sunk := sunk, outcount := outcount, k := k, sink := sink, offer := o }

section
variable {s t u : State} {o o' : Option Byte}

theorem Offered.trans (h1 : Offered s o t) (h2 : Offered t o' u) : Offered s o' u := by
  obtain ⟨_, _, _, _, rfl⟩ := h1
  obtain ⟨_, _, _, _, rfl⟩ := h2
  exact ⟨_, _, _, _, rfl⟩

/-- The three ways an offer can end. -/
inductive OfferEnds (s : State) : Emitted → Prop
  | accepted {t : State} (h : Offered s none t) : OfferEnds s (.accepted t)
  | failed {t : State} (h : Offered s none t) : OfferEnds s (.failed t)
  | waiting {t : State} (b : Byte) (h : Offered s (some b) t) : OfferEnds s (.waiting t)

theorem OfferEnds.of_offered {e : Emitted} (h1 : Offered s o t) (h2 : OfferEnds t e) : OfferEnds s e := by
  cases h2 with
  | accepted h => exact .accepted (h1.trans h)
  | failed h => exact .failed (h1.trans h)
  | waiting b h => exact .waiting b (h1.trans h)

theorem outPut_ends (b : Byte) (s : State) : OfferEnds s (outPut b s) := by
  obtain ⟨k, h⟩ | ⟨k, h⟩ | h := outPut_cases b s <;> rw [h]
  · exact .accepted ⟨_, _, _, _, rfl⟩
  · exact .failed ⟨s.sunk, s.outcount, s.k, _, rfl⟩
  · exact .waiting b ⟨s.sunk, s.outcount, s.k, s.sink, rfl⟩

theorem outPutAll_ends {bs : List Byte} (s : State) (h : bs ≠ []) : OfferEnds s (outPutAll bs s) := by
  induction bs generalizing s with
  | nil => exact absurd rfl h
  | cons b bs ih =>
    cases bs with
    | nil => exact outPut_ends b s
    | cons c cs =>
      have first := outPut_ends b s
      simp only [outPutAll]
      cases answer : outPut b s with
      | accepted t =>
        rw [answer] at first
        cases first with
        | accepted h1 =>
          have counted : Offered t none { t with k := t.k + 1 } := by
            obtain ⟨_, _, _, _, rfl⟩ := h1
            exact ⟨_, _, _, _, rfl⟩
          exact .of_offered (h1.trans counted) (ih _ (by simp))
      | failed t | waiting t => rw [answer] at first; exact first

theorem Offered.quiet (h : Offered s o t) (quiet : Quiet s) : Quiet t := by
  obtain ⟨_, _, _, _, rfl⟩ := h
  exact quiet

theorem Offered.fsm (h : Offered s o t) : t.fsm = s.fsm := by
  obtain ⟨_, _, _, _, rfl⟩ := h
  rfl

theorem Offered.offer (h : Offered s o t) : t.offer = o := by
  obtain ⟨_, _, _, _, rfl⟩ := h
  rfl

theorem Offered.ok (h : Offered s o t) (ok : fsmOk s) : fsmOk t := by
  obtain ⟨_, _, _, _, rfl⟩ := h
  exact ok

/-! ### The encoder's turns (rule R96) -/

theorem Settled.silent (quiet : Quiet s) (offer : s.offer = none) (ok : fsmOk s) : Settled s :=
  .of_quiet quiet (fun offered => absurd offer offered) ok

/-- A turn that emits: it goes on where the bytes were accepted, fails the row where one was refused, and stays with a
byte on offer where there is no answer. -/
theorem afterOutput_settled {p : Bool} {go : State → State} {e : Emitted} (quiet : Quiet s)
    (emitting : s.fsm.emitting = true) (ok : fsmOk s) (ends : OfferEnds s e)
    (hgo : ∀ t, Offered s none t → Settled (go t)) :
    Settled (afterOutput p go e) := by
  cases ends with
  | accepted h => exact hgo _ h
  | failed h => exact .of_raiseError (h.quiet quiet).shiftOk (by decide)
  | waiting b h => exact .of_quiet (h.quiet quiet) (fun _ => (congrArg Fsm.emitting h.fsm).trans emitting) (h.ok ok)

theorem drop_k_ne_nil {bs : List Byte} (k : BitVec 2) (h : bs.length = 4) : bs.drop k.toNat ≠ [] :=
  List.ne_nil_of_length_pos (by rw [List.length_drop]; have := k.isLt; omega)

/-! What follows the accepted bytes in each state. -/

section
variable (quiet : Quiet s) (offer : s.offer = none) (ok : fsmOk s)
include quiet offer ok

theorem nextRawPixel_settled (hf : s.fsm = .eRaw) : Settled (nextRawPixel s) := by
  simp only [fsmOk, hf] at ok
  obtain ⟨valid, short, path, inside⟩ := ok
  by_cases last : s.cur + 1 = s.lenField
  · simp only [nextRawPixel, if_pos last]
    exact .silent quiet offer ⟨valid, .inl path⟩
  · have next := cur_succ_toNat inside
    have more : (s.cur + 1).toNat ≠ s.len := fun e => last (BitVec.eq_of_toNat_eq e)
    simp only [nextRawPixel, if_neg last]
    exact .silent quiet offer ⟨valid, short, path, show (s.cur + 1).toNat < s.len by omega⟩

theorem startPlanes_settled (hf : s.fsm = .eMark) : Settled (startPlanes s) := by
  simp only [fsmOk, hf] at ok
  exact .silent (s := startPlanes s) quiet offer
    ⟨ok, (len_of_validCmd ok.1).1, Nat.le_refl _, Nat.zero_le _⟩

theorem literalControl_settled (hf : s.fsm = .eLitCtl)
    (hn : s.ln = BitVec.ofNat 8 (min 128 (s.beg.toNat - s.cur.toNat))) : Settled { s with fsm := .eLitDat } := by
  simp only [fsmOk, hf] at ok
  obtain ⟨encode, before, span⟩ := ok
  have count : s.ln.toNat = min 128 (s.beg.toNat - s.cur.toNat) := by
    rw [hn, BitVec.toNat_ofNat]
    omega
  refine .silent (s := { s with fsm := .eLitDat }) quiet offer ⟨encode, fun zero => ?_, ?_, ?_, span⟩
  · have : s.ln.toNat = 0 := congrArg BitVec.toNat zero
    omega
  · change s.ln.toNat ≤ 128
    omega
  · change s.cur.toNat + s.ln.toNat ≤ s.beg.toNat
    omega

theorem nextLiteral_settled (hf : s.fsm = .eLitDat) : Settled (nextLiteral s) := by
  simp only [fsmOk, hf] at ok
  obtain ⟨encode, some_left, short, within, span⟩ := ok
  have := span.1
  have := len_lt s
  have positive : 0 < s.ln.toNat := by bv_omega
  have less : (s.ln - 1).toNat = s.ln.toNat - 1 := by bv_omega
  have next : (s.cur + 1).toNat = s.cur.toNat + 1 := by bv_omega
  by_cases more : 0 < s.ln - 1
  · simp only [nextLiteral, if_pos more]
    refine .silent quiet offer ⟨encode, fun zero => ?_, ?_, ?_, span⟩
    · exact absurd more (by rw [show s.ln - 1 = 0 from zero]; decide)
    · change (s.ln - 1).toNat ≤ 128
      omega
    · change (s.cur + 1).toNat + (s.ln - 1).toNat ≤ s.beg.toNat
      omega
  · have last : s.ln.toNat = 1 := by bv_omega
    by_cases inside : s.cur + 1 < s.beg
    · simp only [nextLiteral, if_neg more, if_pos inside]
      exact .silent quiet offer ⟨encode, inside, span⟩
    · have reached : s.cur + 1 = s.beg := by bv_omega
      by_cases run : 4 ≤ s.rc.toNat
      · simp only [nextLiteral, if_neg more, if_neg inside, if_pos run]
        refine .silent quiet offer ⟨encode, reached, span, fun zero => ?_⟩
        rw [show s.rc = 0 from zero] at run
        exact absurd run (by decide)
      · simp only [nextLiteral, if_neg more, if_neg inside, if_neg run]
        exact .silent quiet offer encode

theorem runControl_settled (hf : s.fsm = .eRunCtl) : Settled { s with fsm := .eRunVal } := by
  simp only [fsmOk, hf] at ok
  exact .silent (s := { s with fsm := .eRunVal }) quiet offer ok

theorem nextAfterRun_settled (hf : s.fsm = .eRunVal) : Settled (nextAfterRun s) := by
  simp only [fsmOk, hf] at ok
  obtain ⟨encode, -, ⟨-, ⟨zero, -⟩ | ⟨-, fits⟩⟩, positive⟩ := ok
  · exact absurd zero positive
  · have := len_lt s
    have behind : (s.beg + BitVec.ofNat 16 s.rc.toNat).toNat = s.beg.toNat + s.rc.toNat := by
      have := s.rc.isLt
      bv_omega
    by_cases inside : s.beg + BitVec.ofNat 16 s.rc.toNat < s.lenField
    · simp only [nextAfterRun, if_pos inside]
      exact .silent quiet offer ⟨encode, inside, Nat.le_refl _, by rw [behind]; exact fits⟩
    · simp only [nextAfterRun, if_neg inside]
      exact .silent quiet offer encode

/-! The moves without output. -/

theorem scanTurn_settled (hf : s.fsm = .eScan) : Settled (scanTurn s) := by
  simp only [fsmOk, hf] at ok
  obtain ⟨encode, inside, order, within⟩ := ok
  have literals_or_run (h : ¬ s.cur < s.beg) : s.cur = s.beg := by bv_omega
  unfold scanTurn
  split
  next at_end =>
    have full : s.beg.toNat = s.len := Nat.le_antisymm within at_end
    have before : s.cur < s.beg := by rw [BitVec.lt_def, full]; exact inside
    simp only [if_pos before]
    exact .silent quiet offer ⟨encode, before, within, .inl ⟨rfl, full⟩⟩
  next at_end =>
    have positive : 1 ≤ scanRunLen s := runLen_pos (planeByte s) (Nat.not_le.mp at_end)
    have bound : scanRunLen s ≤ min 127 (s.len - s.beg.toNat) := runLen_le (planeByte s)
    split
    next long =>
      have count : (BitVec.ofNat 7 (scanRunLen s)).toNat = scanRunLen s := by
        rw [BitVec.toNat_ofNat]
        omega
      have span : 4 ≤ (BitVec.ofNat 7 (scanRunLen s)).toNat ∧
          s.beg.toNat + (BitVec.ofNat 7 (scanRunLen s)).toNat ≤ s.len := by omega
      by_cases before : s.cur < s.beg
      · simp only [if_pos before]
        exact .silent quiet offer ⟨encode, before, within, .inr span⟩
      · simp only [if_neg before]
        refine .silent quiet offer ⟨encode, literals_or_run before, ⟨within, .inr span⟩, fun zero => ?_⟩
        have : (BitVec.ofNat 7 (scanRunLen s)).toNat = 0 := congrArg BitVec.toNat zero
        omega
    next =>
      have := len_lt s
      have skipped : (s.beg + BitVec.ofNat 16 (scanRunLen s)).toNat = s.beg.toNat + scanRunLen s := by bv_omega
      refine .silent quiet offer ?_
      simp only [fsmOk, hf]
      refine ⟨encode, inside, ?_, ?_⟩
      · rw [skipped]
        omega
      · rw [skipped]
        change s.beg.toNat + scanRunLen s ≤ s.len
        omega

theorem nextPlaneTurn_settled (hf : s.fsm = .eNext) : Settled (nextPlaneTurn s) := by
  simp only [fsmOk, hf] at ok
  unfold nextPlaneTurn
  split
  · exact .silent (s := { s with fsm := .eDone }) quiet offer ⟨ok.1, .inr ok.2.2⟩
  · exact .silent (s := { s with pl := s.pl + 1, cur := 0, beg := 0, fsm := .eScan }) quiet offer
      ⟨ok, (len_of_validCmd ok.1).1, Nat.le_refl _, Nat.zero_le _⟩

end

/-! The turns that offer bytes. -/

section
variable (quiet : Quiet s) (ok : fsmOk s)
include quiet ok

theorem rawPixel_settled {r g b e : Byte} (hf : s.fsm = .eRaw) (ht : exec (.rawPixel r g b e) s = .next t) :
    Settled t := by
  cases ht
  exact afterOutput_settled quiet (by rw [hf]; rfl) ok (outPutAll_ends s (drop_k_ne_nil _ rfl))
    fun _ h => nextRawPixel_settled (h.quiet quiet) h.offer (h.ok ok) (h.fsm.trans hf)

theorem encMarker_settled {hi : BitVec 7} {l : Byte} (hf : s.fsm = .eMark)
    (ht : exec (.encMarker hi l) s = .next t) : Settled t := by
  cases ht
  exact afterOutput_settled quiet (by rw [hf]; rfl) ok (outPutAll_ends s (drop_k_ne_nil _ rfl))
    fun _ h => startPlanes_settled (h.quiet quiet) h.offer (h.ok ok) (h.fsm.trans hf)

theorem literalControlTurn_settled (hf : s.fsm = .eLitCtl) : Settled (literalControlTurn s) := by
  have counted (n : Byte) : fsmOk { s with ln := n } := by
    simp only [fsmOk, hf] at ok ⊢
    exact ok
  let n : Byte := BitVec.ofNat 8 (min 128 (s.beg.toNat - s.cur.toNat))
  refine afterOutput_settled (s := { s with ln := n }) quiet (by simp only [hf]; rfl) (counted n) (outPut_ends n _)
    fun t h => ?_
  obtain ⟨_, _, _, _, rfl⟩ := h
  exact literalControl_settled (s := { s with ln := n, offer := none, sunk := _, outcount := _, k := _, sink := _ })
    quiet rfl (counted n) hf rfl

theorem literalDataTurn_settled (hf : s.fsm = .eLitDat) : Settled (literalDataTurn s) :=
  afterOutput_settled quiet (by rw [hf]; rfl) ok (outPut_ends _ s)
    fun _ h => nextLiteral_settled (h.quiet quiet) h.offer (h.ok ok) (h.fsm.trans hf)

theorem runControlTurn_settled (hf : s.fsm = .eRunCtl) : Settled (runControlTurn s) :=
  afterOutput_settled quiet (by rw [hf]; rfl) ok (outPut_ends _ s)
    fun _ h => runControl_settled (h.quiet quiet) h.offer (h.ok ok) (h.fsm.trans hf)

theorem runByteTurn_settled (hf : s.fsm = .eRunVal) : Settled (runByteTurn s) :=
  afterOutput_settled quiet (by rw [hf]; rfl) ok (outPut_ends _ s)
    fun _ h => nextAfterRun_settled (h.quiet quiet) h.offer (h.ok ok) (h.fsm.trans hf)

end

end

/-! ### The engine's turn -/

section
variable {s t : State}

theorem Emits.mem (h : Emits s t) : t.mem = s.mem := by
  have kept := h.1
  simp only [encodeKept, Prod.mk.injEq] at kept
  obtain ⟨-, -, -, -, -, -, -, -, mem, -⟩ := kept
  exact mem

theorem not_emitting_of_decoding {f : Fsm} : f.decoding = true → f.emitting = false := by
  cases f <;> simp [Fsm.decoding, Fsm.emitting]

theorem decoding_of_inv (h : Inv s) (hf : s.fsm.decoding = true) (valid : validCmd 1 s) : Decoding s := by
  refine ⟨quiet_of_inv h fun idle => ?_, offer_none_of_inv h (not_emitting_of_decoding hf), valid⟩
  rw [idle] at hf
  cases hf

/-- A whole token is executed. -/
theorem exec_token_sound {i : Instr} (h : Inv s) (token : Token s i) (ht : exec i s = .next t) : Sound s t := by
  have ok := h.fsm
  cases token with
  | quad hf =>
    simp only [fsmOk, hf] at ok
    have decoding := decoding_of_inv h (by rw [hf]; rfl) ok.1
    unfold decodeQuad at ht
    split at ht
    · exact exec_lqRun_sound decoding ok ht
    · exact exec_lqPixel_sound decoding ok hf ht
  | marker hf =>
    simp only [fsmOk, hf] at ok
    have decoding := decoding_of_inv h (by rw [hf]; rfl) ok.1
    unfold decodeMarker at ht
    split at ht
    · exact exec_adpMarker_sound decoding ok.2.1 ht
    · exact exec_lqPixel_marker_sound decoding hf ht
  | run hf =>
    simp only [fsmOk, hf] at ok
    exact exec_adpRun_sound (decoding_of_inv h (by rw [hf]; rfl) ok.1.1) ok.1 ht
  | literal hf =>
    simp only [fsmOk, hf] at ok
    exact exec_adpLit_sound (decoding_of_inv h (by rw [hf]; rfl) ok.1.1) ok.1 ht
  | rawPixel hf =>
    exact .of_mem (exec_rawPixel_emits ht).mem (rawPixel_settled (quiet_of_inv h (by rw [hf]; nofun)) ok hf ht)
  | encMarker hf =>
    exact .of_mem (exec_encMarker_emits ht).mem (encMarker_settled (quiet_of_inv h (by rw [hf]; nofun)) ok hf ht)

theorem holdBytes_settled (h : Decoding s) (short : (s.hold ++ s.q).length < 4)
    (ok : fsmOk s) (hf : s.fsm = .dMark ∨ s.fsm = .dQuad) : Settled (holdBytes s) := by
  refine Decoding.settled (s := holdBytes s) h ?_
  obtain hf | hf := hf
  all_goals simp only [fsmOk, hf, holdBytes_fsm] at ok ⊢
  · exact ⟨ok.1, ok.2.1, short⟩
  · exact ⟨ok.1, short, ok.2.2⟩

/-- The engine's move where no whole token stands before it. -/
theorem partTurn_sound (h : Inv s) (none : nextInstr s = none) : Sound s (partTurn s) := by
  have ok := h.fsm
  have waits := settled_of_inv h
  cases hf : s.fsm <;> simp only [partTurn, hf] <;> simp only [fsmOk, hf] at ok
  case idle => exact .of_mem rfl waits
  case eRaw => exact absurd hf (not_eRaw none)
  case eMark => exact absurd hf (not_eMark none)
  case convert =>
    exact ⟨convertTurn_rowWrites, .of_complete (quiet_of_inv h (by rw [hf]; nofun)).shiftOk rfl⟩
  case eDone => exact .of_mem rfl (.of_complete (quiet_of_inv h (by rw [hf]; nofun)).shiftOk rfl)
  case dPeek => exact peekTurn_sound (decoding_of_inv h (by rw [hf]; rfl) ok.1) ok.2.1 waits
  case dMark =>
    have decoding := decoding_of_inv h (by rw [hf]; rfl) ok.1
    exact partTokenTurn_sound (failDecode_sound decoding (by decide) _ _ _) waits
      (holdBytes_settled decoding (hold_q_short_of_dMark none hf) h.fsm (.inl hf))
  case dQuad =>
    have decoding := decoding_of_inv h (by rw [hf]; rfl) ok.1
    exact partTokenTurn_sound (failDecode_sound decoding (by decide) _ _ _) waits
      (holdBytes_settled decoding (hold_q_short_of_dQuad none hf) h.fsm (.inr hf))
  case dCtl =>
    exact controlTurn_sound (decoding_of_inv h (by rw [hf]; rfl) ok.1.1) ok.1 waits fun _ _ => partToken_of_dCtl none hf
  case dRun n => exact runValueTurn_sound (decoding_of_inv h (by rw [hf]; rfl) ok.1.1) ok.1 ok.2.2 waits
  case dLit left =>
    obtain ⟨plane, -, short, fits⟩ := ok
    exact literalTurn_sound (decoding_of_inv h (by rw [hf]; rfl) plane.1) plane short fits waits
  case eScan =>
    exact .of_mem (scanTurn_emits s).mem
      (scanTurn_settled (quiet_of_inv h (by rw [hf]; nofun)) (offer_none_of_inv h (by rw [hf]; rfl)) h.fsm hf)
  case eNext =>
    exact .of_mem (nextPlaneTurn_emits s).mem
      (nextPlaneTurn_settled (quiet_of_inv h (by rw [hf]; nofun)) (offer_none_of_inv h (by rw [hf]; rfl)) h.fsm hf)
  case eLitCtl =>
    exact .of_mem (literalControlTurn_emits s).mem
      (literalControlTurn_settled (quiet_of_inv h (by rw [hf]; nofun)) h.fsm hf)
  case eLitDat =>
    exact .of_mem (literalDataTurn_emits s).mem (literalDataTurn_settled (quiet_of_inv h (by rw [hf]; nofun)) h.fsm hf)
  case eRunCtl =>
    exact .of_mem (runControlTurn_emits s).mem (runControlTurn_settled (quiet_of_inv h (by rw [hf]; nofun)) h.fsm hf)
  case eRunVal =>
    exact .of_mem (runByteTurn_emits s).mem (runByteTurn_settled (quiet_of_inv h (by rw [hf]; nofun)) h.fsm hf)

theorem engineTurn_sound (h : Inv s) (ht : engineTurn s = .next t) : Sound s t := by
  obtain ⟨-, turn⟩ | ⟨-, i, token, turn⟩ | ⟨-, none, turn⟩ := engineTurn_cases s <;> rw [turn] at ht
  · cases ht; exact .of_mem rfl (settled_of_inv h)
  · exact exec_token_sound h (token_of_nextInstr token) ht
  · cases ht; exact partTurn_sound h none

/-- Settles O56: every write of a turn is confined to the row. -/
theorem engineStaysInItsRow : Obligations.EngineStaysInItsRow := by
  intro s t h ht
  have kept := (engineTurn_frame ht).kept
  simp only [engineKept, Prod.mk.injEq] at kept
  obtain ⟨-, -, -, tag, -⟩ := kept
  exact (engineTurn_sound h ht).1.readByte tag

end

end Sys2Proof.Proofs
end

section
/-! Every step keeps the invariant: from the engine's turn to the step, and the host's events (rules R20, R115, R127 to
R130). -/

namespace Sys2Proof.Proofs

open Sys2Proof Sys2Proof.Machine

section
variable {s t : State}

/-- The invariant does not speak of the streams' host side, of IE, of the reply or of the model's own fields. -/
theorem inv_congr (h : Inv s) (ie : Bool) (q : List Byte) (ended : Bool) (sink : Sink) (reply : Option Reply)
    (agenda : List Turn) (fresh : Nat) :
    Inv { s with ie := ie, q := q, ended := ended, sink := sink, reply := reply, agenda := agenda, fresh := fresh } :=
  ⟨h.legal, h.canonical, h.mapped, h.exclusive, h.errCode, h.errRange, h.running, h.donePos, h.reset, h.offer, h.shift,
    h.fsm⟩

/-- The invariant in the parts in which it is proved. -/
theorem inv_of_settled (legal : s.params.legal = true) (canonical : s.mem.wf = true)
    (mapped : ∀ e ∈ s.mem, bufferAddr s.params e.1 = true) (reset : s.inReset = true → s.busy = false)
    (h : Settled s) : Inv s :=
  ⟨legal, canonical, mapped, h.exclusive, h.errCode, h.errRange, h.running, h.donePos, reset, h.offer, h.shift, h.fsm⟩

/-! ### The engine's turn -/

/-- A row of at most P_ROWMAX pixels holds addresses of the buffers only (rules R39, R40). -/
theorem bufferAddr_of_rowOrFb {p : Params} {n a : Nat} (hn : n ≤ p.rowMax.toNat) (h : rowOrFb n a) :
    bufferAddr p a = true := by
  have := p.rowMax.isLt
  simp only [rowOrFb, inRow, inFb, rowAddr, fbAddr] at h
  unfold bufferAddr target
  split_ifs with registers rowbuf pixel gap fbuf word
  · omega
  · rfl
  · omega
  · omega
  · rfl
  · omega
  · omega

/-- While a command runs its LEN is in range. -/
theorem len_le_of_busy (ok : fsmOk s) (busy : s.fsm ≠ .idle) : s.len ≤ s.params.rowMax.toNat := by
  have valid : ∃ op, validCmd op s := by
    cases hf : s.fsm <;> simp only [fsmOk, hf] at ok
    case idle => exact absurd hf busy
    case dCtl | dRun | dLit => exact ⟨_, ok.1.1⟩
    case eScan | eLitCtl | eLitDat | eRunCtl | eRunVal => exact ⟨_, ok.1.1⟩
    all_goals exact ⟨_, ok.1⟩
  obtain ⟨op, valid⟩ := valid
  exact (len_of_validCmd valid).2

theorem engineTurn_inv (h : Inv s) (ht : engineTurn s = .next t) : Inv t := by
  by_cases idle : s.fsm = .idle
  · rw [engineTurn_of_idle idle] at ht
    cases ht
    exact h
  · have inRange := len_le_of_busy h.fsm idle
    obtain ⟨writes, settled⟩ := engineTurn_sound h ht
    have kept := (engineTurn_frame ht).kept
    simp only [engineKept, Prod.mk.injEq] at kept
    obtain ⟨params, inReset, -⟩ := kept
    have running : s.inReset = false := by
      by_contra held
      exact idle (busy_eq_false.mp (h.reset (Bool.not_eq_false _ ▸ held)))
    refine inv_of_settled (by rw [params]; exact h.legal) (writes.wf h.canonical) (fun e he => ?_)
      (fun held => by rw [inReset, running] at held; cases held) settled
    rw [params]
    exact (writes.listed e he).elim (h.mapped e) (bufferAddr_of_rowOrFb inRange)

theorem limitedTurn_inv {n : Nat} (h : Inv s) (ht : limitedTurn n s = .next t) : Inv t := by
  obtain ⟨u, seen, rfl⟩ := limitedTurn_next ht
  exact inv_congr (engineTurn_inv (inv_congr h _ _ _ _ _ _ _) seen) _ _ _ _ _ _ _

/-! ### Resets (rules R128, R129) -/

theorem resetRegisters_inv (legal : s.params.legal = true) (canonical : s.mem.wf = true)
    (mapped : ∀ e ∈ s.mem, bufferAddr s.params e.1 = true) (held : Bool) :
    Inv { resetRegisters s with inReset := held } where
  legal := legal
  canonical := canonical
  mapped := mapped
  exclusive := nofun
  errCode := by simp
  errRange := by simp
  running := nofun
  donePos := nofun
  reset := fun _ => rfl
  offer := fun h => absurd rfl h
  shift := .inl rfl
  fsm := rfl

theorem hardReset_inv (h : Inv s) (held : Bool) : Inv { hardReset s with inReset := held } :=
  resetRegisters_inv (s := loseBuffers s) h.legal rfl nofun held

theorem softReset_inv (h : Inv s) : Inv (softReset s) := by
  obtain ⟨-, e⟩ | ⟨-, e⟩ := softReset_cases s <;> rw [e]
  · exact resetRegisters_inv (s := loseBuffers s) h.legal rfl nofun s.inReset
  · exact resetRegisters_inv h.legal h.canonical h.mapped s.inReset

/-! ### Acceptance (rule R115) -/

/-- The state after acceptance, before it looks at the word: nothing is reported, and the engine is IDLE. -/
structure Accepted (s : State) : Prop where
  legal : s.params.legal = true
  canonical : s.mem.wf = true
  mapped : ∀ e ∈ s.mem, bufferAddr s.params e.1 = true
  inReset : s.inReset = false
  quiet : Quiet s
  offer : s.offer = none
  fsm : s.fsm = .idle
  hold : s.hold = []

theorem accepted_acceptClear (h : Inv s) (hr : s.inReset = false) (idle : s.fsm = .idle) (w : Word) :
    Accepted (acceptClear w s) := by
  have ok := h.fsm
  simp only [fsmOk, idle] at ok
  have offer : s.offer = none := offer_none_of_inv h (by rw [idle]; rfl)
  exact ⟨h.legal, h.canonical, h.mapped, hr, ⟨rfl, rfl, rfl, h.shift⟩, offer, idle, ok⟩

theorem Accepted.failAccept (h : Accepted s) {code : BitVec 4} (hcode : 1 ≤ code.toNat ∧ code.toNat ≤ 7) :
    Inv (failAccept code s) := by
  obtain ⟨done, -, -, shift⟩ := h.quiet
  have idle : (Machine.failAccept code s).busy = false := busy_eq_false.mpr h.fsm
  have ok : fsmOk (Machine.failAccept code s) := by
    simp only [fsmOk, failAccept_fsm, h.fsm, failAccept_hold, h.hold]
  refine inv_of_settled h.legal h.canonical h.mapped (fun _ => idle)
    ⟨by simp [done], ?_, hcode.2, by simp [idle], by simp [done], fun offered => absurd h.offer offered, shift, ok⟩
  exact ⟨fun _ => rfl, fun _ zero => by have : code.toNat = 0 := congrArg BitVec.toNat zero; omega⟩

/-- A started command leaves the engine in its first state. -/
theorem Accepted.started (h : Accepted s) (params : t.params = s.params) (mem : t.mem = s.mem)
    (inReset : t.inReset = s.inReset) (settled : Settled t) : Inv t := by
  refine inv_of_settled (by rw [params]; exact h.legal) (by rw [mem]; exact h.canonical) ?_
    (fun held => by rw [inReset, h.inReset] at held; cases held) settled
  rw [params, mem]
  exact h.mapped

theorem startDecode_inv (h : Accepted s) (valid : validCmd 1 s) : Inv (startDecode s) := by
  have room := (len_of_validCmd valid).1
  have decoding : Decoding s := ⟨h.quiet, h.offer, valid⟩
  unfold startDecode
  split
  next long =>
    exact h.started rfl rfl rfl
      (Decoding.settled (s := { s with fsm := .dPeek, hold := [] }) decoding ⟨valid, long, rfl⟩)
  next =>
    obtain ⟨done, err, code, -⟩ := h.quiet
    exact h.started rfl rfl rfl (Decoding.settled (s := startLegacy pathLegacy s)
      ⟨⟨done, err, code, .inl rfl⟩, decoding.2⟩ ⟨valid, Nat.zero_lt_succ 3, room, .inl rfl⟩)

theorem startEncode_inv (h : Accepted s) (valid : validCmd 2 s) : Inv (startEncode s) := by
  have room := (len_of_validCmd valid).1
  unfold startEncode
  split
  next long =>
    exact h.started rfl rfl rfl (.silent (s := { s with path := pathAdaptive, k := 0, fsm := .eMark }) h.quiet h.offer
      ⟨valid, long, rfl⟩)
  next short =>
    exact h.started rfl rfl rfl (.silent (s := { s with path := pathLegacy, cur := 0, k := 0, fsm := .eRaw }) h.quiet
      h.offer ⟨valid, Bool.eq_false_iff.mpr short, rfl, room⟩)

theorem startConvert_inv (h : Accepted s) (valid : validCmd 3 s) : Inv (startConvert s) :=
  h.started rfl rfl rfl (.silent (s := startConvert s) h.quiet h.offer ⟨valid, rfl⟩)

/-- A write to CMD is dropped, or accepted and followed by its start. -/
theorem writeCmd_inv {w : Word} {start : State → State} (h : Inv s)
    (hstart : Accepted (acceptClear w s) → Inv (start (acceptClear w s))) : Inv (writeCmd w start s) := by
  obtain ⟨-, e⟩ | ⟨hr, idle, e⟩ := writeCmd_cases w start s <;> rw [e]
  · exact inv_congr h _ _ _ _ _ _ _
  · exact inv_congr (hstart (accepted_acceptClear h hr (busy_eq_false.mp idle) w)) _ _ _ _ _ _ _

/-- A command of rule R55 with any LEN: ERR_BADLEN, or its start as a valid command. -/
theorem writeCmd_startIfLen_inv {op : BitVec 4} {first : Bool} {len : BitVec 16} {start : State → State} (h : Inv s)
    (hw : isReserved (cmdWord op first len) = false)
    (hstart : ∀ u, Accepted u → validCmd op u → Inv (start u)) :
    Inv (writeCmd (cmdWord op first len) (startIfLen len start) s) := by
  refine writeCmd_inv h fun accepted => ?_
  obtain ⟨-, e⟩ | ⟨inRange, e⟩ := startIfLen_cases len start (acceptClear (cmdWord op first len) s) <;> rw [e]
  · exact accepted.failAccept (by decide)
  · refine hstart _ accepted ⟨cmdOp_cmdWord op first len, hw, ?_⟩
    have field : (acceptClear (cmdWord op first len) s).lenField = len := cmdLen_cmdWord op first len
    rw [field]
    exact inRange

theorem exec_decodeCmd_inv {w : Word} (h : Inv s) (ht : exec (decodeCmd w) s = .next t) : Inv t := by
  cases reserved : isReserved w with
  | true =>
    rw [decodeCmd_of_reserved reserved] at ht
    cases ht
    exact writeCmd_inv h fun accepted => accepted.failAccept (by decide)
  | false =>
    obtain ⟨first, len, rfl, named⟩ | ⟨len, rfl, named⟩ | ⟨len, rfl, named⟩ := decodeCmd_of_not_reserved reserved
    all_goals rw [named] at ht; cases ht
    · refine writeCmd_startIfLen_inv h reserved fun u accepted valid => ?_
      cases first
      · exact startDecode_inv accepted valid
      · exact startDecode_inv (s := { u with prevValid := false })
          ⟨accepted.legal, accepted.canonical, accepted.mapped, accepted.inReset, accepted.quiet, accepted.offer,
            accepted.fsm, accepted.hold⟩ valid
    · exact writeCmd_startIfLen_inv h reserved fun _ => startEncode_inv
    · exact writeCmd_startIfLen_inv h reserved fun _ => startConvert_inv

/-! ### The host's events -/

/-- A write to STATUS clears flags, ERR together with ERRCODE (rule R20). -/
theorem writeStatus_inv (v : Word) (h : Inv s) : Inv (writeStatus v s) := by
  have done : (writeStatus v s).done = true → s.done = true := by
    simp only [writeStatus]
    split <;> simp
  have err : (writeStatus v s).err = true → s.err = true := by
    simp only [writeStatus]
    split <;> simp
  refine inv_of_settled h.legal h.canonical h.mapped h.reset ⟨fun both => h.exclusive ⟨done both.1, err both.2⟩, ?_, ?_,
    fun busy => ?_, fun d => h.donePos (done d), h.offer, h.shift, h.fsm⟩
  · simp only [writeStatus]
    split
    · simp
    · exact h.errCode
  · simp only [writeStatus]
    split
    · simp
    · exact h.errRange
  · obtain ⟨d, e⟩ := h.running busy
    exact ⟨Bool.eq_false_iff.mpr fun x => by simp [done x] at d, Bool.eq_false_iff.mpr fun x => by simp [err x] at e⟩

theorem writeCtrl_inv (v : Word) (h : Inv s) : Inv (writeCtrl v s) := by
  have enabled : Inv { s with ie := v.getLsbD 0 } := inv_congr h _ _ _ _ _ _ _
  cases reset : v.getLsbD 1 with
  | true => rw [writeCtrl_of_reset reset]; exact softReset_inv enabled
  | false => rw [writeCtrl_of_keep reset]; exact enabled

theorem bufferAddr_of_row {p : Params} {a i : Nat} (h : target p a = .row i) {q : Nat} (hq : q < 4) :
    bufferAddr p (rowAddr i 0 + q) = true := by
  have inRange : i < p.rowMax.toNat := by
    unfold target at h
    split_ifs at h with low row index
    · unfold regAt at h
      split at h <;> cases h
    · cases h
      exact index
  refine bufferAddr_of_rowOrFb (Nat.le_refl _) (.inl ?_)
  simp only [inRow, rowAddr]
  omega

theorem writeRow_inv {a i : Nat} (v : Word) (h : Inv s) (ht : target s.params a = .row i) :
    Inv { s with mem := s.mem.setWord (rowAddr i 0) v } := by
  have writes : WritesIn (fun x => bufferAddr s.params x = true) s.mem (s.mem.setWord (rowAddr i 0) v) :=
    .setWord s.mem v fun _ hp => bufferAddr_of_row ht hp
  exact ⟨h.legal, writes.wf h.canonical, fun e he => (writes.listed e he).elim (h.mapped e) id, h.exclusive, h.errCode,
    h.errRange, h.running, h.donePos, h.reset, h.offer, h.shift, h.fsm⟩

theorem busWrite_inv {addr : Word} {size : Nat} {v : Word} (h : Inv s) (ht : busWrite addr size v s = .next t) :
    Inv t := by
  have refused : Inv (slverr s) := inv_congr h _ _ _ _ _ _ _
  unfold busWrite at ht
  split at ht
  · cases ht; exact refused
  · split at ht
    next r _ =>
      cases r with
      | cmd => exact exec_decodeCmd_inv h ht
      | ctrl => cases ht; exact inv_congr (writeCtrl_inv v h) _ _ _ _ _ _ _
      | status => cases ht; exact inv_congr (writeStatus_inv v h) _ _ _ _ _ _ _
      | id | param | incount | outcount | pos | prevpix => cases ht; exact refused
    next i row =>
      split at ht <;> cases ht
      · exact refused
      · exact inv_congr (writeRow_inv v h row) _ _ _ _ _ _ _
    · cases ht; exact refused
    · cases ht; exact refused

theorem busRead_inv (h : Inv s) (addr : Word) (size : Nat) : Inv (busRead addr size s) := by
  obtain ⟨r, d, f, e⟩ := busRead_cases addr size s
  rw [e]
  exact inv_congr h _ _ _ _ _ _ _

theorem waitTurn_inv (h : Inv s) : Inv (waitTurn s) := by
  unfold waitTurn
  dsimp only
  split
  · exact inv_congr (busRead_inv h _ _) _ _ _ _ _ _ _
  · exact busRead_inv h _ _

theorem hostTurn_inv {op : HostOp} (h : Inv s) (ht : hostTurn op s = .next t) : Inv t := by
  cases op with
  | read addr size => simp only [hostTurn] at ht; split at ht <;> cases ht; exact busRead_inv h _ _
  | write addr size v =>
    simp only [hostTurn] at ht
    split at ht
    · exact busWrite_inv h ht
    · cases ht
  | push bytes | reopen =>
    simp only [hostTurn] at ht
    split at ht <;> cases ht
    exact inv_congr h _ _ _ _ _ _ _
  | endStream | sink mode | answer a => cases ht; exact inv_congr h _ _ _ _ _ _ _
  | wait => cases ht; exact waitTurn_inv h
  | assertReset | releaseReset => cases ht; exact hardReset_inv h _

end

/-- Settles O55: a step is a turn of the engine, whole or limited, or an event of the host, and each keeps the
invariant. -/
theorem everyStepKeepsInvariant : Obligations.EveryStepKeepsInvariant := by
  intro s t h ht
  have taken (rest : List Turn) : Inv { s with agenda := rest } := inv_congr h _ _ _ _ _ _ _
  obtain ⟨-, turn⟩ | ⟨rest, -, turn⟩ | ⟨n, rest, -, turn⟩ | ⟨op, rest, -, turn⟩ := step_cases s <;> rw [turn] at ht
  · exact engineTurn_inv h ht
  · exact engineTurn_inv (taken rest) ht
  · exact limitedTurn_inv (taken rest) ht
  · exact hostTurn_inv (taken rest) ht

end Sys2Proof.Proofs
end

section
/-! The start of the commands, and the legacy tokens with their whole next states (rules R69 to R83, R115). -/

namespace Sys2Proof.Proofs

open Sys2Proof Sys2Proof.Machine

/-! ### Acceptance and start (rules R58, R115) -/

section
variable {s : State} {len : BitVec 16}

/-- An idle block accepts a command whose LEN is in range and starts it. -/
theorem writeCmd_of_lenInRange (w : Word) (start : State → State) (hs : ready s) (hl : lenInRange s.params len) :
    writeCmd w (startIfLen len start) s = respond .okay 0 (start (acceptClear w s)) := by
  have inRange : badLen s.params len = false := by
    rw [badLen, decide_eq_false_iff_not]
    obtain ⟨low, high⟩ := hl
    omega
  rw [writeCmd_idle hs.1 (busy_eq_false.mpr hs.2), startIfLen, acceptClear_params, inRange]
  rfl

theorem acceptClear_cmdWord_len (op : BitVec 4) (first : Bool) (s : State) :
    (acceptClear (cmdWord op first len) s).len = len.toNat :=
  congrArg BitVec.toNat (cmdLen_cmdWord op first len)

/-- The state in which DECODE_ROW looks at its length. -/
def decodeAccepted (first : Bool) (len : BitVec 16) (s : State) : State :=
  { acceptClear (cmdWord 1 first len) s with prevValid := s.prevValid && !first }

theorem exec_decodeRow (first : Bool) (hs : ready s) (hl : lenInRange s.params len) :
    exec (.decodeRow first len) s = .next (respond .okay 0 (startDecode (decodeAccepted first len s))) := by
  simp only [exec, execDecodeRow, writeCmd_of_lenInRange _ _ hs hl]
  cases first with
  | true => simp only [decodeAccepted, Bool.not_true, Bool.and_false]; rfl
  | false => simp only [decodeAccepted, Bool.not_false, Bool.and_true]; rfl

theorem startDecode_of_long {u : State} (h : adaptiveLen u.len = true) :
    startDecode u = { u with fsm := .dPeek, hold := [] } := if_pos h

theorem startDecode_of_raw {u : State} (h : adaptiveLen u.len = false) : startDecode u = startLegacy pathLegacy u :=
  if_neg (Bool.eq_false_iff.mp h)

theorem decodeAccepted_len (first : Bool) : (decodeAccepted first len s).len = len.toNat :=
  acceptClear_cmdWord_len 1 first s

end

/-- Settles O5: acceptance stores and clears, and the command's first state follows from its length. -/
theorem validCommandStarts : Obligations.ValidCommandStarts := by
  intro s len hs hl
  refine ⟨fun first => ?_, ?_, ?_⟩
  · rw [exec_decodeRow first hs hl]
    by_cases long : 8 ≤ len.toNat ∧ len.toNat ≤ 32767
    · have adaptive : adaptiveLen (decodeAccepted first len s).len = true := by
        rw [decodeAccepted_len]
        exact decide_eq_true long
      simp only [startDecode_of_long adaptive, if_pos long]
      rfl
    · have raw : adaptiveLen (decodeAccepted first len s).len = false := by
        rw [decodeAccepted_len]
        exact decide_eq_false long
      simp only [startDecode_of_raw raw, if_neg long]
      rfl
  · rw [exec_encodeRow hs hl]
    simp only [encodeStarted, adaptiveLen, decide_eq_true_eq]
    rfl
  · simp only [exec, execConvertRow, writeCmd_of_lenInRange _ _ hs hl]
    rfl

/-- Settles O7: an idle block accepts the word and fails it with ERR_BADOP. -/
theorem reservedCommandIsBadOp : Obligations.ReservedCommandIsBadOp := by
  intro s w hs
  simp only [exec, execReservedCmd, writeCmd_idle hs.1 (busy_eq_false.mpr hs.2)]
  rfl

/-! ### The peek and the marker position (rules R70 to R73) -/

theorem marker_bit_clear_iff (b : Byte) : b.getLsbD 7 = false ↔ b.toNat < 128 := by
  have := b.isLt
  rw [BitVec.getLsbD, Nat.testBit_eq_decide_div_mod_eq, decide_eq_false_iff_not]
  omega

theorem decodeMarker_of_pixel {b1 b2 : Byte} (b3 : Byte) (h : ¬ (b1 = 2 ∧ b2.toNat < 128)) :
    decodeMarker 2 b1 b2 b3 = .lqPixel 2 b1 b2 b3 :=
  if_neg fun ⟨_, two, clear⟩ => h ⟨two, (marker_bit_clear_iff b2).mp clear⟩

section
variable {s : State} (r g b e : Byte)

theorem afterFallback_rowPixel : (afterFallback r g b e s).rowPixel 0 = wordOfBytes r g b e :=
  putPixels_rowPixel [wordOfBytes r g b e] (startLegacy pathFallback (takeToken 4 s)) (k := 0) Nat.one_pos

theorem afterFallback_sameOutside : sameOutside (inRow 0 1) s (afterFallback r g b e s) :=
  putPixels_sameOutside [wordOfBytes r g b e] (startLegacy pathFallback (takeToken 4 s))

theorem afterFallback_len : (afterFallback r g b e s).len = s.len := by
  simp [afterFallback, State.len, State.lenField]

theorem afterFallback_eq : afterFallback r g b e s = { s with
    mem := s.mem.setPixels [wordOfBytes r g b e] 0, q := s.q.drop (4 - s.hold.length),
    incount := s.incount + BitVec.ofNat 32 (4 - s.hold.length), hold := [], path := 3, i := 1, shift := 0,
    fsm := .dQuad } := by
  simp [afterFallback, putPixels, startLegacy, takeToken, takeBytes, pathFallback]

end

/-- Settles O10: the quad at the marker position is written at I = 0 of a fallback row, and the row goes on. -/
theorem fallbackFirstPixel : Obligations.FallbackFirstPixel := by
  intro s b1 b2 b3 hf _ more
  have inside : (afterFallback 2 b1 b2 b3 s).i.toNat < (afterFallback 2 b1 b2 b3 s).len := by
    rw [afterFallback_i, afterFallback_len]
    exact more
  have quad : (afterFallback 2 b1 b2 b3 s).fsm = .dQuad := by simp [afterFallback]
  refine ⟨decodeMarker_of_pixel b3, afterFallback 2 b1 b2 b3 s, ?_, afterFallback_rowPixel 2 b1 b2 b3,
    afterFallback_sameOutside 2 b1 b2 b3, ?_⟩
  · rw [exec_lqPixel_marker hf, closeLegacy_of_lt quad inside]
  · rw [afterFallback_eq]

theorem peekTurn_cons {s : State} {c : Byte} {cs : List Byte} (hq : s.q = c :: cs) :
    peekTurn s = if c = 2 then { s with fsm := .dMark, hold := [] } else startLegacy pathLegacy s := by
  unfold peekTurn
  split
  next empty => rw [hq] at empty; cases empty
  next first => rw [hq] at first; cases first; rfl

/-- Settles O20: the engine's move at the peek looks at the first byte and takes none. -/
theorem peekConsumesNothing : Obligations.PeekConsumesNothing := by
  intro s b bs hr ha hf hq
  have turn : step s = .next (peekTurn s) := by
    rw [step_of_partTurn hr ha (by simp [nextInstr, hf]), partTurn, hf]
  rw [turn, peekTurn_cons hq]
  exact ⟨fun two => congrArg _ (if_pos two), fun other => congrArg _ (if_neg other)⟩

/-- Settles O15: without a mismatch the marker leads to the first byte of plane 0. -/
theorem adpMarkerStartsPlanes : Obligations.AdpMarkerStartsPlanes := by
  intro s h l hf _ agrees
  have accepted : ¬ (s.params.lenChk && markerLength h l != s.len) = true := by
    obtain unchecked | equal := agrees
    · simp [unchecked]
    · simp [markerLength, equal]
  exact if_neg accepted

/-! ### A failed decode (rule R83) -/

/-- A failed decode changes only unfilled bytes of the row. -/
theorem failDecode_sameOutside {P : Nat → Prop} {filled : Nat → Nat → Bool} (code : BitVec 4) (pos : BitVec 16)
    (plane : BitVec 2) (s : State) (h : ∀ k p, k < s.len → p < 4 → filled k p = false → P (rowAddr k p)) :
    sameOutside P s (failDecode code pos plane filled s) :=
  WritesIn.readByte (t := failDecode code pos plane filled s) (WritesIn.spoil s.mem h) rfl

/-- Settles O16: the mismatch fails the row with nothing filled, on the adaptive path. -/
theorem adpMarkerLengthMismatch : Obligations.AdpMarkerLengthMismatch := by
  intro s h l hf _ checked differs
  have refused : (s.params.lenChk && markerLength h l != s.len) = true := by
    simp [checked, markerLength, differs]
  refine ⟨_, if_pos refused, ?_, rfl⟩
  refine failDecode_sameOutside errLenMismatch 0 0 { takeToken 4 s with path := pathAdaptive } fun k p hk hp _ => ?_
  have : k < s.len := hk
  simp only [inRow, rowAddr]
  omega

/-! ### LQ_RUN (rules R79 to R81) -/

section
variable {s : State} {c : Byte}

theorem runSource_of_pixel {w : Word}
    (h : (0 < s.i.toNat ∧ w = s.rowPixel (s.i.toNat - 1)) ∨ (s.i.toNat = 0 ∧ s.prevValid = true ∧ w = s.prevpix)) :
    runSource s = some w := by
  obtain ⟨inside, rfl⟩ | ⟨first, valid, rfl⟩ := h
  · exact if_pos inside
  · exact (if_neg (by omega)).trans (if_pos valid)

theorem runLength_zero (s : State) : runLength 0 s = 0 := Nat.zero_mul _

variable {w : Word}

theorem afterRun_rowPixel {k : Nat} (h : k < runLength c s) : (afterRun w c s).rowPixel (s.i.toNat + k) = w := by
  have pixel := putPixels_rowPixel (List.replicate (runLength c s) w) (takeToken 4 s) (k := k) (by simpa using h)
  rw [List.getElem_replicate] at pixel
  exact pixel

theorem afterRun_sameOutside : sameOutside (inRow s.i.toNat (runLength c s)) s (afterRun w c s) := by
  have outside := putPixels_sameOutside (List.replicate (runLength c s) w) (takeToken 4 s)
  rw [List.length_replicate] at outside
  exact outside

theorem afterRun_eq : afterRun w c s = { s with
    mem := s.mem.setPixels (List.replicate (runLength c s) w) s.i.toNat, q := s.q.drop (4 - s.hold.length),
    incount := s.incount + BitVec.ofNat 32 (4 - s.hold.length), hold := [],
    i := s.i + BitVec.ofNat 16 (runLength c s), shift := if 16 ≤ s.shift.toNat then 16 else s.shift + 8 } := by
  simp [afterRun, raiseShift, putPixels, takeToken, takeBytes]

theorem afterRun_fsm : (afterRun w c s).fsm = s.fsm := by simp [afterRun]

theorem afterRun_len : (afterRun w c s).len = s.len := by simp [afterRun, State.len, State.lenField]

end

/-- Settles O11: the run is written with RunSource's pixel, SHIFT rises, and the loop's test goes on or ends the row with
that pixel as PREVPIX. -/
theorem lqRunRepeatsPixel : Obligations.LqRunRepeatsPixel := by
  intro s c w hf _ positive fits pixel
  have nonzero : runLength c s ≠ 0 := Nat.one_le_iff_ne_zero.mp positive
  have moved : (afterRun w c s).i.toNat = s.i.toNat + runLength c s := by
    rw [afterRun_i]
    exact i_add_toNat fits
  refine ⟨closeLegacy (afterRun w c s), exec_lqRun_of_source fits nonzero (runSource_of_pixel pixel),
    fun k hk => ?_, fun a ha => ?_, fun more => ?_, fun full => ?_⟩
  · exact (closeLegacy_rowPixel _).trans (afterRun_rowPixel hk)
  · exact (closeLegacy_readByte a).trans (afterRun_sameOutside a ha)
  · have inside : (afterRun w c s).i.toNat < (afterRun w c s).len := by rw [moved, afterRun_len]; exact more
    rw [closeLegacy_of_lt (afterRun_fsm.trans hf) inside, afterRun_eq]
    rfl
  · have done : (afterRun w c s).len ≤ (afterRun w c s).i.toNat := by rw [moved, afterRun_len]; exact full.ge
    have last : (afterRun w c s).len - 1 = s.i.toNat + (runLength c s - 1) := by
      have : s.i.toNat + runLength c s = s.len := full
      rw [afterRun_len]
      omega
    rw [closeLegacy_of_le done, decodeFinish, last, afterRun_rowPixel (by omega), afterRun_eq]
    rfl

/-- Settles O12: a run of no pixels only raises SHIFT, and the row goes on. -/
theorem lqRunOfZeroRaisesShift : Obligations.LqRunOfZeroRaisesShift := by
  intro s hf _ inside
  have none : runLength 0 s = 0 := runLength_zero s
  rw [exec_lqRun_of_zero (by omega) none, closeLegacy_of_lt (s := raiseShift (takeToken 4 s)) hf inside]
  rfl

/-- The legacy row failed at I, after the token was taken: the pixels below I stay. -/
theorem failLegacy_sameOutside (code : BitVec 4) (s : State) :
    sameOutside (inRow s.i.toNat (s.len - s.i.toNat)) s (failLegacy code s) := by
  refine failDecode_sameOutside code s.i 0 s fun k p hk hp unfilled => ?_
  have above : ¬ k < s.i.toNat := of_decide_eq_false unfilled
  simp only [inRow, rowAddr]
  omega

/-- Settles O13: both errors are found before anything is written. -/
theorem lqRunErrors : Obligations.LqRunErrors := by
  intro s c code hf _ inside error
  have failed : exec (.lqRun c) s = .next (failLegacy code (takeToken 4 s)) := by
    obtain ⟨past, rfl⟩ | ⟨fits, nonzero, first, invalid, rfl⟩ := error
    · exact exec_lqRun_of_overrun past
    · have positive : runLength c s ≠ 0 := by
        refine Nat.mul_ne_zero (fun zero => nonzero (BitVec.eq_of_toNat_eq zero)) (Nat.two_pow_pos _).ne'
      have zero : s.i.toNat = 0 := by rw [first]; rfl
      have none : runSource s = none := (if_neg (by omega)).trans (if_neg (Bool.eq_false_iff.mp invalid))
      exact exec_lqRun_of_no_source fits positive none
  exact ⟨_, failed, failLegacy_sameOutside code (takeToken 4 s), rfl⟩

/-! ### SHIFT held at 16 (rule R27) -/

theorem raiseShift_toNat {s : State} {a : Nat} (h : s.shift.toNat = min a 16) (h8 : a % 8 = 0) :
    (raiseShift s).shift.toNat = min (a + 8) 16 := by
  unfold raiseShift
  dsimp only
  split
  next full => rw [h] at full; simp; omega
  next low => rw [BitVec.toNat_add, h]; simp; omega

/-- A count of at least 1 shifted by 16 or more passes the end of any row. -/
theorem room_lt_of_shifted {n a room : Nat} (hn : n ≠ 0) (ha : 16 ≤ a) (hr : room ≤ 65535) : room < n * 2 ^ a := by
  have power : 2 ^ 16 ≤ 2 ^ a := Nat.pow_le_pow_right (by decide) ha
  have count : 1 * 2 ^ a ≤ n * 2 ^ a := Nat.mul_le_mul_right _ (Nat.one_le_iff_ne_zero.mpr hn)
  omega

/-- Settles O14: below 16 the register is the true shift; from 16 on any count but 0 passes the end of the row, by the
true shift as by the saturated one. -/
theorem shiftSaturationIsInvisible : Obligations.ShiftSaturationIsInvisible := by
  intro s a c room h h8 hr
  refine ⟨raiseShift_toNat h h8, ?_⟩
  by_cases low : a ≤ 16
  · rw [runLength, h, Nat.min_eq_left low]
    exact ⟨Iff.rfl, fun _ => rfl⟩
  · rw [runLength, h, Nat.min_eq_right (by omega)]
    by_cases zero : c.toNat = 0
    · simp [zero]
    · have saturated := room_lt_of_shifted zero (Nat.le_refl 16) hr
      have true' := room_lt_of_shifted zero (show 16 ≤ a by omega) hr
      exact ⟨⟨fun _ => true', fun _ => saturated⟩, fun fits => absurd fits (Nat.not_le.mpr true')⟩

end Sys2Proof.Proofs
end

section
/-! The adaptive tokens with their whole next states, and the decoder at an empty stream (rules R42, R74 to R76, R83). -/

namespace Sys2Proof.Proofs

open Sys2Proof Sys2Proof.Machine

/-! ### Bytes of a plane (rules R75, R76) -/

section
variable {s : State}

theorem takeBytes_takeBytes (n m : Nat) : takeBytes m (takeBytes n s) = takeBytes (n + m) s := by
  simp [takeBytes, List.drop_drop, BitVec.ofNat_add, BitVec.add_assoc]

/-- J moves past `n` bytes that fit the plane without wrapping around. -/
theorem j_add_toNat {n : Nat} (h : s.j.toNat + n ≤ s.len) : (s.j + BitVec.ofNat 16 n).toNat = s.j.toNat + n := by
  have := len_lt s
  rw [BitVec.toNat_add, BitVec.toNat_ofNat, Nat.add_mod_mod, Nat.mod_eq_of_lt (by omega)]

variable (bs : List Byte)

theorem putPlane_rowByte {k : Nat} (hk : k < bs.length) :
    (putPlane bs s).rowByte (s.j.toNat + k) s.pl.toNat = bs[k] :=
  readByte_of_get? (Memory.get?_setPlane_at s.pl.toNat bs s.j.toNat s.mem hk)

theorem putPlane_sameOutside : sameOutside (inPlane s.pl.toNat s.j.toNat bs.length) s (putPlane bs s) := fun _ ha =>
  readByte_congr (Memory.get?_setPlane_outside s.pl.toNat bs s.j.toNat s.mem fun k h1 h2 e => ha ⟨k, h1, h2, e⟩) rfl

end

/-! ### The plane loop's tests (rule R74) -/

section
variable {s : State}

theorem closePlane_of_lt (hf : s.fsm = .dCtl) (h : s.j.toNat < s.len) : closePlane s = s := by
  rw [closePlane, if_pos h, ← hf]

theorem closePlane_of_next (h : s.len ≤ s.j.toNat) (hp : s.pl ≠ 3) :
    closePlane s = { s with pl := s.pl + 1, j := 0, fsm := .dCtl } :=
  (if_neg (Nat.not_lt.mpr h)).trans (if_neg hp)

theorem closePlane_of_last (h : s.len ≤ s.j.toNat) (hp : s.pl = 3) : closePlane s = decodeFinish s :=
  (if_neg (Nat.not_lt.mpr h)).trans (if_pos hp)

@[simp] theorem closePlane_readByte (a : Nat) : (closePlane s).readByte a = s.readByte a := by
  obtain ⟨-, h⟩ | ⟨-, -, h⟩ | ⟨-, -, h⟩ := closePlane_cases s <;> rw [h] <;> rfl

end

/-! ### Tokens that fit the plane -/

/-- The state in which a token of `n` bytes, whose data in the plane are `bs`, meets the plane loop's tests. -/
def afterToken (bs : List Byte) (n : Nat) (s : State) : State := putPlane bs (takeBytes n s)

section
variable {s : State} {bs : List Byte} {n : Nat}

theorem not_overruns_of_le {m : Nat} (h : s.j.toNat + m ≤ s.len) : ¬ overruns m (takeBytes 1 s) = true :=
  fun past => absurd (of_decide_eq_true past) (Nat.not_lt.mpr h)

theorem exec_adpRun_of_fits {m : BitVec 7} (v : Byte) (h : s.j.toNat + m.toNat ≤ s.len) :
    exec (.adpRun m v) s = .next (closePlane (afterToken (List.replicate m.toNat v) 2 s)) := by
  refine (if_neg (not_overruns_of_le h)).trans ?_
  rw [finishRun, takeBytes_takeBytes]
  rfl

theorem exec_adpLit_of_fits {data : List Byte} (h : s.j.toNat + data.length ≤ s.len) :
    exec (.adpLit data) s = .next (closePlane (afterToken data (1 + data.length) s)) := by
  refine (if_neg (not_overruns_of_le h)).trans ?_
  rw [takeBytes_takeBytes]
  rfl

theorem afterToken_rowByte {k : Nat} (hk : k < bs.length) :
    (closePlane (afterToken bs n s)).rowByte (s.j.toNat + k) s.pl.toNat = bs[k] :=
  (closePlane_readByte _).trans (putPlane_rowByte (s := takeBytes n s) bs hk)

theorem afterToken_sameOutside :
    sameOutside (inPlane s.pl.toNat s.j.toNat bs.length) s (closePlane (afterToken bs n s)) := fun a ha =>
  (closePlane_readByte a).trans (putPlane_sameOutside (s := takeBytes n s) bs a ha)

theorem afterToken_j_toNat (h : s.j.toNat + bs.length ≤ s.len) : (afterToken bs n s).j.toNat = s.j.toNat + bs.length :=
  j_add_toNat h

/-- The plane goes on behind the token. -/
theorem closePlane_afterToken_of_lt (hf : s.fsm = .dCtl) (h : s.j.toNat + bs.length < s.len) :
    closePlane (afterToken bs n s) = { s with
      mem := (closePlane (afterToken bs n s)).mem, q := s.q.drop n, incount := s.incount + BitVec.ofNat 32 n,
      j := s.j + BitVec.ofNat 16 bs.length } := by
  have inside : (afterToken bs n s).j.toNat < (afterToken bs n s).len := by
    rw [afterToken_j_toNat (Nat.le_of_lt h)]
    exact h
  rw [closePlane_of_lt (s := afterToken bs n s) hf inside]
  rfl

/-- The token fills its plane, and another plane follows. -/
theorem closePlane_afterToken_of_next (hf : s.fsm = .dCtl) (h : s.j.toNat + bs.length = s.len) (hp : s.pl ≠ 3) :
    closePlane (afterToken bs n s) = { s with
      mem := (closePlane (afterToken bs n s)).mem, q := s.q.drop n, incount := s.incount + BitVec.ofNat 32 n,
      pl := s.pl + 1, j := 0 } := by
  have full : (afterToken bs n s).len ≤ (afterToken bs n s).j.toNat := by
    rw [afterToken_j_toNat h.le]
    exact h.ge
  rw [closePlane_of_next (s := afterToken bs n s) full hp]
  simp [afterToken, putPlane, takeBytes, hf]

/-- The token fills the last plane and so the row. -/
theorem closePlane_afterToken_of_last (h : s.j.toNat + bs.length = s.len) (hp : s.pl = 3) :
    closePlane (afterToken bs n s) = { s with
      mem := (closePlane (afterToken bs n s)).mem, q := s.q.drop n, incount := s.incount + BitVec.ofNat 32 n,
      j := s.j + BitVec.ofNat 16 bs.length, prevpix := (closePlane (afterToken bs n s)).rowPixel (s.len - 1),
      prevValid := true, pos := s.lenField, plane := if s.path = 2 then 3 else 0, done := true, err := false,
      errcode := 0, fsm := .idle, hold := [], offer := none } := by
  have full : (afterToken bs n s).len ≤ (afterToken bs n s).j.toNat := by
    rw [afterToken_j_toNat h.le]
    exact h.ge
  rw [closePlane_of_last (s := afterToken bs n s) full hp]
  rfl

end

/-- Settles O17: a run that fits is written from J on, and the loop's tests decide by the new J and by PL. -/
theorem adpRunFillsPlane : Obligations.AdpRunFillsPlane := by
  intro s n v hf fits
  have size : (List.replicate n.toNat v).length = n.toNat := List.length_replicate
  have room : s.j.toNat + (List.replicate n.toNat v).length = s.j.toNat + n.toNat := by rw [size]
  refine ⟨_, exec_adpRun_of_fits v fits, fun k hk => ?_, ?_, fun more => ?_, fun full hp => ?_, fun full hp => ?_⟩
  · exact (afterToken_rowByte (by rwa [size])).trans (List.getElem_replicate _)
  · have outside := afterToken_sameOutside (s := s) (bs := List.replicate n.toNat v) (n := 2)
    rwa [size] at outside
  · have next := closePlane_afterToken_of_lt (n := 2) hf (room.trans_lt more)
    rwa [size] at next
  · exact closePlane_afterToken_of_next hf (room.trans full) hp
  · have next := closePlane_afterToken_of_last (n := 2) (room.trans full) hp
    rwa [size] at next

/-- Settles O18: a literal that fits is written from J on, and the loop's tests decide by the new J and by PL. -/
theorem adpLitFillsPlane : Obligations.AdpLitFillsPlane := by
  intro s data hf fits
  exact ⟨_, exec_adpLit_of_fits fits, fun k hk => afterToken_rowByte hk, afterToken_sameOutside,
    closePlane_afterToken_of_lt hf, closePlane_afterToken_of_next hf, closePlane_afterToken_of_last⟩

/-! ### A token that passes the plane's end (rules R75, R76, R116) -/

section
variable {s : State}

/-- The adaptive row failed at J of plane PL: the planes before, and the bytes of this one below J, stay. -/
theorem failAdaptive_sameOutside (code : BitVec 4) (s : State) :
    sameOutside (fun a => ∃ k p, k < s.len ∧ p < 4 ∧ a = rowAddr k p ∧
      (s.pl.toNat < p ∨ (p = s.pl.toNat ∧ s.j.toNat ≤ k))) s (failAdaptive code s) := by
  refine failDecode_sameOutside code s.j s.pl s fun k p hk hp unfilled => ⟨k, p, hk, hp, rfl, ?_⟩
  have := of_decide_eq_false unfilled
  omega

theorem overruns_of_lt {n : Nat} (h : s.len < s.j.toNat + n) : overruns n (takeBytes 1 s) = true := decide_eq_true h

theorem exec_adpRun_of_overrun {n : BitVec 7} (v : Byte) (h : s.len < s.j.toNat + n.toNat) :
    exec (.adpRun n v) s = .next (failAdaptive errOverrun (takeBytes 1 s)) := if_pos (overruns_of_lt h)

theorem exec_adpLit_of_overrun {data : List Byte} (h : s.len < s.j.toNat + data.length) :
    exec (.adpLit data) s = .next (failAdaptive errOverrun (takeBytes 1 s)) := if_pos (overruns_of_lt h)

theorem controlCount_eq (c : Byte) : controlCount c = if 128 < c.toNat then c.toNat - 128 else c.toNat := by
  unfold controlCount
  cases run : isRunControl c with
  | true => rw [if_pos rfl, if_pos (of_decide_eq_true run), runCount_toNat run]
  | false => rw [if_neg nofun, if_neg (of_decide_eq_false run)]

/-- The engine's step at a control byte that announces too many bytes, whether they are in the stream or not. -/
theorem step_of_overrun {c : Byte} {more : List Byte} (hr : s.inReset = false) (ha : s.agenda = []) (hf : s.fsm = .dCtl)
    (hq : s.q = c :: more) (past : s.len < s.j.toNat + controlCount c) :
    step s = .next (failAdaptive errOverrun (takeBytes 1 s)) := by
  cases hn : nextInstr s with
  | some i =>
    rw [step_of_nextInstr hr ha hn]
    cases token_of_nextInstr hn with
    | run _ positive bytes =>
      rw [hq] at bytes
      cases bytes
      rw [controlCount, isRunControl_runControl positive, runCount_runControl] at past
      exact exec_adpRun_of_overrun _ past
    | literal _ short bytes =>
      rw [hq] at bytes
      cases bytes
      rw [controlCount, isRunControl_literal short, literalControl_toNat short] at past
      exact exec_adpLit_of_overrun past
    | quad h | marker h | rawPixel h | encMarker h => rw [h] at hf; cases hf
  | none =>
    rw [step_of_partTurn hr ha hn]
    simp only [partTurn, hf]
    obtain ⟨-, e⟩ | ⟨fits, -⟩ := controlTurn_cases hq
    · rw [e]
    · rw [overruns_of_lt past] at fits
      cases fits

end

/-- Settles O19: the control byte is taken, and the row fails before any data byte is looked at. -/
theorem adaptiveOverrun : Obligations.AdaptiveOverrun := by
  intro s hf
  have outside := failAdaptive_sameOutside errOverrun (takeBytes 1 s)
  refine ⟨fun i n token past => ⟨_, ?_, outside, rfl⟩, fun c more hr ha hq past => ⟨_, ?_, outside, rfl⟩⟩
  · obtain ⟨m, v, rfl, rfl⟩ | ⟨data, rfl, rfl⟩ := token
    · exact exec_adpRun_of_overrun v past
    · exact exec_adpLit_of_overrun past
  · rw [← controlCount_eq] at past
    exact step_of_overrun hr ha hf hq past

/-! ### An empty stream (rule R42) -/

/-- How an error fails the row in a state of the decoder (rule R83). -/
def failHere (s : State) : BitVec 4 → State → State :=
  if s.fsm = .dQuad then failLegacy else if s.fsm.decodingPlane then failAdaptive else failMarker

section
variable {s : State} (hf : s.fsm.decoding = true) (hh : s.hold.length < 4) (hq : s.q = [])
include hf hh hq

theorem nextInstr_of_empty : nextInstr s = none := by
  cases h : nextInstr s with
  | none => rfl
  | some i =>
    cases token_of_nextInstr h with
    | quad _ bytes | marker _ bytes =>
      have := congrArg List.length bytes
      rw [hq, List.append_nil] at this
      simp at this
      omega
    | run _ _ bytes | literal _ _ bytes => rw [hq] at bytes; cases bytes
    | rawPixel state | encMarker state => rw [state] at hf; cases hf

omit hh in
theorem partTurn_of_empty : partTurn s = atEmpty (failHere s) s := by
  unfold failHere
  cases h : s.fsm <;> simp only [h, Fsm.decoding, Bool.false_eq_true] at hf
  all_goals simp [partTurn, h, peekTurn, partTokenTurn, controlTurn, runValueTurn, literalTurn, hq, Fsm.decodingPlane]

end

theorem failHere_sameOutside (code : BitVec 4) {s : State} (hf : s.fsm.decoding = true) :
    sameOutside (fun a => ∃ k p, k < s.len ∧ p < 4 ∧ a = rowAddr k p ∧
      (s.fsm = .dPeek ∨ s.fsm = .dMark ∨ (s.fsm = .dQuad ∧ s.i.toNat ≤ k) ∨
        (s.fsm.decodingPlane = true ∧ (s.pl.toNat < p ∨ (p = s.pl.toNat ∧ s.j.toNat ≤ k))))) s
      (failHere s code s) := by
  unfold failHere
  split
  next quad =>
    refine failDecode_sameOutside code s.i 0 s fun k p hk hp unfilled => ⟨k, p, hk, hp, rfl, ?_⟩
    exact .inr (.inr (.inl ⟨quad, Nat.not_lt.mp (of_decide_eq_false unfilled)⟩))
  next quad =>
    split
    next plane =>
      refine failDecode_sameOutside code s.j s.pl s fun k p hk hp unfilled => ⟨k, p, hk, hp, rfl, ?_⟩
      have := of_decide_eq_false unfilled
      exact .inr (.inr (.inr ⟨plane, by omega⟩))
    next plane =>
      refine failDecode_sameOutside code 0 0 s fun k p hk hp _ => ⟨k, p, hk, hp, rfl, ?_⟩
      cases h : s.fsm <;> simp_all [Fsm.decoding, Fsm.decodingPlane]

theorem failHere_eq (code : BitVec 4) (s : State) : failHere s code s = { s with
    mem := (failHere s code s).mem, hold := [], prevValid := false,
    pos := if s.fsm = .dQuad then s.i else if s.fsm.decodingPlane then s.j else 0,
    plane := if s.fsm.decodingPlane then s.pl else 0,
    errcode := code, err := true, done := false, fsm := .idle, offer := none, fresh := s.fresh + 1 } := by
  unfold failHere
  by_cases quad : s.fsm = .dQuad
  · simp only [if_pos quad]
    rw [quad]
    rfl
  · simp only [if_neg quad]
    by_cases plane : s.fsm.decodingPlane = true
    · simp only [if_pos plane]
      rfl
    · simp only [if_neg plane]
      rfl

/-- Settles O21: with no byte there and the end set, the engine fails the row where it stands. -/
theorem endOfStreamFails : Obligations.EndOfStreamFails := by
  intro s hr ha hf hh hq ended
  have run : step s = .next (failHere s errEos s) := by
    rw [step_of_partTurn hr ha (nextInstr_of_empty hf hh hq), partTurn_of_empty hf hq]
    exact congrArg _ (if_pos ended)
  exact ⟨_, run, failHere_sameOutside errEos hf, failHere_eq errEos s⟩

/-- Settles O22: with no byte there and no end set, the engine's turn changes nothing, and during reset it moves no more
than that. -/
theorem decoderWaitsForInput : Obligations.DecoderWaitsForInput := by
  intro s ha hf hh hq open'
  obtain held | hr := s.inReset.eq_false_or_eq_true
  · simp [step, ha, engineTurn, held]
  · rw [step_of_partTurn hr ha (nextInstr_of_empty hf hh hq), partTurn_of_empty hf hq]
    exact congrArg _ (if_neg (by simp [open']))

end Sys2Proof.Proofs
end

section
/-! The encoder against the sink: the size of an encoding, what each emitting state offers, and a sink that refuses or
does not answer (rules R45, R96, R98, R100). -/

namespace Sys2Proof.Proofs

open Sys2Proof Sys2Proof.Machine

/-! ### The size of an encoded plane (rule R100) -/

/-- A literal span costs one count byte for every 128 bytes begun. -/
theorem literals_length_le (fuel : Nat) (bs : List Byte) :
    (literals fuel bs).length ≤ bs.length + (bs.length + 127) / 128 := by
  induction fuel generalizing bs with
  | zero => cases bs <;> simp [literals]
  | succ fuel ih =>
    cases bs with
    | nil => simp [literals]
    | cons b bs =>
      have rest := ih ((b :: bs).drop 128)
      simp only [literals, List.length_cons, List.length_append, List.length_take, List.length_drop] at rest ⊢
      omega

/-- From any position: a run costs two bytes and stands for at least four, which pays for the chunk it may cut. -/
theorem encodeFrom_length_le (f : Nat → Byte) (l fuel : Nat) {cur : Nat} (h : cur ≤ l) :
    (encodeFrom f l fuel cur).length ≤ (l - cur) + (l - cur + 127) / 128 := by
  induction fuel generalizing cur with
  | zero => exact Nat.zero_le _
  | succ fuel ih =>
    by_cases inside : cur < l
    · obtain last | ⟨b, rc, found, hb, hrc, -, hl⟩ := findRun_cases f (fuel := l) h (Nat.le_add_left _ _)
      · rw [encodeFrom_of_end f fuel inside last]
        have span := literals_length_le l (slice f cur l)
        rwa [slice_length] at span
      · have span := literals_length_le l (slice f cur b)
        have rest := ih (cur := b + rc) hl
        rw [slice_length] at span
        rw [encodeFrom_of_run f fuel inside found hrc, List.length_append, List.length_append, List.length_cons,
          List.length_singleton]
        omega
    · rw [encodeFrom_of_le f _ (Nat.not_lt.mp inside)]
      exact Nat.zero_le _

/-- Settles O30. -/
theorem encodedPlaneIsBounded : Obligations.EncodedPlaneIsBounded := fun f l =>
  encodeFrom_length_le f l l (Nat.zero_le l)

/-- A row's encoding is shorter than OUTCOUNT's range. -/
theorem encodeRowBytes_length_lt (s : State) (len : BitVec 16) : (encodeRowBytes s len).length < 2 ^ 32 := by
  have := len.isLt
  cases adaptive : adaptiveLen len.toNat with
  | true =>
    have planes (l : List Nat) : (l.flatMap fun p => encodePlane (fun x => s.rowByte x p) len.toNat).length ≤
        (len.toNat + (len.toNat + 127) / 128) * l.length := by
      induction l with
      | nil => exact Nat.zero_le _
      | cons p l ih =>
        have plane := encodedPlaneIsBounded (fun x => s.rowByte x p) len.toNat
        rw [List.flatMap_cons, List.length_append, List.length_cons, Nat.mul_succ]
        omega
    have four := planes (List.range' 0 4)
    rw [List.length_range'] at four
    rw [encodeRowBytes_of_adaptive adaptive, List.length_append, markerBytes]
    simp only [List.length_cons, List.length_nil]
    omega
  | false =>
    have pixels (l : List Nat) : (l.flatMap fun i => wordBytes (s.rowPixel i)).length = 4 * l.length := by
      induction l with
      | nil => rfl
      | cons i l ih => rw [List.flatMap_cons, List.length_append, ih, wordBytes_length, List.length_cons]; omega
    rw [encodeRowBytes_of_raw adaptive, pixels, List.length_range']
    omega

/-! ### What each emitting state offers (rule R96) -/

/-- The count byte of the next literal chunk. -/
def literalCount (s : State) : Byte := BitVec.ofNat 8 (min 128 (s.beg.toNat - s.cur.toNat))

/-- The bytes the engine offers in its state, up to the end of the token. -/
def offeredBytes (s : State) : List Byte :=
  match s.fsm with
  | .eRaw => (wordBytes (s.rowPixel s.cur.toNat)).drop s.k.toNat
  | .eMark => [2, 2, 0#1 ++ s.lenField.extractLsb' 8 7, s.lenField.extractLsb' 0 8].drop s.k.toNat
  | .eLitCtl => [literalCount s]
  | .eLitDat => [planeByte s s.cur.toNat]
  | .eRunCtl => [runControlByte s.rc.toNat]
  | .eRunVal => [planeByte s s.beg.toNat]
  | _ => []

/-- What the engine does once these bytes are accepted. -/
def afterOffered : Fsm → State → State
  | .eRaw => nextRawPixel
  | .eMark => startPlanes
  | .eLitCtl => fun t => { t with fsm := .eLitDat }
  | .eLitDat => nextLiteral
  | .eRunCtl => fun t => { t with fsm := .eRunVal }
  | .eRunVal => nextAfterRun
  | _ => id

/-- The state in which the bytes are offered: E_LITCTL counts its chunk first. -/
def offering (s : State) : State := { s with ln := if s.fsm = .eLitCtl then literalCount s else s.ln }

section
variable {s : State}

theorem offeredBytes_ne_nil (hf : s.fsm.emitting = true) : offeredBytes s ≠ [] := by
  unfold offeredBytes
  split
  case h_1 | h_2 => exact drop_k_ne_nil _ rfl
  case h_7 => simp_all [Fsm.emitting]
  all_goals exact List.cons_ne_nil _ _

theorem offering_of_ne (h : s.fsm ≠ .eLitCtl) : offering s = s := by
  rw [offering, if_neg h]

/-- A step in an emitting state offers its bytes and follows the sink's answer. -/
theorem step_of_emitting {f : Fsm} (hr : s.inReset = false) (ha : s.agenda = []) (hf : s.fsm = f)
    (emitting : f.emitting = true) :
    step s = .next (afterOutput f.inPlane (afterOffered f) (outPutAll (offeredBytes s) (offering s))) := by
  have same (h : f ≠ .eLitCtl) : offering s = s := offering_of_ne (hf ▸ h)
  cases f <;> simp only [Fsm.emitting, Bool.false_eq_true] at emitting
  case eLitCtl =>
    have counted : offering s = { s with ln := literalCount s } := by rw [offering, if_pos hf]
    have bytes : offeredBytes s = [literalCount s] := by simp only [offeredBytes, hf]
    rw [step_eLitCtl hr ha hf, counted, bytes]
    rfl
  all_goals rw [same nofun]; simp only [offeredBytes, hf]
  case eRaw => rw [step_eRaw hr ha hf]; rfl
  case eMark => rw [step_of_nextInstr hr ha (by simp only [nextInstr, hf]; rfl)]; rfl
  case eLitDat => rw [step_eLitDat hr ha hf]; rfl
  case eRunCtl => rw [step_eRunCtl hr ha hf]; rfl
  case eRunVal => rw [step_eRunVal hr ha hf]; rfl

end

/-- Settles O26: the sink takes the rest of the pixel, and the engine goes to the next pixel or to E_DONE. -/
theorem rawPixelEmitsFourBytes : Obligations.RawPixelEmitsFourBytes := by
  intro s r g b e hf hsink
  have four := outPutAll_drop_k (s := s) (bs := [r, g, b, e]) rfl hsink
  simp only [exec, execRawPixel, four, afterOutput_accepted, deliverAll, List.length_drop]
  rfl

/-! ### A sink that refuses or does not answer (rules R45, R98) -/

section
variable {s : State} {b : Byte} {bs : List Byte}

theorem outPut_of_refuses (b : Byte) (h : sinkRefuses s) :
    ∃ k, outPut b s = .failed { s with sink := k, offer := none } := by
  obtain ⟨n, sink, full⟩ | ⟨as, sink⟩ := h
  · exact ⟨s.sink, by simp [outPut, sink, Nat.not_lt.mpr full]⟩
  · exact ⟨.answers as, by simp [outPut, sink]⟩

theorem outPutAll_of_refuses (hb : bs ≠ []) (h : sinkRefuses s) :
    ∃ k, outPutAll bs s = .failed { s with sink := k, offer := none } := by
  match bs with
  | [b] => exact outPut_of_refuses b h
  | b :: c :: cs =>
    obtain ⟨k, refused⟩ := outPut_of_refuses b h
    exact ⟨k, by simp only [outPutAll, refused]⟩

theorem outPutAll_of_no_answer (h : s.sink = .answers []) :
    outPutAll (b :: bs) s = .waiting { s with offer := some b } := by
  have waits : outPut b s = .waiting { s with offer := some b } := by simp [outPut, h]
  match bs with
  | [] => exact waits
  | c :: cs => simp only [outPutAll, waits]

end

/-- Settles O27: the first byte offered is refused, and the command ends before anything else happens. -/
theorem writeFailureEndsCommand : Obligations.WriteFailureEndsCommand := by
  intro s hr ha hf refuses
  obtain ⟨k, failed⟩ := outPutAll_of_refuses (s := offering s) (offeredBytes_ne_nil hf) refuses
  rw [step_of_emitting hr ha rfl hf, failed]
  exact ⟨_, rfl, rfl⟩

theorem getElem?_of_drop_eq_cons {l bs : List Byte} {n : Nat} {b : Byte} (h : l.drop n = b :: bs) : l[n]? = some b := by
  rw [← List.head?_drop, h]
  rfl

/-- Byte `k` of a pixel's word. -/
theorem wordBytes_rowPixel_getElem? (s : State) (i : Nat) (k : BitVec 2) :
    (wordBytes (s.rowPixel i))[k.toNat]? = some (s.rowByte i k.toNat) := by
  rw [State.rowPixel, State.readWord, wordBytes_wordOfBytes]
  match h : k.toNat, k.isLt with
  | 0, _ | 1, _ | 2, _ | 3, _ => rfl

/-- Settles O28: the byte that stays on offer is the first of those the state offers. -/
theorem encoderWaitsForSink : Obligations.EncoderWaitsForSink := by
  intro s hr ha hf hsink
  obtain ⟨b, bs, bytes⟩ := List.exists_cons_of_ne_nil (offeredBytes_ne_nil hf)
  have waits : outPutAll (offeredBytes s) (offering s) = .waiting { offering s with offer := some b } := by
    rw [bytes]
    exact outPutAll_of_no_answer hsink
  refine ⟨b, ?_, fun h => ?_, fun h short => ?_, fun h => ?_, fun h => ?_, fun h => ?_, fun h => ?_⟩
  · rw [step_of_emitting hr ha rfl hf, waits]
    rfl
  all_goals simp only [offeredBytes, h, List.cons.injEq] at bytes
  · have first := getElem?_of_drop_eq_cons bytes
    rw [wordBytes_rowPixel_getElem?] at first
    exact (Option.some.inj first).symm
  · have first := getElem?_of_drop_eq_cons bytes
    rwa [marker_high_byte short] at first
  all_goals exact bytes.1.symm

end Sys2Proof.Proofs
end

section
/-! A sink that fails after `n` bytes against a sink that takes all (rules R45, R98): step by step both runs agree, up to
the step that would pass byte `n`. -/

namespace Sys2Proof.Proofs

open Sys2Proof Sys2Proof.Machine

/-! ### Offering bytes to a sink that fails after `n` -/

/-- The same state with another sink. -/
def withSink (k : Sink) (s : State) : State := { s with sink := k }

section
variable {s : State} {n : Nat}

theorem outcount_add_toNat {m : Nat} (h : s.outcount.toNat + m < 2 ^ 32) :
    (s.outcount + BitVec.ofNat 32 m).toNat = s.outcount.toNat + m := by
  rw [BitVec.toNat_add, BitVec.toNat_ofNat, Nat.add_mod_mod, Nat.mod_eq_of_lt h]

theorem outPut_failAt_of_lt {b : Byte} (h : s.outcount.toNat < n) :
    outPut b (withSink (.failAt n) s) = .accepted (withSink (.failAt n) (deliver b s)) := if_pos h

theorem outPut_failAt_of_le {b : Byte} (h : n ≤ s.outcount.toNat) :
    outPut b (withSink (.failAt n) s) = .failed (withSink (.failAt n) { s with offer := none }) :=
  if_neg (Nat.not_lt.mpr h)

/-- The state in which the sink has taken a token's bytes, K counting those before the last. -/
def acceptedAll (bs : List Byte) (s : State) : State :=
  { deliverAll bs s with k := s.k + BitVec.ofNat 2 (bs.length - 1) }

theorem acceptedAll_cons (b c : Byte) (cs : List Byte) :
    acceptedAll (b :: c :: cs) s = acceptedAll (c :: cs) { deliver b s with k := s.k + 1 } := by
  have counted : s.k + BitVec.ofNat 2 (cs.length + 1) = s.k + 1 + BitVec.ofNat 2 cs.length := by
    rw [Nat.add_comm, BitVec.ofNat_add, BitVec.add_assoc]
    rfl
  have delivered : deliverAll (b :: c :: cs) s = deliverAll (c :: cs) (deliver b s) := deliverAll_append [b] (c :: cs)
  simp only [acceptedAll, delivered, List.length_cons, Nat.add_sub_cancel, counted]
  rfl

theorem outPutAll_eq_acceptedAll {bs : List Byte} (h : s.sink = .acceptAll) (hb : bs ≠ []) :
    outPutAll bs s = .accepted (acceptedAll bs s) := outPutAll_acceptAll h hb

/-- As long as the sink does not fail, it answers as one that takes all. -/
theorem outPutAll_failAt_of_le {bs : List Byte} (hb : bs ≠ []) (hn : s.outcount.toNat + bs.length ≤ n)
    (h32 : n < 2 ^ 32) :
    outPutAll bs (withSink (.failAt n) s) = .accepted (withSink (.failAt n) (acceptedAll bs s)) := by
  induction bs generalizing s with
  | nil => exact absurd rfl hb
  | cons b bs ih =>
    rw [List.length_cons] at hn
    have first := outPut_failAt_of_lt (b := b) (s := s) (n := n) (by omega)
    match bs with
    | [] =>
      have kept : acceptedAll [b] s = deliver b s := by simp [acceptedAll, deliverAll, deliver]
      rw [kept]
      exact first
    | c :: cs =>
      have counted : (deliver b s).outcount.toNat = s.outcount.toNat + 1 := outcount_add_toNat (m := 1) (by omega)
      simp only [outPutAll, first]
      rw [acceptedAll_cons]
      exact ih (s := { deliver b s with k := s.k + 1 }) (by simp) (show (deliver b s).outcount.toNat + _ ≤ n by omega)

/-- The state in which a sink has taken `bs` and then refuses. -/
def refusedAfter (bs : List Byte) (k : BitVec 2) (s : State) : State := { deliverAll bs s with k := k }

/-- The sink refuses byte `n`: the bytes before it are delivered. -/
theorem outPutAll_failAt_of_lt {bs : List Byte} (hle : s.outcount.toNat ≤ n) (hn : n < s.outcount.toNat + bs.length)
    (h32 : n < 2 ^ 32) :
    ∃ k, outPutAll bs (withSink (.failAt n) s) =
      .failed (withSink (.failAt n) (refusedAfter (bs.take (n - s.outcount.toNat)) k s)) := by
  induction bs generalizing s with
  | nil => rw [List.length_nil] at hn; omega
  | cons b bs ih =>
    rw [List.length_cons] at hn
    obtain full | more := hle.eq_or_lt
    · have refused := outPut_failAt_of_le (b := b) (s := s) full.ge
      have none : refusedAfter ((b :: bs).take (n - s.outcount.toNat)) s.k s = { s with offer := none } := by
        rw [full, Nat.sub_self, List.take_zero]
        simp [refusedAfter, deliverAll]
      rw [← none] at refused
      match bs with
      | [] => exact ⟨s.k, refused⟩
      | c :: cs => exact ⟨s.k, by simp only [outPutAll, refused]⟩
    · have first := outPut_failAt_of_lt (b := b) more
      have counted : (deliver b s).outcount.toNat = s.outcount.toNat + 1 := outcount_add_toNat (m := 1) (by omega)
      match bs with
      | [] => rw [List.length_nil] at hn; omega
      | c :: cs =>
        obtain ⟨k, rest⟩ := ih (s := { deliver b s with k := s.k + 1 })
          (show (deliver b s).outcount.toNat ≤ n by omega) (show n < (deliver b s).outcount.toNat + _ by omega)
        have left : n - s.outcount.toNat = n - (deliver b s).outcount.toNat + 1 := by omega
        have delivered (bs : List Byte) : deliverAll (b :: bs) s = deliverAll bs (deliver b s) :=
          deliverAll_append [b] bs
        refine ⟨k, ?_⟩
        simp only [outPutAll, first]
        rw [left, List.take_succ_cons, refusedAfter, delivered]
        exact rest

end

/-! ### One step of both runs -/

/-- The engine encodes, or has ended its command. -/
def EncodingOrIdle (s : State) : Prop := s.fsm.encoding = true ∨ s.fsm = .idle

/-- The state in which a sink that fails after `n` bytes has left the command. -/
structure FailedRun (s t : State) (out : List Byte) (n : Nat) : Prop where
  kept : encodeKept t = encodeKept s
  sunk : t.sunk = s.sunk ++ out
  outcount : t.outcount = BitVec.ofNat 32 n
  fsm : t.fsm = .idle
  done : t.done = false
  err : t.err = true
  errcode : t.errcode = 5
  offer : t.offer = none

/-- A step of the undisturbed run from `s` to `c` delivers `bs`, and the run whose sink fails after `n` bytes does the
same or, where `bs` reaches past byte `n`, fails. -/
structure StepsAlike (s c : State) (bs : List Byte) : Prop where
  step : step s = .next c
  sunk : c.sunk = s.sunk ++ bs
  outcount : c.outcount = s.outcount + BitVec.ofNat 32 bs.length
  kept : encodeKept c = encodeKept s
  sink : c.sink = s.sink
  phase : EncodingOrIdle c
  alike : ∀ n, n < 2 ^ 32 → s.outcount.toNat + bs.length ≤ n →
    Machine.step (withSink (.failAt n) s) = .next (withSink (.failAt n) c)
  fails : ∀ n, n < 2 ^ 32 → s.outcount.toNat ≤ n → n < s.outcount.toNat + bs.length →
    ∃ t, Machine.step (withSink (.failAt n) s) = .next t ∧ FailedRun s t (bs.take (n - s.outcount.toNat)) n

section
variable {s : State}

/-- A step that offers nothing. -/
theorem stepsAlike_of_silent {turn : State → State} (hs : step s = .next (turn s)) (sunk : (turn s).sunk = s.sunk)
    (outcount : (turn s).outcount = s.outcount) (kept : encodeKept (turn s) = encodeKept s)
    (sink : (turn s).sink = s.sink) (phase : EncodingOrIdle (turn s))
    (alike : ∀ n, step (withSink (.failAt n) s) = .next (withSink (.failAt n) (turn s))) :
    StepsAlike s (turn s) [] where
  step := hs
  sunk := by rw [sunk, List.append_nil]
  outcount := by simp [outcount]
  kept := kept
  sink := sink
  phase := phase
  alike := fun n _ _ => alike n
  fails := fun n _ h1 h2 => absurd h2 (Nat.not_lt.mpr h1)

/-! Turns that do not look at the sink. -/

theorem scanTurn_withSink (k : Sink) : scanTurn (withSink k s) = withSink k (scanTurn s) := by
  unfold scanTurn
  rw [apply_ite (withSink k), apply_ite (withSink k)]
  rfl

theorem nextPlaneTurn_withSink (k : Sink) : nextPlaneTurn (withSink k s) = withSink k (nextPlaneTurn s) := by
  unfold nextPlaneTurn
  rw [apply_ite (withSink k)]
  rfl

theorem scanTurn_phase (hf : s.fsm = .eScan) : EncodingOrIdle (scanTurn s) := by
  left
  unfold scanTurn
  split
  · dsimp only
    split <;> rfl
  · split
    · dsimp only
      split <;> rfl
    · simp only [hf]
      rfl

theorem nextPlaneTurn_phase : EncodingOrIdle (nextPlaneTurn s) := by
  left
  unfold nextPlaneTurn
  split <;> rfl

/-- What the engine does behind accepted bytes leaves the stream side alone, whatever the sink is. -/
theorem afterOffered_streams (f : Fsm) (t : State) :
    (afterOffered f t).sunk = t.sunk ∧ (afterOffered f t).outcount = t.outcount ∧ (afterOffered f t).sink = t.sink := by
  cases f <;> exact ⟨rfl, rfl, rfl⟩

theorem afterOffered_withSink (f : Fsm) (k : Sink) (t : State) :
    afterOffered f (withSink k t) = withSink k (afterOffered f t) := by
  cases f <;> rfl

theorem afterOffered_phase {f : Fsm} (hf : f.emitting = true) (t : State) : EncodingOrIdle (afterOffered f t) := by
  left
  cases f <;> simp only [Fsm.emitting, Bool.false_eq_true] at hf
  case eMark | eLitCtl | eRunCtl => rfl
  case eRaw =>
    simp only [afterOffered, nextRawPixel]
    split <;> rfl
  case eLitDat =>
    simp only [afterOffered, nextLiteral]
    split_ifs <;> rfl
  case eRunVal =>
    simp only [afterOffered, nextAfterRun]
    split <;> rfl

theorem step_emits {t : State} (ha : s.agenda = []) (hf : s.fsm.encoding = true) (h : step s = .next t) :
    Emits s t := by
  simp only [step, ha] at h
  exact engineTurn_emits hf h

theorem encoding_of_emitting (hf : s.fsm.emitting = true) : s.fsm.encoding = true := by
  cases h : s.fsm <;> simp only [h, Fsm.emitting, Bool.false_eq_true] at hf <;> rfl

theorem stepsAlike_of_emitting (hs : Undisturbed s) (hf : s.fsm.emitting = true) :
    StepsAlike s (afterOffered s.fsm (acceptedAll (offeredBytes s) (offering s))) (offeredBytes s) := by
  have some_bytes := offeredBytes_ne_nil hf
  have run (k : Sink) : step (withSink k s) = .next (afterOutput s.fsm.inPlane (afterOffered s.fsm)
      (outPutAll (offeredBytes s) (withSink k (offering s)))) :=
    step_of_emitting (s := withSink k s) hs.inReset hs.agenda rfl hf
  have turn : step s = .next (afterOffered s.fsm (acceptedAll (offeredBytes s) (offering s))) := by
    rw [step_of_emitting hs.inReset hs.agenda rfl hf, outPutAll_eq_acceptedAll (s := offering s) hs.sink some_bytes]
    rfl
  obtain ⟨sunk, outcount, sink⟩ := afterOffered_streams s.fsm (acceptedAll (offeredBytes s) (offering s))
  refine ⟨turn, sunk, outcount, (step_emits hs.agenda (encoding_of_emitting hf) turn).1, sink,
    afterOffered_phase hf _, fun n h32 fits => ?_, fun n h32 le past => ?_⟩
  · rw [run, outPutAll_failAt_of_le (s := offering s) some_bytes fits h32, afterOutput_accepted, afterOffered_withSink]
  · obtain ⟨k, refused⟩ := outPutAll_failAt_of_lt (s := offering s) le past h32
    have failed := run (.failAt n)
    rw [refused, afterOutput_failed] at failed
    refine ⟨_, failed, ?_⟩
    have kept := (step_emits (s := withSink (.failAt n) s) hs.agenda (encoding_of_emitting hf) failed).1
    have counted : s.outcount + BitVec.ofNat 32 ((offeredBytes s).take (n - s.outcount.toNat)).length =
        BitVec.ofNat 32 n := by
      apply BitVec.eq_of_toNat_eq
      rw [List.length_take, outcount_add_toNat (by omega), BitVec.toNat_ofNat]
      omega
    exact ⟨kept, rfl, counted, rfl, rfl, rfl, rfl, rfl⟩

/-- Every step of an encoding engine, or of one that is done, is of these kinds. -/
theorem exists_stepsAlike (hs : Undisturbed s) (hp : EncodingOrIdle s) : ∃ c bs, StepsAlike s c bs := by
  by_cases emitting : s.fsm.emitting = true
  · exact ⟨_, _, stepsAlike_of_emitting hs emitting⟩
  obtain encoding | idle := hp
  · have kept {c : State} (h : step s = .next c) := (step_emits hs.agenda encoding h).1
    cases hf : s.fsm <;> simp only [hf, Fsm.emitting, Fsm.encoding, Bool.false_eq_true, not_true] at encoding emitting
    case eScan =>
      have turn := step_eScan hs.inReset hs.agenda hf
      have streams : (scanTurn s).sunk = s.sunk ∧ (scanTurn s).outcount = s.outcount ∧ (scanTurn s).sink = s.sink := by
        unfold scanTurn
        split_ifs <;> exact ⟨rfl, rfl, rfl⟩
      obtain ⟨sunk, outcount, sink⟩ := streams
      refine ⟨_, _, stepsAlike_of_silent turn sunk outcount (kept turn) sink (scanTurn_phase hf) fun n => ?_⟩
      exact (step_eScan (s := withSink (.failAt n) s) hs.inReset hs.agenda hf).trans (congrArg _ (scanTurn_withSink _))
    case eNext =>
      have turn := step_eNext hs.inReset hs.agenda hf
      have streams : (nextPlaneTurn s).sunk = s.sunk ∧ (nextPlaneTurn s).outcount = s.outcount ∧
          (nextPlaneTurn s).sink = s.sink := by
        unfold nextPlaneTurn
        split_ifs <;> exact ⟨rfl, rfl, rfl⟩
      refine ⟨_, _, stepsAlike_of_silent turn streams.1 streams.2.1 (kept turn) streams.2.2 nextPlaneTurn_phase
        fun n => ?_⟩
      exact (step_eNext (s := withSink (.failAt n) s) hs.inReset hs.agenda hf).trans
        (congrArg _ (nextPlaneTurn_withSink _))
    case eDone =>
      have turn := step_eDone hs.inReset hs.agenda hf
      exact ⟨_, _, stepsAlike_of_silent turn rfl rfl (kept turn) rfl (.inr rfl)
        fun n => step_eDone (s := withSink (.failAt n) s) hs.inReset hs.agenda hf⟩
  · have still (k : Sink) : step (withSink k s) = .next (withSink k s) := by
      have ha : (withSink k s).agenda = [] := hs.agenda
      simp only [step, ha]
      exact engineTurn_of_idle (s := withSink k s) idle
    have turn : step s = .next s := still s.sink
    exact ⟨_, _, stepsAlike_of_silent (turn := id) turn rfl rfl rfl rfl (.inr idle) fun n => still _⟩

end

/-! ### The whole run -/

section
variable {s c f t : State} {bs cs ds out : List Byte} {n : Nat}

theorem Reaches.sunk (h : Reaches s f) : s.sunk <+: f.sunk := by
  induction h with
  | refl => exact List.prefix_rfl
  | tail _ last ih => exact ih.trans (step_stepFrame last).2

theorem StepsAlike.undisturbed (h : StepsAlike s c bs) (hs : Undisturbed s) : Undisturbed c := by
  have kept := h.kept
  simp only [encodeKept, Prod.mk.injEq] at kept
  obtain ⟨-, inReset, -, -, -, agenda, -⟩ := kept
  exact ⟨inReset.trans hs.inReset, agenda.trans hs.agenda, h.sink.trans hs.sink⟩

theorem StepsAlike.failedRun (h : StepsAlike s c cs) (ht : FailedRun c t out n) : FailedRun s t (cs ++ out) n :=
  ⟨ht.kept.trans h.kept, by rw [ht.sunk, h.sunk, List.append_assoc], ht.outcount, ht.fsm, ht.done, ht.err, ht.errcode,
    ht.offer⟩

/-- If the undisturbed run delivers `bs`, reaching past byte `n`, then the run with the failing sink delivers the bytes
of `bs` up to byte `n` and fails. -/
theorem failing_run (h : Reaches s f) (hs : Undisturbed s) (hp : EncodingOrIdle s) (h32 : n < 2 ^ 32)
    (le : s.outcount.toNat ≤ n) (sunk : f.sunk = s.sunk ++ bs) (past : n < s.outcount.toNat + bs.length) :
    ∃ t, Reaches (withSink (.failAt n) s) t ∧ FailedRun s t (bs.take (n - s.outcount.toNat)) n := by
  induction h using Relation.ReflTransGen.head_induction_on generalizing bs with
  | refl =>
    rw [List.self_eq_append_right.mp sunk, List.length_nil] at past
    omega
  | @head s c first rest ih =>
    obtain ⟨c', cs, alike⟩ := exists_stepsAlike hs hp
    cases alike.step.symm.trans first
    obtain ⟨ds, split⟩ := Reaches.sunk rest
    rw [alike.sunk, List.append_assoc, sunk] at split
    obtain rfl := List.append_cancel_left split
    by_cases within : n < s.outcount.toNat + cs.length
    · obtain ⟨t, failed, run⟩ := alike.fails n h32 le within
      refine ⟨t, .of_step failed, ?_⟩
      rwa [List.take_append_of_le_length (by omega)]
    · rw [List.length_append] at past
      have moved : c.outcount.toNat = s.outcount.toNat + cs.length := by
        rw [alike.outcount]
        exact outcount_add_toNat (by omega)
      obtain ⟨t, run, failed⟩ := ih (bs := ds) (alike.undisturbed hs) alike.phase (by omega)
        (by rw [alike.sunk, List.append_assoc, sunk]) (by omega)
      refine ⟨t, .head (alike.alike n h32 (by omega)) run, ?_⟩
      have cut : (cs ++ ds).take (n - s.outcount.toNat) = cs ++ ds.take (n - c.outcount.toNat) := by
        rw [List.take_append, List.take_of_length_le (by omega), moved]
        congr 2
        omega
      rw [cut]
      exact alike.failedRun failed

end

/-- Settles O32: the row is emitted as to a sink that takes all, up to byte `n`. -/
theorem sinkFailureTruncatesRow : Obligations.SinkFailureTruncatesRow := by
  intro s len n hready hlen hsink hagenda short
  have hs : Undisturbed (withSink .acceptAll s) := ⟨hready.1, hagenda, rfl⟩
  have start : withSink (.failAt n) (encodeStarted len (withSink .acceptAll s)) = encodeStarted len s := by
    rw [← hsink]
    rfl
  obtain ⟨k, q, row⟩ := encodeStarted_reaches (len := len) hs hlen.1
  have size := encodeRowBytes_length_lt s len
  have phase : EncodingOrIdle (encodeStarted len (withSink .acceptAll s)) := by
    left
    simp only [encodeStarted]
    split <;> rfl
  obtain ⟨t, run, failed⟩ := failing_run (bs := encodeRowBytes s len) (n := n) row ⟨hs.inReset, hs.agenda, hs.sink⟩ phase
    (by omega) (Nat.zero_le n) rfl (short.trans_eq (Nat.zero_add _).symm)
  rw [start] at run
  obtain ⟨m, steps⟩ := run.exists_runSteps
  have kept := failed.kept
  simp only [encodeKept, Prod.mk.injEq] at kept
  obtain ⟨-, -, -, tag, -, -, q, -, mem, prevpix, prevValid⟩ := kept
  exact ⟨_, m, t, exec_encodeRow hready hlen, steps, failed.sunk, failed.outcount, failed.fsm, failed.done, failed.err,
    failed.errcode, failed.offer, mem, tag, prevpix, prevValid, q⟩

end Sys2Proof.Proofs
end

section
/-! The decoder inverts the plane encoding (rule R102): token by token, from any position of a plane. -/

namespace Sys2Proof.Proofs

open Sys2Proof Sys2Proof.Machine

/-! ### Tokens one after the other -/

/-- The engine stands at a control byte and moves by itself. -/
structure PlaneReady (s : State) : Prop where
  inReset : s.inReset = false
  agenda : s.agenda = []
  fsm : s.fsm = .dCtl

/-- The engine writes `data` from J on, consuming `n` bytes, and comes to the plane loop's tests. -/
def Decodes (s : State) (data : List Byte) (n : Nat) : Prop := Reaches s (closePlane (afterToken data n s))

section
variable {s : State} {data data' : List Byte} {n n' : Nat}

theorem PlaneReady.afterToken (h : PlaneReady s) : PlaneReady (afterToken data n s) := ⟨h.inReset, h.agenda, h.fsm⟩

theorem setPlane_append (p : Nat) (bs cs : List Byte) (i : Nat) (m : Memory) :
    Memory.setPlane p (bs ++ cs) i m = Memory.setPlane p cs (i + bs.length) (Memory.setPlane p bs i m) := by
  induction bs generalizing i m with
  | nil => rfl
  | cons b bs ih =>
    rw [List.cons_append, Memory.setPlane, ih, List.length_cons, Nat.add_right_comm, Nat.add_assoc]
    rfl

theorem afterToken_afterToken (h : s.j.toNat + data.length ≤ s.len) :
    afterToken data' n' (afterToken data n s) = afterToken (data ++ data') (n + n') s := by
  have moved := j_add_toNat h
  simp [afterToken, putPlane, takeBytes, setPlane_append, moved, List.drop_drop, BitVec.ofNat_add, BitVec.add_assoc]

/-- Data that leave room in the plane, and the data behind them. -/
theorem Decodes.append (h1 : Decodes s data n) (hf : s.fsm = .dCtl) (room : s.j.toNat + data.length < s.len)
    (h2 : Decodes (Proofs.afterToken data n s) data' n') : Decodes s (data ++ data') (n + n') := by
  have inside : (afterToken data n s).j.toNat < (afterToken data n s).len := by
    rw [afterToken_j_toNat (Nat.le_of_lt room)]
    exact room
  unfold Decodes at h1 h2 ⊢
  rw [closePlane_of_lt (s := afterToken data n s) hf inside] at h1
  rw [afterToken_afterToken (Nat.le_of_lt room)] at h2
  exact h1.trans h2

/-- A literal chunk at the head of the stream. -/
theorem decodes_literal {rest : List Byte} (h : PlaneReady s) (short : data.length ≤ 128)
    (fits : s.j.toNat + data.length ≤ s.len) (hq : s.q = BitVec.ofNat 8 data.length :: (data ++ rest)) :
    Decodes s data (1 + data.length) := by
  have token : nextInstr s = some (.adpLit data) := by
    simp only [nextInstr, h.fsm, hq]
    exact decodedInstr_of_ok (decodePlane_literal short rest)
  exact .of_step ((step_of_nextInstr h.inReset h.agenda token).trans (exec_adpLit_of_fits fits))

/-- A run at the head of the stream. -/
theorem decodes_run {m : Nat} {v : Byte} {rest : List Byte} (h : PlaneReady s) (positive : 1 ≤ m) (short : m ≤ 127)
    (fits : s.j.toNat + m ≤ s.len) (hq : s.q = runControlByte m :: v :: rest) :
    Decodes s (List.replicate m v) 2 := by
  have count : (BitVec.ofNat 7 m).toNat = m := by
    rw [BitVec.toNat_ofNat]
    omega
  have control : runControlByte m = runControl (BitVec.ofNat 7 m) := by
    apply BitVec.eq_of_toNat_eq
    rw [runControl_toNat, count, runControlByte, BitVec.toNat_ofNat]
    omega
  have nonzero : BitVec.ofNat 7 m ≠ 0 := fun zero => by
    have : (BitVec.ofNat 7 m).toNat = 0 := congrArg BitVec.toNat zero
    omega
  have token : nextInstr s = some (.adpRun (BitVec.ofNat 7 m) v) := by
    simp only [nextInstr, h.fsm, hq, control]
    exact decodedInstr_of_ok (decodePlane_runControl nonzero v rest)
  have turn := exec_adpRun_of_fits (s := s) (m := BitVec.ofNat 7 m) v (by rw [count]; exact fits)
  rw [count] at turn
  exact .of_step ((step_of_nextInstr h.inReset h.agenda token).trans turn)

end

/-! ### The parts of an encoded plane (rules R91 to R94) -/

section
variable (f : Nat → Byte) {l : Nat}

/-- FindRun gives the run that RunLen counts at its position. -/
theorem findRun_run {fuel beg b rc : Nat} (h : findRun f l fuel beg = (b, rc)) (hrc : 4 ≤ rc) : rc = runLen f l b := by
  induction fuel generalizing beg with
  | zero => cases h; omega
  | succ fuel ih =>
    rw [findRun] at h
    split_ifs at h
    · cases h; omega
    · cases h; rfl
    · exact ih h

theorem slice_of_run {b : Nat} : slice f b (b + runLen f l b) = List.replicate (runLen f l b) (f b) := by
  have same : ∀ n, (∀ k, k < n → f (b + k) = f b) → slice f b (b + n) = List.replicate n (f b) := by
    intro n equal
    rw [slice, Nat.add_sub_cancel_left, List.eq_replicate_iff, List.length_map, List.length_range]
    refine ⟨rfl, fun v hv => ?_⟩
    obtain ⟨k, hk, rfl⟩ := List.mem_map.mp hv
    exact equal k (List.mem_range.mp hk)
  exact same _ fun k => eq_of_lt_countEqual f (f b)

variable {f}
variable {s : State} {rest : List Byte}

theorem afterToken_q {data bytes : List Byte} (hq : s.q = bytes ++ rest) :
    (afterToken data bytes.length s).q = rest := by
  change s.q.drop bytes.length = rest
  rw [hq, List.drop_left]

/-- A literal span, chunk by chunk. -/
theorem decodes_span {fuel a b : Nat} (h : PlaneReady s) (ha : s.j.toNat = a) (hab : a < b) (hb : b ≤ s.len)
    (hfuel : b ≤ a + fuel) (hq : s.q = literals fuel (slice f a b) ++ rest) :
    Decodes s (slice f a b) (literals fuel (slice f a b)).length := by
  induction fuel generalizing s a with
  | zero => omega
  | succ fuel ih =>
    obtain ⟨n, hn⟩ : ∃ n, n = min 128 (b - a) := ⟨_, rfl⟩
    have size : (slice f a (a + n)).length = n := by rw [slice_length]; omega
    have bytes := literals_slice f fuel hab hn
    rw [bytes, List.cons_append, List.append_assoc] at hq
    have chunk : Decodes s (slice f a (a + n)) (1 + n) := by
      have literal := decodes_literal (data := slice f a (a + n)) h (by omega) (by omega) (by rw [size]; exact hq)
      rwa [size] at literal
    have count : (literals (fuel + 1) (slice f a b)).length = 1 + n + (literals fuel (slice f (a + n) b)).length := by
      rw [bytes, List.length_cons, List.length_append, size]
      omega
    rw [count]
    by_cases more : a + n < b
    · have moved : (afterToken (slice f a (a + n)) (1 + n) s).j.toNat = a + n := by
        rw [afterToken_j_toNat (by omega), size, ha]
      have left : (afterToken (slice f a (a + n)) (1 + n) s).q = literals fuel (slice f (a + n) b) ++ rest := by
        have taken := afterToken_q (data := slice f a (a + n)) (bytes := BitVec.ofNat 8 n :: slice f a (a + n)) hq
        rwa [List.length_cons, size, Nat.add_comm n 1] at taken
      rw [slice_append f (m := a + n) (by omega) (by omega)]
      exact chunk.append h.fsm (by omega) (ih h.afterToken moved more hb (by omega) left)
    · have whole : a + n = b := by omega
      rw [whole, slice_of_le f (Nat.le_refl b), literals_nil, List.length_nil, Nat.add_zero]
      rwa [whole] at chunk

/-- From a position on, everything the encoder emits for the plane is decoded. -/
def PlaneDecodes (f : Nat → Byte) (l fuel : Nat) : Prop :=
  ∀ (s : State) (rest : List Byte) (cur : Nat), PlaneReady s → s.len = l → s.j.toNat = cur → cur < l →
    l ≤ cur + fuel → s.q = encodeFrom f l fuel cur ++ rest →
    Decodes s (slice f cur l) (encodeFrom f l fuel cur).length

/-- A run found at J, and the plane behind it. -/
theorem decodes_run_then_plane {fuel b rc : Nat} (ih : PlaneDecodes f s.len fuel) (h : PlaneReady s)
    (hj : s.j.toNat = b) (hrc : 4 ≤ rc) (hmax : rc ≤ 127) (hl : b + rc ≤ s.len) (run : rc = runLen f s.len b)
    (hfuel : s.len ≤ b + (fuel + 1))
    (hq : s.q = [runControlByte rc, f b] ++ encodeFrom f s.len fuel (b + rc) ++ rest) :
    Decodes s (slice f b s.len) ([runControlByte rc, f b] ++ encodeFrom f s.len fuel (b + rc)).length := by
  have data : slice f b (b + rc) = List.replicate rc (f b) := by rw [run, slice_of_run]
  have size : (slice f b (b + rc)).length = rc := by rw [slice_length]; omega
  have first : Decodes s (slice f b (b + rc)) 2 := by
    rw [data]
    exact decodes_run h (by omega) hmax (by omega) hq
  rw [List.length_append, List.length_cons, List.length_singleton]
  by_cases more : b + rc < s.len
  · have moved : (afterToken (slice f b (b + rc)) 2 s).j.toNat = b + rc := by
      rw [afterToken_j_toNat (by omega), size, hj]
    have left : (afterToken (slice f b (b + rc)) 2 s).q = encodeFrom f s.len fuel (b + rc) ++ rest := by
      rw [List.append_assoc] at hq
      exact afterToken_q (bytes := [runControlByte rc, f b]) hq
    rw [slice_append f (m := b + rc) (by omega) hl]
    exact first.append h.fsm (by omega) (ih _ rest (b + rc) h.afterToken rfl moved more (by omega) left)
  · have full : b + rc = s.len := by omega
    rw [full, encodeFrom_of_le f fuel (Nat.le_refl _), List.length_nil]
    rwa [full] at first

end

/-- The decoder follows the encoder from any position (rule R102). -/
theorem planeDecodes (f : Nat → Byte) (l fuel : Nat) : PlaneDecodes f l fuel := by
  induction fuel with
  | zero => intro s rest cur _ _ _ inside hfuel; omega
  | succ fuel ih =>
    intro s rest cur h hlen hj inside hfuel hq
    subst hlen
    obtain last | ⟨b, rc, found, hb, hrc, hmax, hl⟩ :=
      findRun_cases f (fuel := s.len) (Nat.le_of_lt inside) (Nat.le_add_left _ _)
    · rw [encodeFrom_of_end f fuel inside last] at hq ⊢
      exact decodes_span h hj inside (Nat.le_refl _) (Nat.le_add_left _ _) hq
    · have run := findRun_run f found hrc
      rw [encodeFrom_of_run f fuel inside found hrc] at hq ⊢
      by_cases literal : cur < b
      · rw [List.append_assoc] at hq
        have span := decodes_span (f := f) (fuel := s.len) h hj literal (by omega) (by omega) hq
        have size : (slice f cur b).length = b - cur := slice_length f cur b
        have moved : (afterToken (slice f cur b) (literals s.len (slice f cur b)).length s).j.toNat = b := by
          rw [afterToken_j_toNat (by omega), size]
          omega
        rw [slice_append f (m := b) (by omega) (by omega), List.length_append]
        refine span.append h.fsm (by omega) ?_
        exact decodes_run_then_plane (s := afterToken _ _ s) ih h.afterToken moved hrc hmax hl run
          (show s.len ≤ b + (fuel + 1) by omega) (afterToken_q hq)
      · have here : cur = b := by omega
        subst here
        rw [slice_of_le f (Nat.le_refl _), literals_nil, List.nil_append] at hq ⊢
        exact decodes_run_then_plane ih h hj hrc hmax hl run (by omega) hq

/-! ### A whole plane -/

section
variable {s : State} {f : Nat → Byte} {rest : List Byte}

/-- The state in which a decoded plane meets the plane loop's tests. -/
def afterPlane (f : Nat → Byte) (s : State) : State :=
  afterToken (slice f 0 s.len) (encodePlane f s.len).length s

theorem afterPlane_reached (h : PlaneReady s) (hj : s.j = 0) (hl : 0 < s.len) (hq : s.q = encodePlane f s.len ++ rest) :
    Reaches s (closePlane (afterPlane f s)) :=
  planeDecodes f s.len s.len s rest 0 h rfl (by rw [hj]; rfl) hl (Nat.le_add_left _ _) hq

theorem afterPlane_fits (hj : s.j = 0) : s.j.toNat + (slice f 0 s.len).length = s.len := by
  rw [slice_length, hj]
  exact Nat.zero_add _

theorem afterPlane_rowByte (hj : s.j = 0) {x : Nat} (hx : x < s.len) :
    (closePlane (afterPlane f s)).rowByte x s.pl.toNat = f x := by
  have byte := afterToken_rowByte (s := s) (n := (encodePlane f s.len).length) (bs := slice f 0 s.len) (k := x)
    (by rw [slice_length]; exact hx)
  have first : s.j.toNat + x = x := by rw [hj]; exact Nat.zero_add x
  rw [first] at byte
  exact byte.trans (by simp [slice])

theorem afterPlane_sameOutside (hj : s.j = 0) :
    sameOutside (inPlane s.pl.toNat 0 s.len) s (closePlane (afterPlane f s)) := by
  have outside := afterToken_sameOutside (s := s) (bs := slice f 0 s.len) (n := (encodePlane f s.len).length)
  rw [slice_length, hj] at outside
  exact outside

theorem closePlane_q (s : State) : (closePlane s).q = s.q := congrArg (fun k => k.2.1) (closePlane_streams s)

theorem closePlane_incount (s : State) : (closePlane s).incount = s.incount :=
  congrArg (fun k => k.2.2.1) (closePlane_streams s)

theorem afterPlane_q (hq : s.q = encodePlane f s.len ++ rest) : (closePlane (afterPlane f s)).q = rest :=
  (closePlane_q _).trans (afterToken_q hq)

end

/-- Settles O33: the tokens of the encoding write the plane byte by byte, and the last one ends it. -/
theorem encodedPlaneDecodes : Obligations.EncodedPlaneDecodes := by
  intro s f rest hr ha hf hj long _ hq
  obtain ⟨n, run⟩ := (afterPlane_reached ⟨hr, ha, hf⟩ hj (Nat.lt_of_lt_of_le (by decide) long) hq).exists_runSteps
  have full := afterPlane_fits (f := f) hj
  refine ⟨n, _, run, fun x hx => afterPlane_rowByte hj hx, afterPlane_sameOutside hj, afterPlane_q hq,
    closePlane_incount _, fun last => ?_, fun more => ?_⟩
  · have ended := closePlane_afterToken_of_last (n := (encodePlane f s.len).length) full last
    exact ⟨congrArg State.fsm ended, congrArg State.done ended, congrArg State.err ended⟩
  · have next := closePlane_afterToken_of_next (n := (encodePlane f s.len).length) hf full more
    exact ⟨(congrArg State.fsm next).trans hf, congrArg State.pl next, congrArg State.j next⟩

end Sys2Proof.Proofs
end

section
/-! Decoding what ENCODE_ROW emits restores the row (rule R86): the adaptive row plane by plane, the raw row pixel by
pixel. -/

namespace Sys2Proof.Proofs

open Sys2Proof Sys2Proof.Machine

/-! ### A decoded row -/

/-- The state in which the row `src` of `l` pixels stands decoded, `bytes` consumed and `rest` left, just before
DecodeFinish. -/
structure RowDecoded (s t : State) (src : Nat → Word) (l : Nat) (bytes rest : List Byte) : Prop where
  q : t.q = rest
  incount : t.incount = s.incount + BitVec.ofNat 32 bytes.length
  path : t.path = s.path
  cmd : t.cmd = s.cmd
  row : ∀ x, x < l → t.rowPixel x = src x

section
variable {s t : State} {src : Nat → Word} {l : Nat} {bytes rest : List Byte}

/-- DecodeFinish reports the decoded row (rule R82). -/
theorem RowDecoded.finish (h : RowDecoded s t src l bytes rest) (hl : s.len = l) (pos : 0 < l) :
    (decodeFinish t).fsm = .idle ∧ (decodeFinish t).done = true ∧ (decodeFinish t).path = s.path ∧
      (decodeFinish t).q = rest ∧ (decodeFinish t).incount = s.incount + BitVec.ofNat 32 bytes.length ∧
      (∀ x, x < l → (decodeFinish t).rowPixel x = src x) ∧ (decodeFinish t).prevpix = src (l - 1) ∧
      (decodeFinish t).prevValid = true := by
  have len : t.len = l := by
    rw [← hl]
    simp only [State.len, State.lenField, h.cmd]
  refine ⟨rfl, rfl, h.path, h.q, h.incount, h.row, ?_, rfl⟩
  change t.rowPixel (t.len - 1) = src (l - 1)
  rw [len]
  exact h.row _ (Nat.sub_lt pos Nat.one_pos)

/-! ### The planes of an adaptive row -/

/-- A pixel is its four bytes. -/
theorem rowPixel_congr {u : State} {x y : Nat} (h : ∀ p, p < 4 → t.rowByte x p = u.rowByte y p) :
    t.rowPixel x = u.rowPixel y := by
  have byte (p : Nat) (hp : p < 4) : t.readByte (rowAddr x p) = u.readByte (rowAddr y p) := h p hp
  calc t.rowPixel x
      = wordOfBytes (t.readByte (rowAddr x 0)) (t.readByte (rowAddr x 1)) (t.readByte (rowAddr x 2))
          (t.readByte (rowAddr x 3)) := rfl
    _ = u.rowPixel y := by
        rw [byte 0 (by decide), byte 1 (by decide), byte 2 (by decide), byte 3 (by decide)]
        rfl

/-- Decoding one plane leaves the bytes of the others. -/
theorem afterPlane_other {f : Nat → Byte} (hj : s.j = 0) {x p : Nat} (hp : p < 4) (other : p ≠ s.pl.toNat) :
    (closePlane (afterPlane f s)).rowByte x p = s.rowByte x p := by
  refine afterPlane_sameOutside hj _ ?_
  rintro ⟨k, -, -, e⟩
  have := s.pl.isLt
  simp only [rowAddr] at e
  omega

/-- The planes from PL on, given by `g`, are decoded one after the other; those before PL stay. -/
theorem planes_decode {g : Nat → Nat → Byte} {n : Nat} (h : PlaneReady s) (hj : s.j = 0) (hl : 0 < s.len)
    (hp : s.pl.toNat + n = 3)
    (hq : s.q = ((List.range' s.pl.toNat (n + 1)).flatMap fun p => encodePlane (g p) s.len) ++ rest) :
    ∃ t, Reaches s (decodeFinish t) ∧ t.q = rest ∧
      t.incount = s.incount + BitVec.ofNat 32
        ((List.range' s.pl.toNat (n + 1)).flatMap fun p => encodePlane (g p) s.len).length ∧
      t.path = s.path ∧ t.cmd = s.cmd ∧
      ∀ x, x < s.len → ∀ p, p < 4 → t.rowByte x p = if s.pl.toNat ≤ p then g p x else s.rowByte x p := by
  induction n generalizing s with
  | zero =>
    have last : s.pl = 3 := BitVec.eq_of_toNat_eq hp
    rw [List.range'_one, List.flatMap_singleton] at hq ⊢
    have plane := afterPlane_reached h hj hl hq
    have full : s.len ≤ (afterPlane (g s.pl.toNat) s).j.toNat := by
      have fits := afterPlane_fits (f := g s.pl.toNat) hj
      rw [afterPlane, afterToken_j_toNat fits.le]
      exact fits.ge
    have ended : closePlane (afterPlane (g s.pl.toNat) s) = decodeFinish (afterPlane (g s.pl.toNat) s) :=
      closePlane_of_last (s := afterPlane (g s.pl.toNat) s) full last
    refine ⟨afterPlane (g s.pl.toNat) s, ended ▸ plane, afterToken_q hq, rfl, rfl, rfl, fun x hx p hp4 => ?_⟩
    have unchanged : (afterPlane (g s.pl.toNat) s).rowByte x p =
        (closePlane (afterPlane (g s.pl.toNat) s)).rowByte x p := (closePlane_readByte _).symm
    rw [unchanged]
    by_cases this : p = s.pl.toNat
    · rw [this, if_pos (Nat.le_refl _)]
      exact afterPlane_rowByte hj hx
    · rw [if_neg (by omega)]
      exact afterPlane_other hj hp4 this
  | succ n ih =>
    have more : s.pl ≠ 3 := fun e => by
      rw [e] at hp
      simp at hp
    rw [List.range'_succ, List.flatMap_cons] at hq ⊢
    rw [List.append_assoc] at hq
    have plane := afterPlane_reached h hj hl hq
    have next := closePlane_afterToken_of_next (n := (encodePlane (g s.pl.toNat) s.len).length) h.fsm
      (afterPlane_fits (f := g s.pl.toNat) hj) more
    have next_pl : (s.pl + 1).toNat = s.pl.toNat + 1 := by bv_omega
    obtain ⟨u, hu⟩ : ∃ u, u = closePlane (afterPlane (g s.pl.toNat) s) := ⟨_, rfl⟩
    have at_next : u = { s with
        mem := u.mem, q := s.q.drop (encodePlane (g s.pl.toNat) s.len).length,
        incount := s.incount + BitVec.ofNat 32 (encodePlane (g s.pl.toNat) s.len).length, pl := s.pl + 1, j := 0 } := by
      rw [hu]
      exact next
    have pl : u.pl = s.pl + 1 := by rw [at_next]
    have len : u.len = s.len := by rw [at_next]; rfl
    have left := afterPlane_q hq
    rw [← hu, ← next_pl, ← pl] at left
    obtain ⟨t, planes, q, incount, path, cmd, bytes⟩ := ih (s := u)
      ⟨by rw [at_next]; exact h.inReset, by rw [at_next]; exact h.agenda, by rw [at_next]; exact h.fsm⟩
      (by rw [at_next]) (len ▸ hl) (by rw [pl, next_pl]; omega) (by rw [len]; exact left)
    have incount_u : u.incount = s.incount + BitVec.ofNat 32 (encodePlane (g s.pl.toNat) s.len).length := by
      rw [at_next]
    have path_u : u.path = s.path := by rw [at_next]
    have cmd_u : u.cmd = s.cmd := by rw [at_next]
    refine ⟨t, (hu ▸ plane).trans planes, q, ?_, path.trans path_u, cmd.trans cmd_u, fun x hx p hp4 => ?_⟩
    · rw [incount, incount_u, len, pl, next_pl, BitVec.add_assoc, ← BitVec.ofNat_add, ← List.length_append]
    · rw [bytes x (len ▸ hx) p hp4, pl, next_pl, hu]
      obtain lower | rfl | upper := Nat.lt_trichotomy p s.pl.toNat
      · rw [if_neg (by omega), if_neg (by omega)]
        exact afterPlane_other hj hp4 (by omega)
      · rw [if_neg (by omega), if_pos (Nat.le_refl _)]
        exact afterPlane_rowByte hj hx
      · rw [if_pos (by omega), if_pos (by omega)]

end

/-! ### The marker of an adaptive row (rules R70, R71, R89) -/

theorem markerLength_of_len {len : BitVec 16} (h : len.toNat ≤ 32767) :
    markerLength (len.extractLsb' 8 7) (len.extractLsb' 0 8) = len.toNat := by
  simp only [markerLength, BitVec.extractLsb'_toNat, Nat.shiftRight_eq_div_pow]
  omega

section
variable {s : State} {len : BitVec 16} {rest : List Byte}

/-- The peek and the marker of a row of LEN pixels lead to plane 0. -/
theorem marker_reaches (hr : s.inReset = false) (ha : s.agenda = []) (hf : s.fsm = .dPeek) (hl : s.len = len.toNat)
    (short : len.toNat ≤ 32767) (hq : s.q = markerBytes len ++ rest) :
    Reaches s { s with
      fsm := .dCtl, hold := [], q := rest, incount := s.incount + 4, path := pathAdaptive, pl := 0, j := 0 } := by
  have peek : step s = .next { s with fsm := .dMark, hold := [] } := by
    rw [step_of_partTurn hr ha (by simp [nextInstr, hf]), partTurn, hf]
    exact congrArg _ ((peekTurn_cons hq).trans (if_pos rfl))
  refine .head peek (.of_step ?_)
  have bytes : s.q = 2 :: 2 :: (0#1 ++ len.extractLsb' 8 7) :: len.extractLsb' 0 8 :: rest := by
    rw [hq, markerBytes, marker_high_byte short]
    rfl
  have token : nextInstr { s with fsm := .dMark, hold := [] } =
      some (.adpMarker (len.extractLsb' 8 7) (len.extractLsb' 0 8)) := by
    rw [← decodeMarker_of_marker]
    exact decodedInstr_of_ok (p := .marker) (more := rest) (by rw [bytes]; rfl)
  have agrees : ¬ (s.params.lenChk && markerLength (len.extractLsb' 8 7) (len.extractLsb' 0 8) != s.len) = true := by
    simp [markerLength_of_len short, hl]
  rw [step_of_nextInstr (s := { s with fsm := .dMark, hold := [] }) hr ha token]
  refine (if_neg agrees).trans ?_
  have left : s.q.drop 4 = rest := by rw [bytes]; rfl
  rw [← left]
  rfl

end

/-- Settles O34: peek, marker, and the four planes. -/
theorem adaptiveRowRoundTrip : Obligations.AdaptiveRowRoundTrip := by
  intro s d len first rest long short hready hlen hagenda hq
  have adaptive : adaptiveLen len.toNat = true := decide_eq_true ⟨long, short⟩
  have started : exec (.decodeRow first len) d = .next
      (respond .okay 0 { decodeAccepted first len d with fsm := .dPeek, hold := [] }) := by
    rw [exec_decodeRow first hready hlen, startDecode_of_long (by rw [decodeAccepted_len]; exact adaptive)]
  obtain ⟨a, ha⟩ : ∃ a, a = respond .okay 0 { decodeAccepted first len d with fsm := .dPeek, hold := [] } := ⟨_, rfl⟩
  have length : a.len = len.toNat := by rw [ha]; exact decodeAccepted_len (s := d) first
  have reset : a.inReset = false := by rw [ha]; exact hready.1
  have agenda : a.agenda = [] := by rw [ha]; exact hagenda
  have state : a.fsm = .dPeek := by rw [ha]; rfl
  have zero : a.incount = 0 := by rw [ha]; rfl
  obtain ⟨bytes, hbytes⟩ : ∃ bytes, bytes =
    (List.range' 0 4).flatMap fun p => encodePlane (fun x => s.rowByte x p) len.toNat := ⟨_, rfl⟩
  have emitted : encodeRowBytes s len = markerBytes len ++ bytes := by
    rw [hbytes]
    exact encodeRowBytes_of_adaptive adaptive
  have stream : a.q = markerBytes len ++ (bytes ++ rest) := by
    rw [← List.append_assoc, ← emitted, ← hq, ha]
    rfl
  have marker := marker_reaches reset agenda state length short stream
  obtain ⟨b, hb⟩ : ∃ b, b = { a with
    fsm := .dCtl, hold := [], q := bytes ++ rest, incount := a.incount + 4, path := pathAdaptive, pl := 0, j := 0 } :=
    ⟨_, rfl⟩
  rw [← hb] at marker
  have length_b : b.len = len.toNat := by rw [hb]; exact length
  have pl : b.pl.toNat = 0 := by rw [hb]; rfl
  have stream_b : b.q = bytes ++ rest := by rw [hb]
  obtain ⟨t, planes, q, incount, path, cmd, row⟩ := planes_decode (s := b) (n := 3) (rest := rest)
    (g := fun p x => s.rowByte x p) ⟨by rw [hb]; exact reset, by rw [hb]; exact agenda, by rw [hb]⟩ (by rw [hb])
    (by omega) (by rw [pl]) (by rw [stream_b, pl, length_b, hbytes])
  rw [pl, length_b, ← hbytes] at incount
  obtain ⟨n, run⟩ := (marker.trans planes).exists_runSteps
  have decoded : RowDecoded { a with path := pathAdaptive } t s.rowPixel len.toNat (encodeRowBytes s len) rest := by
    refine ⟨q, ?_, path.trans (by rw [hb]), cmd.trans (by rw [hb]), fun x hx => rowPixel_congr fun p hp => ?_⟩
    · have four : b.incount = a.incount + 4 := by rw [hb]
      rw [incount, emitted, List.length_append, BitVec.ofNat_add, four, BitVec.add_assoc]
      rfl
    · rw [row x (by omega) p hp, if_pos (by omega)]
  obtain ⟨idle, done, path, q, incount, row⟩ := decoded.finish length (by omega)
  refine ⟨a, n, decodeFinish t, ha ▸ started, run, idle, done, path, q, incount.trans ?_, row⟩
  change a.incount + _ = _
  rw [zero]
  exact BitVec.zero_add _

/-! ### The pixels of a raw row (rules R77, R78) -/

/-- A pixel whose R, G and B are not all 1 is read as a pixel. -/
theorem decodeQuad_of_word {w : Word} (h : w.extractLsb' 0 24 ≠ 0x010101#24) :
    decodeQuad (w.extractLsb' 0 8) (w.extractLsb' 8 8) (w.extractLsb' 16 8) (w.extractLsb' 24 8) =
      .lqPixel (w.extractLsb' 0 8) (w.extractLsb' 8 8) (w.extractLsb' 16 8) (w.extractLsb' 24 8) := by
  refine decodeQuad_of_pixel _ fun ⟨red, green, blue⟩ => h ?_
  have parts : w.extractLsb' 0 24 = w.extractLsb' 16 8 ++ w.extractLsb' 8 8 ++ w.extractLsb' 0 8 := by
    apply BitVec.eq_of_getLsbD_eq
    intro i hi
    simp only [BitVec.getLsbD_append, BitVec.getLsbD_extractLsb']
    interval_cases i <;> simp
  rw [parts, red, green, blue]
  rfl

section
variable {s : State} {src : Nat → Word} {rest : List Byte}

/-- One pixel of a raw row is consumed and written. -/
theorem step_of_pixel {w : Word} (hr : s.inReset = false) (ha : s.agenda = []) (hf : s.fsm = .dQuad) (hh : s.hold = [])
    (pixel : w.extractLsb' 0 24 ≠ 0x010101#24) (hq : s.q = wordBytes w ++ rest) :
    step s = .next (closeLegacy (afterPixel (w.extractLsb' 0 8) (w.extractLsb' 8 8) (w.extractLsb' 16 8)
      (w.extractLsb' 24 8) s)) := by
  have token : nextInstr s = some (.lqPixel (w.extractLsb' 0 8) (w.extractLsb' 8 8) (w.extractLsb' 16 8)
      (w.extractLsb' 24 8)) := by
    rw [← decodeQuad_of_word pixel]
    simp only [nextInstr, hf, hh, hq]
    rfl
  rw [step_of_nextInstr hr ha token, exec_lqPixel _ _ _ _ (by rw [hf]; nofun)]

/-- A pixel written by itself changes no other. -/
theorem afterPixel_other {r g b e : Byte} {x : Nat} (h : x ≠ s.i.toNat) :
    (afterPixel r g b e s).rowPixel x = s.rowPixel x := by
  refine rowPixel_congr fun p hp => afterPixel_sameOutside r g b e _ ?_
  simp only [inRow, rowAddr]
  omega

/-- What one pixel of a raw row does: `u` is the state in which the row loop's test is met. -/
structure PixelTurn (s u : State) (w : Word) (more : List Byte) : Prop where
  turn : step s = .next (closeLegacy u)
  ready : u.inReset = false ∧ u.agenda = [] ∧ u.fsm = .dQuad ∧ u.hold = []
  i : u.i.toNat = s.i.toNat + 1
  len : u.len = s.len
  q : u.q = more
  incount : u.incount = s.incount + BitVec.ofNat 32 4
  path : u.path = s.path
  cmd : u.cmd = s.cmd
  written : u.rowPixel s.i.toNat = w
  others : ∀ x, x ≠ s.i.toNat → u.rowPixel x = s.rowPixel x

/-- The pixel `w` at the head of the stream. -/
theorem pixelTurn {w : Word} (ready : s.inReset = false ∧ s.agenda = [] ∧ s.fsm = .dQuad ∧ s.hold = [])
    (inside : s.i.toNat < s.len) (pixel : w.extractLsb' 0 24 ≠ 0x010101#24) (hq : s.q = wordBytes w ++ rest) :
    ∃ u, PixelTurn s u w rest := by
  obtain ⟨hr, ha, hf, hh⟩ := ready
  refine ⟨afterPixel (w.extractLsb' 0 8) (w.extractLsb' 8 8) (w.extractLsb' 16 8) (w.extractLsb' 24 8) s, ?_⟩
  exact {
    turn := step_of_pixel hr ha hf hh pixel hq
    ready := ⟨by simpa [afterPixel] using hr, by simpa [afterPixel] using ha, by simpa [afterPixel] using hf,
      by simp [afterPixel]⟩
    i := afterPixel_i_toNat _ _ _ _ inside
    len := afterPixel_len _ _ _ _
    q := by
      have consumed : (afterPixel (w.extractLsb' 0 8) (w.extractLsb' 8 8) (w.extractLsb' 16 8)
        (w.extractLsb' 24 8) s).q = s.q.drop 4 := by simp [afterPixel, hh]
      rw [consumed, hq]
      rfl
    incount := by simp [afterPixel, hh]
    path := by simp [afterPixel]
    cmd := by simp [afterPixel]
    written := (afterPixel_rowPixel _ _ _ _).trans (wordOfBytes_wordBytes w)
    others := fun x h => afterPixel_other h }

/-- The pixels from I on are consumed and written one after the other. -/
theorem pixels_decode {n : Nat} (ready : s.inReset = false ∧ s.agenda = [] ∧ s.fsm = .dQuad ∧ s.hold = [])
    (hi : s.i.toNat + (n + 1) = s.len) (pixel : ∀ x, x < s.len → (src x).extractLsb' 0 24 ≠ 0x010101#24)
    (hq : s.q = ((List.range' s.i.toNat (n + 1)).flatMap fun x => wordBytes (src x)) ++ rest) :
    ∃ t, Reaches s (decodeFinish t) ∧ t.q = rest ∧
      t.incount = s.incount + BitVec.ofNat 32
        ((List.range' s.i.toNat (n + 1)).flatMap fun x => wordBytes (src x)).length ∧
      t.path = s.path ∧ t.cmd = s.cmd ∧
      ∀ x, x < s.len → t.rowPixel x = if s.i.toNat ≤ x then src x else s.rowPixel x := by
  induction n generalizing s with
  | zero =>
    rw [List.range'_one, List.flatMap_singleton] at hq ⊢
    obtain ⟨u, h⟩ := pixelTurn ready (by omega) (pixel _ (by omega)) hq
    have ended : closeLegacy u = decodeFinish u := closeLegacy_of_le (by rw [h.i, h.len]; omega)
    refine ⟨u, .of_step (ended ▸ h.turn), h.q, h.incount, h.path, h.cmd, fun x hx => ?_⟩
    by_cases here : x = s.i.toNat
    · rw [here, if_pos (Nat.le_refl _)]
      exact h.written
    · rw [if_neg (by omega)]
      exact h.others x here
  | succ n ih =>
    rw [List.range'_succ, List.flatMap_cons] at hq ⊢
    rw [List.append_assoc] at hq
    obtain ⟨u, h⟩ := pixelTurn ready (by omega) (pixel _ (by omega)) hq
    obtain ⟨-, -, quad, -⟩ := h.ready
    have goesOn : closeLegacy u = u := closeLegacy_of_lt quad (by rw [h.i, h.len]; omega)
    obtain ⟨t, run, q, incount, path, cmd, row⟩ := ih (s := u) h.ready (by rw [h.i, h.len]; omega)
      (fun x hx => pixel x (h.len ▸ hx)) (by rw [h.i]; exact h.q)
    refine ⟨t, .head (goesOn ▸ h.turn) run, q, ?_, path.trans h.path, cmd.trans h.cmd, fun x hx => ?_⟩
    · rw [incount, h.incount, h.i, BitVec.add_assoc, List.length_append, BitVec.ofNat_add]
      rfl
    · rw [row x (h.len ▸ hx), h.i]
      obtain lower | rfl | upper := Nat.lt_trichotomy x s.i.toNat
      · rw [if_neg (by omega), if_neg (by omega)]
        exact h.others x (by omega)
      · rw [if_neg (by omega), if_pos (Nat.le_refl _)]
        exact h.written
      · rw [if_pos (by omega), if_pos (by omega)]

end

/-- Settles O35: no marker is looked for, and the legacy algorithm reads the pixels. -/
theorem rawRowRoundTrip : Obligations.RawRowRoundTrip := by
  intro s d len first rest short hready hlen hagenda pixel hq
  have raw : adaptiveLen len.toNat = false := decide_eq_false (by omega)
  have started : exec (.decodeRow first len) d = .next
      (respond .okay 0 (startLegacy pathLegacy (decodeAccepted first len d))) := by
    rw [exec_decodeRow first hready hlen, startDecode_of_raw (by rw [decodeAccepted_len]; exact raw)]
  obtain ⟨a, ha⟩ : ∃ a, a = respond .okay 0 (startLegacy pathLegacy (decodeAccepted first len d)) := ⟨_, rfl⟩
  have length : a.len = len.toNat := by rw [ha]; exact decodeAccepted_len (s := d) first
  have standing : a.inReset = false ∧ a.agenda = [] ∧ a.fsm = .dQuad ∧ a.hold = [] := by
    rw [ha]
    exact ⟨hready.1, hagenda, rfl, rfl⟩
  have zero : a.incount = 0 ∧ a.i.toNat = 0 ∧ a.path = 1 := by rw [ha]; exact ⟨rfl, rfl, rfl⟩
  obtain ⟨incount_a, i, path_a⟩ := zero
  have positive : 0 < len.toNat := hlen.1
  have count : len.toNat - 1 + 1 = len.toNat := Nat.sub_add_cancel positive
  have emitted : encodeRowBytes s len = (List.range' 0 len.toNat).flatMap fun x => wordBytes (s.rowPixel x) :=
    encodeRowBytes_of_raw raw
  obtain ⟨t, pixels, q, incount, path, cmd, row⟩ := pixels_decode (n := len.toNat - 1) (rest := rest)
    (src := s.rowPixel) standing (by omega) (fun x hx => pixel x (by omega))
    (by rw [i, count, ← emitted, ← hq, ha]; rfl)
  rw [i, count, ← emitted] at incount
  obtain ⟨n, run⟩ := pixels.exists_runSteps
  have decoded : RowDecoded a t s.rowPixel len.toNat (encodeRowBytes s len) rest :=
    ⟨q, incount, path, cmd, fun x hx => by rw [row x (by omega), if_pos (by omega)]⟩
  obtain ⟨idle, done, path, q, incount, row⟩ := decoded.finish length positive
  refine ⟨a, n, decodeFinish t, ha ▸ started, run, idle, done, path.trans path_a, q, incount.trans ?_, row⟩
  rw [incount_a]
  exact BitVec.zero_add _

end Sys2Proof.Proofs
end

section
/-! The converter's rounding (rules R104 to R110): a fraction to a nearest integer, a value to a nearest binary32
pattern, and the two rounding modes. -/

namespace Sys2Proof.Proofs

open Sys2Proof Sys2Proof.Machine

/-! ### Rounding a fraction (rule R107) -/

section
variable {p q : Nat}

/-- A fraction is rounded down when its rest is at most a half, and up when it is at least a half; a tie goes to the even
integer. -/
theorem roundEven_cases (p q : Nat) :
    (roundEven p q = p / q ∧ 2 * (p % q) ≤ q ∧ (2 * (p % q) = q → p / q % 2 = 0)) ∨
      (roundEven p q = p / q + 1 ∧ q ≤ 2 * (p % q) ∧ (2 * (p % q) = q → (p / q + 1) % 2 = 0)) := by
  unfold roundEven
  split_ifs with down up
  · exact .inl ⟨rfl, by omega, by omega⟩
  · exact .inr ⟨rfl, by omega, by omega⟩
  · obtain even | odd := Nat.mod_two_eq_zero_or_one (p / q)
    · exact .inl ⟨by omega, by omega, by omega⟩
    · exact .inr ⟨by omega, by omega, by omega⟩

/-- Settles O37: the distance is the rest of the division, or what it lacks to the divisor. -/
theorem roundEvenIsNearest : Obligations.RoundEvenIsNearest := by
  intro p q hq
  have division : ((q * (p / q) + p % q : Nat) : Int) = p := congrArg _ (Nat.div_add_mod p q)
  have rest := Nat.mod_lt p hq
  push_cast at division
  obtain ⟨value, half, tie⟩ | ⟨value, half, tie⟩ := roundEven_cases p q
  · rw [value]
    push_cast
    omega
  · rw [value]
    push_cast
    rw [Int.mul_add]
    omega

/-- A multiple of `q` is that of `d`, the next one, or at least `q` beyond these two. -/
theorem multiples_apart (q d k : Nat) : q * k + q ≤ q * d ∨ k = d ∨ k = d + 1 ∨ q * (d + 1) + q ≤ q * k := by
  obtain less | rfl | more := Nat.lt_trichotomy k d
  · exact .inl (Nat.mul_le_mul_left q less)
  · exact .inr (.inl rfl)
  · obtain rfl | more := Nat.eq_or_lt_of_le (show d + 1 ≤ k from more)
    · exact .inr (.inr (.inl rfl))
    · exact .inr (.inr (.inr (Nat.mul_le_mul_left q more)))

/-- No integer is nearer to the fraction than the rounded one, and only an even one has another as near. -/
theorem roundEven_nearest (hq : 0 < q) (k : Nat) :
    ((q * roundEven p q : Nat) - (p : Int)).natAbs ≤ ((q * k : Nat) - (p : Int)).natAbs ∧
      (((q * roundEven p q : Nat) - (p : Int)).natAbs = ((q * k : Nat) - (p : Int)).natAbs → k ≠ roundEven p q →
        roundEven p q % 2 = 0) := by
  have division := Nat.div_add_mod p q
  have rest := Nat.mod_lt p hq
  have up : q * (p / q + 1) = q * (p / q) + q := Nat.mul_succ _ _
  obtain ⟨value, half, tie⟩ | ⟨value, half, tie⟩ := roundEven_cases p q <;> rw [value]
  · obtain far | rfl | rfl | far := multiples_apart q (p / q) k <;> omega
  · obtain far | rfl | rfl | far := multiples_apart q (p / q) k <;> omega

theorem le_roundEven {k : Nat} (hq : 0 < q) (h : q * k ≤ p) : k ≤ roundEven p q := by
  have floor : k ≤ p / q := (Nat.le_div_iff_mul_le hq).mpr (Nat.mul_comm q k ▸ h)
  obtain ⟨value, -⟩ | ⟨value, -⟩ := roundEven_cases p q <;> omega

theorem roundEven_le {k : Nat} (hq : 0 < q) (h : p ≤ q * k) : roundEven p q ≤ k := by
  obtain ⟨value, -⟩ | ⟨value, half, -⟩ := roundEven_cases p q
  · rw [value]
    exact Nat.div_le_of_le_mul h
  · have division := Nat.div_add_mod p q
    rw [value]
    exact Nat.lt_of_mul_lt_mul_left (a := q) (by omega)

theorem roundEven_mul_right {c : Nat} (hc : 0 < c) : roundEven (p * c) (q * c) = roundEven p q := by
  simp only [roundEven, Nat.mul_mod_mul_right, Nat.mul_div_mul_right _ _ hc, ← Nat.mul_assoc,
    Nat.mul_lt_mul_right hc]

theorem roundEven_of_mul (hq : 0 < q) (k : Nat) : roundEven (q * k) q = k :=
  Nat.le_antisymm (roundEven_le hq (Nat.le_refl _)) (le_roundEven hq (Nat.le_refl _))

end

/-! ### The binary32 pattern of a fraction of units -/

/-- The binary places below the last fraction bit. -/
def places (p q : Nat) : Nat := Nat.log2 (p / q) - 23

/-- The pattern as a number: `rne32` before it is cut to a word. -/
def pattern (p q : Nat) : Nat := places p q * 2 ^ 23 + roundEven p (q * 2 ^ places p q)

section
variable {p q : Nat}

theorem rne32_eq (p q : Nat) : rne32 p q = BitVec.ofNat 32 (pattern p q) := rfl

theorem lt_of_places (hq : 0 < q) : p < q * 2 ^ (24 + places p q) := by
  have high : p / q < 2 ^ (24 + places p q) :=
    Nat.lt_of_lt_of_le Nat.lt_log2_self (Nat.pow_le_pow_right (by decide) (by simp only [places]; omega))
  rw [Nat.mul_comm]
  exact (Nat.div_lt_iff_lt_mul hq).mp high

theorem le_of_places (hq : 0 < q) (h : places p q ≠ 0) : q * 2 ^ (23 + places p q) ≤ p := by
  have exponent : Nat.log2 (p / q) = 23 + places p q := by simp only [places] at h ⊢; omega
  have nonzero : p / q ≠ 0 := fun zero => by simp [places, zero] at h
  rw [← exponent, Nat.mul_comm]
  exact (Nat.le_div_iff_mul_le hq).mp (Nat.log2_self_le nonzero)

/-- The places are known from bounds of the value. -/
theorem places_eq {x : Nat} (hq : 0 < q) (lower : x = 0 ∨ q * 2 ^ (23 + x) ≤ p) (upper : p < q * 2 ^ (24 + x)) :
    places p q = x := by
  have notLess : ¬ places p q < x := fun less => by
    have bound := lower.resolve_left (by omega)
    have := Nat.lt_of_mul_lt_mul_left (Nat.lt_of_le_of_lt bound (lt_of_places hq))
    have := (Nat.pow_lt_pow_iff_right (by decide)).mp this
    omega
  have notMore : ¬ x < places p q := fun more => by
    have := Nat.lt_of_mul_lt_mul_left (Nat.lt_of_le_of_lt (le_of_places hq (by omega)) upper)
    have := (Nat.pow_lt_pow_iff_right (by decide)).mp this
    omega
  omega

theorem places_of_lt (hq : 0 < q) (h : p < q * 2 ^ 24) : places p q = 0 := places_eq hq (.inl rfl) h

/-- The significand has 24 bits, or is the next power of two. -/
theorem significand_le (hq : 0 < q) : roundEven p (q * 2 ^ places p q) ≤ 2 ^ 24 := by
  refine roundEven_le (by positivity) ?_
  have := lt_of_places (p := p) hq
  rw [Nat.mul_assoc, ← Nat.pow_add, Nat.add_comm]
  exact Nat.le_of_lt this

/-- The significand has its leading 1, unless the value is subnormal. -/
theorem le_significand (hq : 0 < q) : places p q = 0 ∨ 2 ^ 23 ≤ roundEven p (q * 2 ^ places p q) := by
  by_cases h : places p q = 0
  · exact .inl h
  · refine .inr (le_roundEven (by positivity) ?_)
    rw [Nat.mul_assoc, ← Nat.pow_add, Nat.add_comm]
    exact le_of_places hq h

theorem normal_le_significand (hq : 0 < q) (normal : q * 2 ^ 23 ≤ p) :
    2 ^ 23 ≤ roundEven p (q * 2 ^ places p q) := by
  obtain zero | h := le_significand (p := p) hq
  · rw [zero, Nat.pow_zero, Nat.mul_one]
    exact le_roundEven hq normal
  · exact h

/-! ### The value of a pattern (rule R106) -/

/-- A word as the places and the significand of its value. -/
theorem exists_significand {w : Word} (hw : w.toNat < 2 ^ 31) :
    ∃ x n, w = BitVec.ofNat 32 (x * 2 ^ 23 + n) ∧ x * 2 ^ 23 + n < 2 ^ 31 ∧ n < 2 ^ 24 ∧ (x = 0 ∨ 2 ^ 23 ≤ n) := by
  obtain ⟨x, hx⟩ : ∃ x, x = w.toNat / 2 ^ 23 - 1 := ⟨_, rfl⟩
  have sum : x * 2 ^ 23 + (w.toNat - x * 2 ^ 23) = w.toNat := by omega
  refine ⟨x, w.toNat - x * 2 ^ 23, ?_, by omega, by omega, by omega⟩
  rw [sum, BitVec.ofNat_toNat, BitVec.setWidth_eq]

theorem exponent_ofNat {v : Nat} (h : v < 2 ^ 31) : ((BitVec.ofNat 32 v).extractLsb' 23 8).toNat = v / 2 ^ 23 := by
  rw [BitVec.extractLsb'_toNat, BitVec.toNat_ofNat, Nat.shiftRight_eq_div_pow]
  omega

theorem fraction_ofNat {v : Nat} : ((BitVec.ofNat 32 v).extractLsb' 0 23).toNat = v % 2 ^ 23 := by
  rw [BitVec.extractLsb'_toNat, BitVec.toNat_ofNat, Nat.shiftRight_zero]
  omega

/-- The value of a pattern by its exponent and fraction fields. -/
theorem unitsOf_fields {e f : Nat} (hf : f < 2 ^ 23) (he : e * 2 ^ 23 + f < 2 ^ 31) :
    unitsOf (BitVec.ofNat 32 (e * 2 ^ 23 + f)) = if e = 0 then f else (f + 2 ^ 23) * 2 ^ (e - 1) := by
  have exponent : (e * 2 ^ 23 + f) / 2 ^ 23 = e := by omega
  have fraction : (e * 2 ^ 23 + f) % 2 ^ 23 = f := by omega
  rw [unitsOf, exponent_ofNat he, fraction_ofNat, exponent, fraction]

theorem unitsOf_ofNat {x n : Nat} (hn : n ≤ 2 ^ 24) (leading : x = 0 ∨ 2 ^ 23 ≤ n) (h : x * 2 ^ 23 + n < 2 ^ 31) :
    unitsOf (BitVec.ofNat 32 (x * 2 ^ 23 + n)) = n * 2 ^ x := by
  obtain subnormal | normal | top : n < 2 ^ 23 ∨ (2 ^ 23 ≤ n ∧ n < 2 ^ 24) ∨ n = 2 ^ 24 := by omega
  · obtain rfl : x = 0 := by omega
    rw [unitsOf_fields subnormal h, if_pos rfl, Nat.pow_zero, Nat.mul_one]
  · obtain ⟨f, rfl⟩ := Nat.exists_eq_add_of_le' normal.1
    have fields : x * 2 ^ 23 + (f + 2 ^ 23) = (x + 1) * 2 ^ 23 + f := by omega
    rw [fields] at h ⊢
    rw [unitsOf_fields (by omega) h, if_neg (Nat.succ_ne_zero x), Nat.add_sub_cancel]
  · have fields : x * 2 ^ 23 + n = (x + 2) * 2 ^ 23 + 0 := by omega
    rw [fields] at h ⊢
    rw [unitsOf_fields (by decide) h, if_neg (Nat.succ_ne_zero _), top, Nat.zero_add, ← Nat.pow_add, ← Nat.pow_add]
    congr 1
    omega

theorem unitsOf_rne32 (hq : 0 < q) (h : pattern p q < 2 ^ 31) :
    unitsOf (rne32 p q) = roundEven p (q * 2 ^ places p q) * 2 ^ places p q :=
  unitsOf_ofNat (significand_le hq) (le_significand hq) h

theorem rne32_toNat (h : pattern p q < 2 ^ 31) : (rne32 p q).toNat = pattern p q := by
  rw [rne32_eq, BitVec.toNat_ofNat]
  omega

/-- Rounding a value that a pattern has gives the pattern. -/
theorem pattern_unitsOf {w : Word} (hw : w.toNat < 2 ^ 31) : pattern (unitsOf w) 1 = w.toNat := by
  obtain ⟨x, n, rfl, h, hn, leading⟩ := exists_significand hw
  have value : unitsOf (BitVec.ofNat 32 (x * 2 ^ 23 + n)) = 1 * 2 ^ x * n := by
    rw [unitsOf_ofNat (Nat.le_of_lt hn) leading h, Nat.one_mul, Nat.mul_comm]
  have shift : places (1 * 2 ^ x * n) 1 = x := by
    refine places_eq Nat.one_pos (leading.imp_right fun leading => ?_) ?_
    · rw [Nat.one_mul, Nat.one_mul, Nat.add_comm, Nat.pow_add]
      exact Nat.mul_le_mul_left _ leading
    · rw [Nat.one_mul, Nat.one_mul, Nat.add_comm, Nat.pow_add]
      exact Nat.mul_lt_mul_of_pos_left hn (by positivity)
  rw [value, pattern, shift, roundEven_of_mul (by positivity), BitVec.toNat_ofNat]
  omega

/-! ### Nearest among all patterns -/

/-- How far the value of a pattern is from `p / q` units, in parts of `q`. -/
def unitsDist (p q : Nat) (w : Word) : Nat := ((q * unitsOf w : Nat) - (p : Int)).natAbs

/-- A value with fewer places than `p / q` is farther from it than the least one with as many. -/
theorem unitsDist_of_fewer_places {x n : Nat} (hq : 0 < q) (fewer : x < places p q) (hn : n < 2 ^ 24) :
    ((q * 2 ^ places p q * 2 ^ 23 : Nat) - (p : Int)).natAbs < ((q * (n * 2 ^ x) : Nat) - (p : Int)).natAbs := by
  have below : n * 2 ^ x < 2 ^ (23 + places p q) :=
    calc n * 2 ^ x < 2 ^ 24 * 2 ^ x := Nat.mul_lt_mul_of_pos_right hn (by positivity)
      _ = 2 ^ (24 + x) := (Nat.pow_add ..).symm
      _ ≤ 2 ^ (23 + places p q) := Nat.pow_le_pow_right (by decide) (by omega)
  have value := le_of_places (p := p) hq (by omega)
  have farther : q * (n * 2 ^ x) < q * 2 ^ (23 + places p q) := Nat.mul_lt_mul_of_pos_left below hq
  have same : q * 2 ^ places p q * 2 ^ 23 = q * 2 ^ (23 + places p q) := by
    rw [Nat.mul_assoc, ← Nat.pow_add, Nat.add_comm]
  rw [same]
  omega

/-- RNE32 is correctly rounded: no pattern is nearer, and of two as near it takes the even one. -/
theorem rne32_nearest (hq : 0 < q) (h : pattern p q < 2 ^ 31) {w : Word} (hw : w.toNat < 2 ^ 31) :
    unitsDist p q (rne32 p q) ≤ unitsDist p q w ∧
      (unitsDist p q (rne32 p q) = unitsDist p q w → w ≠ rne32 p q → (rne32 p q).getLsbD 0 = false) := by
  obtain ⟨x, n, rfl, hx, hn, leading⟩ := exists_significand hw
  have nearest := roundEven_nearest (p := p) (q := q * 2 ^ places p q) (by positivity)
  have rounded : q * unitsOf (rne32 p q) = q * 2 ^ places p q * roundEven p (q * 2 ^ places p q) := by
    rw [unitsOf_rne32 hq h]
    ring
  rw [unitsDist, unitsDist, rounded, unitsOf_ofNat (Nat.le_of_lt hn) leading hx]
  by_cases fewer : x < places p q
  · have farther := unitsDist_of_fewer_places hq fewer hn
    have least := (nearest (2 ^ 23)).1
    exact ⟨by omega, fun tie => by omega⟩
  · obtain ⟨d, rfl⟩ := Nat.exists_eq_add_of_le (Nat.not_lt.mp fewer)
    have whole : q * (n * 2 ^ (places p q + d)) = q * 2 ^ places p q * (n * 2 ^ d) := by
      rw [Nat.pow_add]
      ring
    rw [whole]
    refine ⟨(nearest _).1, fun tie other => ?_⟩
    have different : n * 2 ^ d ≠ roundEven p (q * 2 ^ places p q) := fun same => other ?_
    · have even := (nearest _).2 tie different
      have bit : (rne32 p q).toNat % 2 = 0 := by
        rw [rne32_toNat h, pattern]
        omega
      rw [BitVec.getLsbD, Nat.testBit_zero, bit]
      rfl
    · have top := significand_le (p := p) hq
      rw [rne32_eq, pattern, ← same]
      rw [← same] at top
      refine congrArg (BitVec.ofNat 32) ?_
      obtain _ | _ | d := d
      · omega
      · omega
      · have : 2 ^ 2 ≤ 2 ^ (d + 1 + 1) := Nat.pow_le_pow_right (by decide) (by omega)
        have : n * 2 ^ 2 ≤ n * 2 ^ (d + 1 + 1) := Nat.mul_le_mul_left n this
        omega

/-! ### The size of a pattern -/

theorem pattern_le {y : Nat} (hq : 0 < q) (h : p ≤ q * 2 ^ (23 + y)) : pattern p q ≤ (y + 1) * 2 ^ 23 := by
  have top := significand_le (p := p) hq
  have notMore : places p q ≤ y := by
    by_cases zero : places p q = 0
    · omega
    · have := Nat.le_of_mul_le_mul_left (Nat.le_trans (le_of_places hq zero) h) hq
      have := (Nat.pow_le_pow_iff_right (by decide)).mp this
      omega
  obtain same | less := Nat.eq_or_lt_of_le notMore
  · have least : roundEven p (q * 2 ^ places p q) ≤ 2 ^ 23 :=
      roundEven_le (by positivity) (by rwa [same, Nat.mul_assoc, ← Nat.pow_add, Nat.add_comm])
    rw [pattern]
    omega
  · rw [pattern]
    omega

theorem le_pattern (hq : 0 < q) (normal : q * 2 ^ 23 ≤ p) : 2 ^ 23 ≤ pattern p q :=
  Nat.le_trans (normal_le_significand hq normal) (Nat.le_add_left _ _)

theorem pattern_of_subnormal (hq : 0 < q) (h : p < q * 2 ^ 24) : pattern p q = roundEven p q := by
  rw [pattern, places_of_lt hq h, Nat.zero_mul, Nat.zero_add, Nat.pow_zero, Nat.mul_one]

/-! ### Scaling -/

theorem pattern_mul_right {c : Nat} (hc : 0 < c) : pattern (p * c) (q * c) = pattern p q := by
  have same : places (p * c) (q * c) = places p q := by rw [places, places, Nat.mul_div_mul_right _ _ hc]
  rw [pattern, pattern, same, Nat.mul_right_comm, roundEven_mul_right hc]

/-- A power of two moves the exponent of a normal value. -/
theorem pattern_mul_pow (hq : 0 < q) (normal : q * 2 ^ 23 ≤ p) (k : Nat) :
    pattern (p * 2 ^ k) q = pattern p q + k * 2 ^ 23 := by
  have shift : places (p * 2 ^ k) q = places p q + k := by
    refine places_eq hq (.inr ?_) ?_
    · rw [← Nat.add_assoc, Nat.pow_add, ← Nat.mul_assoc]
      refine Nat.mul_le_mul_right _ ?_
      by_cases zero : places p q = 0
      · rwa [zero]
      · exact le_of_places hq zero
    · rw [← Nat.add_assoc, Nat.pow_add, ← Nat.mul_assoc]
      exact Nat.mul_lt_mul_of_pos_right (lt_of_places hq) (by positivity)
  rw [pattern, shift, Nat.pow_add, ← Nat.mul_assoc, roundEven_mul_right (by positivity), pattern]
  ring

/-- The relative error of a normal value is at most 2^-24. -/
theorem unitsOf_rne32_error (hq : 0 < q) (normal : q * 2 ^ 23 ≤ p) (h : pattern p q < 2 ^ 31) :
    (2 ^ 24 - 1) * p ≤ 2 ^ 24 * (q * unitsOf (rne32 p q)) ∧ 2 ^ 24 * (q * unitsOf (rne32 p q)) ≤ (2 ^ 24 + 1) * p := by
  have near := (roundEvenIsNearest p (q * 2 ^ places p q) (by positivity)).1
  have rounded : q * 2 ^ places p q * roundEven p (q * 2 ^ places p q) = q * unitsOf (rne32 p q) := by
    rw [unitsOf_rne32 hq h]
    ring
  have rounded : ((q * 2 ^ places p q : Nat) : Int) * roundEven p (q * 2 ^ places p q) =
    (q * unitsOf (rne32 p q) : Nat) := by exact_mod_cast rounded
  have step : 2 ^ 23 * (q * 2 ^ places p q) ≤ p := by
    by_cases zero : places p q = 0
    · rw [zero, Nat.pow_zero, Nat.mul_one, Nat.mul_comm]
      exact normal
    · have := le_of_places hq zero
      rwa [Nat.pow_add, ← Nat.mul_assoc, Nat.mul_right_comm, Nat.mul_comm] at this
  rw [rounded] at near
  omega

end

/-! ### The channels -/

/-- Channel(m, E) before the last rounding, in mode CR: 255ths of a unit. -/
def exactUnits (m e : Nat) : Nat := m * 2 ^ (e + 21)

/-- Channel(m, E) before the last rounding, in mode F32_STEP: the rounded `m/255`, in parts of 2^-128 units. -/
def stepUnits (m e : Nat) : Nat := unitsOf (rne32 (m * 2 ^ 149) 255) * 2 ^ e

section
variable {m e : Nat}

theorem channel_cr (m e : Byte) : channel .cr m e = rne32 (exactUnits m.toNat e.toNat) 255 := rfl

theorem channel_f32Step (m e : Byte) : channel .f32Step m e = rne32 (stepUnits m.toNat e.toNat) (2 ^ 128) := rfl

theorem exactUnits_eq (m e : Nat) : exactUnits m e = 2 ^ 21 * (m * 2 ^ e) := by
  rw [exactUnits, Nat.pow_add]
  ring

theorem exactUnits_mul_pow (m e k : Nat) : exactUnits m e * 2 ^ k = m * 2 ^ (21 + k) * 2 ^ e := by
  rw [exactUnits]
  ring

theorem pattern_exactUnits_le {y : Nat} (hm : m < 256) (he : e + 21 ≤ 23 + y) :
    pattern (exactUnits m e) 255 ≤ (y + 1) * 2 ^ 23 :=
  pattern_le (by decide) (Nat.mul_le_mul (by omega) (Nat.pow_le_pow_right (by decide) he))

/-- No channel is larger than 2^127 (rule R108). -/
theorem pattern_channel_le (m e : Byte) : pattern (exactUnits m.toNat e.toNat) 255 ≤ 0x7F000000 :=
  pattern_exactUnits_le (y := 253) m.isLt (by omega)

/-- Settles O38: RNE32 is correctly rounded, and no channel is too large for it. -/
theorem channelIsCorrectlyRounded : Obligations.ChannelIsCorrectlyRounded := by
  intro m e w hw
  have fits := pattern_channel_le m e
  exact rne32_nearest (by decide) (Nat.lt_of_le_of_lt fits (by decide)) (by omega)

/-! ### The rounded mantissa of F32_STEP (rule R109) -/

theorem pattern_mantissa_lt (hm : m < 256) : pattern (m * 2 ^ 149) 255 < 2 ^ 31 := by
  have small : pattern (m * 2 ^ 149) 255 ≤ (126 + 1) * 2 ^ 23 := pattern_le (by decide) (by omega)
  omega

theorem mantissa_normal (h0 : 0 < m) : 255 * 2 ^ 23 ≤ m * 2 ^ 149 := by omega

/-- A result that is not subnormal keeps its 23 fraction bits in the first rounding. -/
theorem le_stepUnits (hm : m < 256) (normal : 1020 ≤ m * 2 ^ e) : 2 ^ 128 * 2 ^ 23 ≤ stepUnits m e := by
  have h0 : 0 < m := Nat.pos_of_ne_zero fun zero => by simp [zero] at normal
  have large : 2 ^ 151 < 2 ^ (24 + places (m * 2 ^ 149) 255 + e) := by
    refine Nat.lt_of_mul_lt_mul_left (a := 255) ?_
    calc 255 * 2 ^ 151 ≤ m * 2 ^ 149 * 2 ^ e := by
          rw [Nat.mul_right_comm]
          omega
      _ < 255 * 2 ^ (24 + places (m * 2 ^ 149) 255) * 2 ^ e :=
          Nat.mul_lt_mul_of_pos_right (lt_of_places (by decide)) (by positivity)
      _ = 255 * 2 ^ (24 + places (m * 2 ^ 149) 255 + e) := by rw [Nat.mul_assoc, ← Nat.pow_add]
  have exponents := (Nat.pow_lt_pow_iff_right (by decide)).mp large
  have significand := normal_le_significand (q := 255) (by decide) (mantissa_normal h0)
  have scale : 2 ^ 128 ≤ 2 ^ (places (m * 2 ^ 149) 255 + e) := Nat.pow_le_pow_right (by decide) (by omega)
  have value : stepUnits m e = 2 ^ (places (m * 2 ^ 149) 255 + e) *
      roundEven (m * 2 ^ 149) (255 * 2 ^ places (m * 2 ^ 149) 255) := by
    rw [stepUnits, unitsOf_rne32 (by decide) (pattern_mantissa_lt hm), Nat.mul_assoc, ← Nat.pow_add, Nat.mul_comm]
  rw [value]
  exact Nat.mul_le_mul scale significand

/-- Where the result is not subnormal, the second rounding changes nothing. -/
theorem pattern_stepUnits (hm : m < 256) (normal : 1020 ≤ m * 2 ^ e) :
    pattern (stepUnits m e) (2 ^ 128) = pattern (exactUnits m e) 255 := by
  have h0 : 0 < m := Nat.pos_of_ne_zero fun zero => by simp [zero] at normal
  have mantissa_fits := pattern_mantissa_lt hm
  obtain ⟨u, hu⟩ : ∃ u, u = unitsOf (rne32 (m * 2 ^ 149) 255) := ⟨_, rfl⟩
  have representable : pattern u 1 = pattern (m * 2 ^ 149) 255 := by
    rw [hu, pattern_unitsOf (by rwa [rne32_toNat mantissa_fits]), rne32_toNat mantissa_fits]
  have u_normal : 1 * 2 ^ 23 ≤ u := by
    have product := Nat.mul_le_mul (normal_le_significand (q := 255) (by decide) (mantissa_normal h0))
      (Nat.one_le_two_pow (n := places (m * 2 ^ 149) 255))
    rw [hu, unitsOf_rne32 (by decide) mantissa_fits, Nat.mul_comm 1]
    exact product
  have step : pattern (stepUnits m e) (2 ^ 128) + 128 * 2 ^ 23 = pattern u 1 + e * 2 ^ 23 := by
    have scaled := pattern_mul_pow (by positivity) (le_stepUnits hm normal) 128
    rw [← scaled, ← pattern_mul_pow Nat.one_pos u_normal, ← pattern_mul_right (q := 1) (c := 2 ^ 128) (by positivity),
      Nat.one_mul, stepUnits, hu]
  have exact : pattern (exactUnits m e) 255 + 128 * 2 ^ 23 = pattern (m * 2 ^ 149) 255 + e * 2 ^ 23 := by
    rw [← pattern_mul_pow (by decide) (by rw [exactUnits_eq]; omega), exactUnits_mul_pow,
      ← pattern_mul_pow (by decide) (mantissa_normal h0)]
  omega

/-! ### The two modes -/

theorem channel_modes_agree {m e : Byte} (normal : 1020 ≤ m.toNat * 2 ^ e.toNat) :
    channel .f32Step m e = channel .cr m e := by
  rw [channel_f32Step, channel_cr, rne32_eq, rne32_eq, pattern_stepUnits m.isLt normal]

/-- The subnormal results from exponent 4 on, one by one. -/
theorem subnormal_modes_agree : ∀ e : Fin 6, ∀ m : Fin 64, m.val * 2 ^ (4 + e.val) < 1020 →
    channel .f32Step (BitVec.ofNat 8 m) (BitVec.ofNat 8 (4 + e)) =
      channel .cr (BitVec.ofNat 8 m) (BitVec.ofNat 8 (4 + e)) := by
  decide +kernel

theorem channel_zero (mode : ConvRound) (e : Byte) : channel mode 0 e = 0 := by
  have zero (q : Nat) : rne32 0 q = 0 := by simp [rne32, roundEven]
  have units (k : Nat) : (0 : Byte).toNat * k = 0 := Nat.zero_mul k
  cases mode with
  | cr => rw [channel_cr, exactUnits, units, zero]
  | f32Step => rw [channel_f32Step, stepUnits, units, zero, show unitsOf 0 = 0 from rfl, Nat.zero_mul, zero]

/-- Settles O40: the modes agree on every result that is not subnormal, and for `E ≥ 4` on the few that are. -/
theorem roundingModesAgreeFromFour : Obligations.RoundingModesAgreeFromFour := by
  intro m e he
  by_cases normal : 1020 ≤ m.toNat * 2 ^ e.toNat
  · exact channel_modes_agree normal
  by_cases zero : m = 0
  · rw [zero, channel_zero, channel_zero]
  have positive : 1 ≤ m.toNat := by bv_omega
  have small_e : e.toNat < 10 := by
    by_contra large
    have power : 2 ^ 10 ≤ 2 ^ e.toNat := Nat.pow_le_pow_right (by decide) (by omega)
    have := Nat.mul_le_mul positive power
    omega
  have small_m : m.toNat < 64 := by
    have power : 2 ^ 4 ≤ 2 ^ e.toNat := Nat.pow_le_pow_right (by decide) he
    have := Nat.mul_le_mul_left m.toNat power
    omega
  have from_four : 4 + (e.toNat - 4) = e.toNat := by omega
  have agree := subnormal_modes_agree ⟨e.toNat - 4, by omega⟩ ⟨m.toNat, small_m⟩
    (by rw [from_four]; exact Nat.not_le.mp normal)
  simpa only [from_four, BitVec.ofNat_toNat, BitVec.setWidth_eq] using agree

/-! ### The range (rule R108) -/

/-- A value between 0x2020 and 2^23 - 1 units is subnormal. -/
theorem rne32_of_subnormal {p q : Nat} (hq : 0 < q) (lower : q * 0x2020 ≤ p) (upper : p ≤ q * (2 ^ 23 - 1)) :
    0x2020 ≤ (rne32 p q).toNat ∧ (rne32 p q).toNat < 2 ^ 23 := by
  have value : pattern p q = roundEven p q := pattern_of_subnormal hq (by omega)
  have most := roundEven_le hq upper
  rw [rne32_toNat (by omega), value]
  exact ⟨le_roundEven hq lower, by omega⟩

theorem channel_of_subnormal (mode : ConvRound) {m e : Byte} (h0 : 0 < m.toNat)
    (subnormal : m.toNat * 2 ^ e.toNat < 1020) :
    0x2020 ≤ (channel mode m e).toNat ∧ (channel mode m e).toNat < 2 ^ 23 := by
  have product : m.toNat ≤ m.toNat * 2 ^ e.toNat := Nat.le_mul_of_pos_right _ (by positivity)
  cases mode with
  | cr =>
    rw [channel_cr, exactUnits_eq]
    exact rne32_of_subnormal (by decide) (by omega) (by omega)
  | f32Step =>
    obtain ⟨lower, upper⟩ := unitsOf_rne32_error (by decide) (mantissa_normal h0) (pattern_mantissa_lt m.isLt)
    have lower := Nat.mul_le_mul_right (2 ^ e.toNat) lower
    have upper := Nat.mul_le_mul_right (2 ^ e.toNat) upper
    have units : 2 ^ 24 * (255 * unitsOf (rne32 (m.toNat * 2 ^ 149) 255)) * 2 ^ e.toNat =
        2 ^ 24 * 255 * stepUnits m.toNat e.toNat := by
      rw [stepUnits]
      ring
    have mantissa (c : Nat) : c * (m.toNat * 2 ^ 149) * 2 ^ e.toNat = c * 2 ^ 149 * (m.toNat * 2 ^ e.toNat) := by ring
    rw [units, mantissa] at lower upper
    rw [channel_f32Step]
    exact rne32_of_subnormal (by positivity) (by omega) (by omega)

theorem channel_of_normal (mode : ConvRound) {m e : Byte} (normal : 1020 ≤ m.toNat * 2 ^ e.toNat) :
    2 ^ 23 ≤ (channel mode m e).toNat ∧ (channel mode m e).toNat ≤ 0x7F000000 := by
  have most := pattern_channel_le m e
  have least := le_pattern (p := exactUnits m.toNat e.toNat) (q := 255) (by decide) (by rw [exactUnits_eq]; omega)
  have value : (channel mode m e).toNat = pattern (exactUnits m.toNat e.toNat) 255 := by
    cases mode with
    | cr => rw [channel_cr, rne32_toNat (by omega)]
    | f32Step => rw [channel_modes_agree normal, channel_cr, rne32_toNat (by omega)]
  rw [value]
  exact ⟨least, most⟩

/-- Settles O39, by whether the result is subnormal. -/
theorem channelRange : Obligations.ChannelRange := by
  intro mode m e
  refine ⟨fun zero => zero ▸ channel_zero mode e, fun nonzero => ?_, ?_⟩
  · by_cases normal : 1020 ≤ m.toNat * 2 ^ e.toNat
    · obtain ⟨least, most⟩ := channel_of_normal mode normal
      omega
    · obtain ⟨least, most⟩ := channel_of_subnormal mode (m := m) (e := e) (by bv_omega) (by omega)
      omega
  · cases mode <;> decide +kernel

end

end Sys2Proof.Proofs
end

section
/-! A token handed over byte by byte (rules R6, R139; limited turns, log entry 2). A turn that sees one byte does to the
state what a turn that sees the whole stream does, but for the input it has not seen. -/

namespace Sys2Proof.Proofs

open Sys2Proof Sys2Proof.Machine

/-! ### The input exchanged -/

/-- `s` with another input stream. -/
def withInput (q : List Byte) (e : Bool) (s : State) : State := { s with q := q, ended := e }

section
variable {s : State} (q : List Byte) (e : Bool)

/-- The tests at the end of a token look at no input. -/
theorem closeLegacy_withInput : closeLegacy (withInput q e s) = withInput q e (closeLegacy s) := by
  change (if s.i.toNat < s.len then _ else _) = withInput q e (if s.i.toNat < s.len then _ else _)
  split_ifs <;> rfl

theorem closePlane_withInput : closePlane (withInput q e s) = withInput q e (closePlane s) := by
  change (if s.j.toNat < s.len then _ else if s.pl = 3 then _ else _) =
    withInput q e (if s.j.toNat < s.len then _ else if s.pl = 3 then _ else _)
  split_ifs <;> rfl

theorem exec_lqPixel_withInput {s' : State} (r g b x : Byte) (consumed : takeToken 4 s' = withInput q e (takeToken 4 s))
    (hf : s'.fsm = s.fsm) : exec (.lqPixel r g b x) s' = mapNext (withInput q e) (exec (.lqPixel r g b x) s) := by
  change execLqPixel r g b x s' = mapNext _ (execLqPixel r g b x s)
  unfold execLqPixel
  rw [consumed, hf]
  by_cases marker : s.fsm = .dMark
  · simp only [if_pos marker]
    exact congrArg _ (closeLegacy_withInput q e
      (s := { putPixels [wordOfBytes r g b x] (startLegacy pathFallback (takeToken 4 s)) with shift := 0 }))
  · simp only [if_neg marker]
    exact congrArg _ (closeLegacy_withInput q e
      (s := { putPixels [wordOfBytes r g b x] (takeToken 4 s) with shift := 0 }))

theorem exec_lqRun_withInput {s' : State} (c : Byte) (consumed : takeToken 4 s' = withInput q e (takeToken 4 s)) :
    exec (.lqRun c) s' = mapNext (withInput q e) (exec (.lqRun c) s) := by
  change execLqRun c s' = mapNext _ (execLqRun c s)
  unfold execLqRun
  rw [consumed]
  obtain ⟨t, ht⟩ : ∃ t, t = takeToken 4 s := ⟨_, rfl⟩
  rw [← ht]
  have length : runLength c (withInput q e t) = runLength c t := rfl
  have source : runSource (withInput q e t) = runSource t := rfl
  have place : (withInput q e t).len = t.len ∧ (withInput q e t).i = t.i := ⟨rfl, rfl⟩
  simp only [length, source, place]
  split_ifs
  · rfl
  · exact congrArg _ (closeLegacy_withInput q e (s := raiseShift t))
  · cases runSource t with
    | none => rfl
    | some w =>
      exact congrArg _ (closeLegacy_withInput q e
        (s := raiseShift (putPixels (List.replicate (runLength c t) w) t)))

theorem exec_adpMarker_withInput {s' : State} (h : BitVec 7) (l : Byte)
    (consumed : takeToken 4 s' = withInput q e (takeToken 4 s)) :
    exec (.adpMarker h l) s' = mapNext (withInput q e) (exec (.adpMarker h l) s) := by
  change execAdpMarker h l s' = mapNext _ (execAdpMarker h l s)
  unfold execAdpMarker
  rw [consumed, apply_ite (mapNext (withInput q e))]
  rfl

end

/-! ### A turn that sees one byte -/

section
variable {s : State} {b : Byte} {more : List Byte}

/-- A turn that would leave the input it sees empty leaves what it has not seen. -/
theorem limitedTurn_one {o : Out} (hq : s.q = b :: more)
    (turn : ∀ e, engineTurn (withInput [b] e s) = mapNext (withInput [] e) o) :
    limitedTurn 1 s = mapNext (withInput more s.ended) o := by
  have seen : seenState 1 s = withInput [b] (s.ended && decide (s.q.length ≤ 1)) s := by
    simp only [seenState, hq]
    rfl
  rw [limitedTurn, seen, turn, hq]
  cases o <;> rfl

/-- A part move on one byte. -/
theorem limitedTurn_part {u : State} (hr : s.inReset = false) (hq : s.q = b :: more)
    (noToken : ∀ e, nextInstr (withInput [b] e s) = none)
    (turn : ∀ e, partTurn (withInput [b] e s) = withInput [] e u) (left : u.q = more) (ended : u.ended = s.ended) :
    limitedTurn 1 s = .next u := by
  have here : withInput more s.ended u = u := by rw [← left, ← ended]; rfl
  rw [← here]
  refine limitedTurn_one (o := .next u) hq fun e => ?_
  rw [engineTurn, show (withInput [b] e s).inReset = false from hr, noToken, turn]
  rfl

/-- The engine's turns that see one byte, and what follows them. -/
def byteAgenda (n : Nat) (rest : List Turn) : List Turn := List.replicate n (.engine (some 1)) ++ rest

theorem runSteps_byte {n : Nat} {rest : List Turn} {u : State} (ha : s.agenda = byteAgenda (n + 1) rest)
    (turn : limitedTurn 1 { s with agenda := byteAgenda n rest } = .next u) : runSteps (n + 1) s = runSteps n u := by
  refine runSteps_succ n ?_
  have head : s.agenda = .engine (some 1) :: byteAgenda n rest := ha
  simp only [step, head, turn]

theorem runSteps_one {rest : List Turn} (ha : s.agenda = byteAgenda 1 rest) :
    runSteps 1 s = limitedTurn 1 { s with agenda := rest } := by
  obtain ⟨u, turn⟩ := engineTurn_next (seenState 1 { s with agenda := rest })
  have next : limitedTurn 1 { s with agenda := rest } =
      .next { u with q := u.q ++ s.q.drop 1, ended := s.ended } := by rw [limitedTurn, turn]; rfl
  exact (runSteps_byte ha next).trans next.symm

/-- A turn of an idle engine does nothing. -/
theorem runSteps_idle {n : Nat} {rest : List Turn} (ha : s.agenda = byteAgenda n rest) (idle : s.fsm = .idle) :
    runSteps n s = .next { s with agenda := rest } := by
  induction n generalizing s with
  | zero =>
    have same : rest = s.agenda := ha.symm
    rw [same]
    rfl
  | succ n ih =>
    refine (runSteps_byte (u := { s with agenda := byteAgenda n rest }) ha ?_).trans
      (ih (s := { s with agenda := _ }) rfl idle)
    rw [limitedTurn, engineTurn_of_idle (s := seenState 1 { s with agenda := byteAgenda n rest }) idle]
    simp only [mapNext, seenState, List.take_append_drop]

end

/-! ### Quads and the marker -/

/-- The token of four bytes in a state of the decoder. -/
def quadInstr (f : Fsm) (b0 b1 b2 b3 : Byte) : Instr :=
  if f = .dQuad then decodeQuad b0 b1 b2 b3 else decodeMarker b0 b1 b2 b3

/-- Four bytes stand before the engine, of which it has taken some. -/
structure QuadAt (s : State) (b0 b1 b2 b3 : Byte) (more : List Byte) : Prop where
  inReset : s.inReset = false
  fsm : s.fsm = .dQuad ∨ s.fsm = .dMark
  short : s.hold.length < 4
  bytes : s.hold ++ s.q = b0 :: b1 :: b2 :: b3 :: more

theorem quadInstr_length (f : Fsm) (b0 b1 b2 b3 : Byte) : (encode (quadInstr f b0 b1 b2 b3)).length = 4 := by
  unfold quadInstr decodeQuad decodeMarker
  split_ifs <;> rfl

section
variable {s : State} {b0 b1 b2 b3 : Byte} {more : List Byte}

theorem nextInstr_of_quadAt (h : QuadAt s b0 b1 b2 b3 more) : nextInstr s = some (quadInstr s.fsm b0 b1 b2 b3) := by
  obtain hf | hf := h.fsm
  · simp only [nextInstr, hf, h.bytes]
    rfl
  · simp only [nextInstr, hf, h.bytes]
    rfl

/-- A quad or the marker is executed on the state in which its bytes are consumed. -/
theorem exec_quadInstr_withInput {s' : State} {f : Fsm} (q : List Byte) (e : Bool)
    (consumed : takeToken 4 s' = withInput q e (takeToken 4 s)) (hf : s'.fsm = s.fsm) :
    exec (quadInstr f b0 b1 b2 b3) s' = mapNext (withInput q e) (exec (quadInstr f b0 b1 b2 b3) s) := by
  unfold quadInstr decodeQuad decodeMarker
  split_ifs
  · exact exec_lqRun_withInput q e b3 consumed
  · exact exec_lqPixel_withInput q e b0 b1 b2 b3 consumed hf
  · exact exec_adpMarker_withInput q e _ b3 consumed
  · exact exec_lqPixel_withInput q e b0 b1 b2 b3 consumed hf

theorem exec_quadInstr_congr {s' : State} {f : Fsm} (consumed : takeToken 4 s' = takeToken 4 s)
    (hf : s'.fsm = s.fsm) : exec (quadInstr f b0 b1 b2 b3) s' = exec (quadInstr f b0 b1 b2 b3) s :=
  (exec_quadInstr_withInput (s := s) (takeToken 4 s).q s.ended consumed hf).trans
    (exec_quadInstr_withInput (takeToken 4 s).q s.ended rfl rfl).symm

/-- The turn that sees the token's last byte. -/
theorem limitedTurn_last (h : QuadAt s b0 b1 b2 b3 more) (last : s.hold.length = 3) :
    limitedTurn 1 s = exec (quadInstr s.fsm b0 b1 b2 b3) s := by
  obtain ⟨x, y, z, held⟩ := List.length_eq_three.mp last
  have bytes := h.bytes
  rw [held] at bytes
  obtain ⟨rfl, rfl, rfl, hq⟩ : x = b0 ∧ y = b1 ∧ z = b2 ∧ s.q = b3 :: more := by simpa using bytes
  have left : takeToken 4 s = withInput more s.ended (takeToken 4 s) := by
    simp [takeToken, takeBytes, withInput, held, hq]
  refine (limitedTurn_one hq fun e => ?_).trans (exec_quadInstr_withInput more s.ended left rfl).symm
  have seen : QuadAt (withInput [b3] e s) x y z b3 [] := ⟨h.inReset, h.fsm, h.short, congrArg (· ++ [b3]) held⟩
  rw [engineTurn_of_nextInstr seen.inReset (nextInstr_of_quadAt seen)]
  refine exec_quadInstr_withInput [] e ?_ rfl
  simp [takeToken, takeBytes, withInput, held]

theorem nextInstr_of_short (hf : s.fsm = .dQuad ∨ s.fsm = .dMark) (short : (s.hold ++ s.q).length < 4) :
    nextInstr s = none := by
  obtain hf | hf := hf
  · obtain ⟨-, none⟩ | ⟨b0, b1, b2, b3, rest, bytes, -⟩ := decodedInstr_quad_cases (s.hold ++ s.q)
    · simp only [nextInstr, hf, none]
    · rw [bytes] at short
      exact absurd short (by simp)
  · obtain ⟨-, none⟩ | ⟨b0, b1, b2, b3, rest, bytes, -⟩ := decodedInstr_marker_cases (s.hold ++ s.q)
    · simp only [nextInstr, hf, none]
    · rw [bytes] at short
      exact absurd short (by simp)

/-- A turn that sees a byte before the token's last one takes it. -/
theorem limitedTurn_hold {b : Byte} {left : List Byte} (h : QuadAt s b0 b1 b2 b3 more) (before : s.hold.length < 3)
    (hq : s.q = b :: left) :
    limitedTurn 1 s = .next { s with hold := s.hold ++ [b], q := left, incount := s.incount + 1 } := by
  refine limitedTurn_part h.inReset hq (fun e => nextInstr_of_short h.fsm ?_) (fun e => ?_) rfl rfl
  · change (s.hold ++ [b]).length < 4
    rw [List.length_append]
    exact Nat.succ_lt_succ before
  · obtain hf | hf := h.fsm
    · rw [partTurn, show (withInput [b] e s).fsm = .dQuad from hf]
      rfl
    · rw [partTurn, show (withInput [b] e s).fsm = .dMark from hf]
      rfl

/-- A byte taken before is not consumed again. -/
theorem takeToken_hold {b : Byte} {left : List Byte} (short : s.hold.length < 4) (hq : s.q = b :: left) :
    takeToken 4 { s with hold := s.hold ++ [b], q := left, incount := s.incount + 1 } = takeToken 4 s := by
  obtain ⟨n, count⟩ : ∃ n, 4 - s.hold.length = n + 1 := ⟨3 - s.hold.length, by omega⟩
  have count' : 4 - (s.hold.length + 1) = n := by omega
  simp [takeToken, takeBytes, hq, count, count', BitVec.ofNat_add, BitVec.add_assoc, BitVec.add_comm 1#32]

theorem runSteps_quad {n : Nat} {rest : List Turn} (h : QuadAt s b0 b1 b2 b3 more) (hn : s.hold.length + n = 4)
    (ha : s.agenda = byteAgenda n rest) :
    runSteps n s = exec (quadInstr s.fsm b0 b1 b2 b3) { s with agenda := rest } := by
  induction n generalizing s with
  | zero => exact absurd h.short (by omega)
  | succ n ih =>
    have here : QuadAt { s with agenda := byteAgenda n rest } b0 b1 b2 b3 more := ⟨h.inReset, h.fsm, h.short, h.bytes⟩
    by_cases last : s.hold.length = 3
    · obtain rfl : n = 0 := by omega
      exact (runSteps_one ha).trans (limitedTurn_last here last)
    · obtain ⟨b, left, hq⟩ : ∃ b left, s.q = b :: left := by
        refine List.exists_cons_of_length_pos ?_
        have size := congrArg List.length h.bytes
        simp only [List.length_append, List.length_cons] at size
        omega
      rw [runSteps_byte ha (limitedTurn_hold here (show s.hold.length < 3 by omega) hq)]
      have moved : QuadAt
          { s with agenda := byteAgenda n rest, hold := s.hold ++ [b], q := left, incount := s.incount + 1 }
          b0 b1 b2 b3 more := by
        refine ⟨h.inReset, h.fsm, ?_, ?_⟩
        · change (s.hold ++ [b]).length < 4
          rw [List.length_append, List.length_singleton]
          omega
        · change s.hold ++ [b] ++ left = _
          rw [List.append_assoc, ← h.bytes, hq]
          rfl
      rw [ih moved (by simp only [List.length_append, List.length_singleton]; omega) rfl]
      exact exec_quadInstr_congr (takeToken_hold (s := { s with agenda := rest }) h.short hq) rfl

end

/-! ### A plane's control byte (rules R75, R76) -/

section
variable {s : State} {c : Byte} {more : List Byte}

theorem nextInstr_of_partToken (hf : s.fsm = .dCtl) (hq : s.q = c :: more) (part : PartToken c more) :
    nextInstr s = none := by
  obtain ⟨run, rfl⟩ | ⟨literal, missing⟩ := part
  · simp [nextInstr, hf, hq, decodedInstr, decode, decodePlane, run]
  · simp [nextInstr, hf, hq, decodedInstr, decode, decodePlane, literal, Nat.not_le.mpr missing]

/-- A turn that sees only the control byte takes it. -/
theorem limitedTurn_control (hr : s.inReset = false) (hf : s.fsm = .dCtl) (hq : s.q = c :: more)
    (part : PartToken c []) : limitedTurn 1 s = .next (controlTurn s) := by
  have left : (controlTurn s).q = more ∧ (controlTurn s).ended = s.ended := by
    obtain ⟨-, e⟩ | ⟨-, e⟩ := controlTurn_cases hq <;> rw [e] <;> exact ⟨congrArg (List.drop 1) hq, rfl⟩
  refine limitedTurn_part hr hq (fun e => nextInstr_of_partToken hf rfl part) (fun e => ?_) left.1 left.2
  rw [partTurn, show (withInput [c] e s).fsm = .dCtl from hf]
  simp only [controlTurn, hq]
  rw [apply_ite (withInput [] e)]
  rfl

/-- A control byte that announces too many bytes ends the command; the turns after it do nothing. -/
theorem runSteps_overrun {n : Nat} {rest : List Turn} (hr : s.inReset = false) (hf : s.fsm = .dCtl)
    (hq : s.q = c :: more) (part : PartToken c []) (ha : s.agenda = byteAgenda (n + 1) rest) (past : s.len < s.j.toNat + controlCount c) :
    runSteps (n + 1) s = .next (failAdaptive errOverrun (takeBytes 1 { s with agenda := rest })) := by
  have turn := limitedTurn_control (s := { s with agenda := byteAgenda n rest }) hr hf hq part
  obtain ⟨-, e⟩ | ⟨fits, -⟩ := controlTurn_cases (s := { s with agenda := byteAgenda n rest }) hq
  · rw [runSteps_byte ha (turn.trans (congrArg _ e)), runSteps_idle rfl rfl]
    rfl
  · exact absurd fits (by rw [overruns_of_lt (s := { s with agenda := byteAgenda n rest }) past]; nofun)

/-- A control byte is taken, and its data come next. -/
def afterControl (f : Fsm) (s : State) : State := { takeBytes 1 s with fsm := f }

/-- A control byte that announces bytes that fit leaves them to the next turns. -/
theorem limitedTurn_control_of_fits (hr : s.inReset = false) (hf : s.fsm = .dCtl) (hq : s.q = c :: more)
    (part : PartToken c []) (fits : s.j.toNat + controlCount c ≤ s.len) :
    limitedTurn 1 s = .next (afterControl (if isRunControl c then .dRun (runCount c) else .dLit c) s) := by
  rw [limitedTurn_control hr hf hq part]
  obtain ⟨past, -⟩ | ⟨-, e⟩ := controlTurn_cases hq
  · exact absurd past (not_overruns_of_le fits)
  · exact congrArg _ e

/-- The plane loop's tests do not look at the engine's state. -/
theorem closePlane_fsm (f : Fsm) : closePlane { s with fsm := f } = closePlane s := by
  change (if s.j.toNat < s.len then _ else if s.pl = 3 then _ else _) =
    (if s.j.toNat < s.len then _ else if s.pl = 3 then _ else _)
  split_ifs <;> rfl

theorem closePlane_afterControl (f : Fsm) (data : List Byte) (n : Nat) :
    closePlane (afterToken data n (afterControl f s)) = closePlane (afterToken data (1 + n) s) := by
  rw [← closePlane_fsm (s := afterToken data (1 + n) s) f, afterToken, afterToken, ← takeBytes_takeBytes]
  rfl

/-- A turn that writes the bytes it sees and comes to the plane loop's tests. -/
theorem limitedTurn_data {b : Byte} {data : List Byte} (hr : s.inReset = false) (hq : s.q = b :: more)
    (noToken : ∀ e, nextInstr (withInput [b] e s) = none)
    (turn : ∀ e, partTurn (withInput [b] e s) = closePlane (withInput [] e (afterToken data 1 s))) :
    limitedTurn 1 s = .next (closePlane (afterToken data 1 s)) := by
  have left : (closePlane (afterToken data 1 s)).q = more :=
    (closePlane_q _).trans (congrArg (List.drop 1) hq)
  have ended : (closePlane (afterToken data 1 s)).ended = s.ended := by
    obtain ⟨-, h⟩ | ⟨-, -, h⟩ | ⟨-, -, h⟩ := closePlane_cases (afterToken data 1 s) <;> rw [h] <;> rfl
  exact limitedTurn_part hr hq noToken (fun e => (turn e).trans (closePlane_withInput [] e)) left ended

/-! ### A run in two turns -/

/-- The run's value byte. -/
theorem limitedTurn_runValue {n : BitVec 7} {v : Byte} (hr : s.inReset = false) (hf : s.fsm = .dRun n)
    (hq : s.q = v :: more) :
    limitedTurn 1 s = .next (closePlane (afterToken (List.replicate n.toNat v) 1 s)) := by
  have state (e : Bool) : (withInput [v] e s).fsm = .dRun n := hf
  refine limitedTurn_data hr hq (fun e => by rw [nextInstr, state]) (fun e => ?_)
  rw [partTurn, state]
  rfl

theorem runSteps_runValue {n : BitVec 7} {v : Byte} {rest : List Turn} (hr : s.inReset = false) (hf : s.fsm = .dRun n)
    (hq : s.q = v :: more) (ha : s.agenda = byteAgenda 1 rest) :
    runSteps 1 s = .next (closePlane (afterToken (List.replicate n.toNat v) 1 { s with agenda := rest })) :=
  runSteps_byte ha (limitedTurn_runValue (s := { s with agenda := byteAgenda 0 rest }) hr hf hq)

theorem runSteps_run {n : BitVec 7} {v : Byte} {rest : List Turn} (positive : n ≠ 0) (hr : s.inReset = false)
    (hf : s.fsm = .dCtl) (hq : s.q = runControl n :: v :: more) (ha : s.agenda = byteAgenda 2 rest) :
    runSteps 2 s = exec (.adpRun n v) { s with agenda := rest } := by
  have run := isRunControl_runControl positive
  have count : controlCount (runControl n) = n.toNat := by rw [controlCount, if_pos run, runCount_runControl]
  have part : PartToken (runControl n) [] := .inl ⟨run, rfl⟩
  by_cases fits : s.j.toNat + n.toNat ≤ s.len
  · have control := limitedTurn_control_of_fits (s := { s with agenda := byteAgenda 1 rest }) hr hf hq part
      (by rw [count]; exact fits)
    rw [run, if_pos rfl, runCount_runControl] at control
    have value := runSteps_runValue (s := afterControl (.dRun n) { s with agenda := byteAgenda 1 rest }) hr rfl
      (congrArg (List.drop 1) hq) rfl
    rw [runSteps_byte ha control, value, exec_adpRun_of_fits (s := { s with agenda := rest }) v fits]
    exact congrArg _ (closePlane_afterControl (s := { s with agenda := rest }) (.dRun n) _ 1)
  · rw [runSteps_overrun hr hf hq part ha (by rw [count]; omega),
      exec_adpRun_of_overrun (s := { s with agenda := rest }) v (Nat.not_le.mp fits)]

/-! ### A literal byte by byte -/

/-- A literal byte that is not the last one. -/
theorem limitedTurn_literal_more {b : Byte} {n : Nat} (hr : s.inReset = false) (short : n + 2 ≤ 128)
    (hf : s.fsm = .dLit (BitVec.ofNat 8 (n + 2))) (hq : s.q = b :: more) :
    limitedTurn 1 s = .next { afterToken [b] 1 s with fsm := .dLit (BitVec.ofNat 8 (n + 1)) } := by
  have state (e : Bool) : (withInput [b] e s).fsm = .dLit (BitVec.ofNat 8 (n + 2)) := hf
  refine limitedTurn_part hr hq (fun e => by rw [nextInstr, state]) (fun e => ?_) (congrArg (List.drop 1) hq) rfl
  have count : (BitVec.ofNat 8 (n + 2)).toNat = n + 2 := literalControl_toNat short
  have left : BitVec.ofNat 8 (n + 2) - BitVec.ofNat 8 1 = BitVec.ofNat 8 (n + 1) := by bv_omega
  rw [partTurn, state]
  simp only [literalTurn, withInput, count, List.take_succ_cons, List.take_nil, List.length_singleton, left]
  exact if_neg (by omega)

/-- The last byte of a literal. -/
theorem limitedTurn_literal_last {b : Byte} (hr : s.inReset = false) (hf : s.fsm = .dLit 1) (hq : s.q = b :: more) :
    limitedTurn 1 s = .next (closePlane (afterToken [b] 1 s)) := by
  have state (e : Bool) : (withInput [b] e s).fsm = .dLit 1 := hf
  refine limitedTurn_data hr hq (fun e => by rw [nextInstr, state]) (fun e => ?_)
  rw [partTurn, state]
  rfl

theorem runSteps_literalData {b : Byte} {data : List Byte} {rest : List Turn} (hr : s.inReset = false)
    (short : data.length + 1 ≤ 128) (hf : s.fsm = .dLit (BitVec.ofNat 8 (data.length + 1)))
    (fits : s.j.toNat + (data.length + 1) ≤ s.len) (hq : s.q = b :: data ++ more)
    (ha : s.agenda = byteAgenda (data.length + 1) rest) :
    runSteps (data.length + 1) s =
      .next (closePlane (afterToken (b :: data) (data.length + 1) { s with agenda := rest })) := by
  induction data generalizing s b with
  | nil => exact runSteps_byte ha (limitedTurn_literal_last (s := { s with agenda := byteAgenda 0 rest }) hr hf hq)
  | cons c data ih =>
    rw [List.length_cons] at short fits ha ⊢
    have turn := limitedTurn_literal_more (s := { s with agenda := byteAgenda (data.length + 1) rest }) hr short hf hq
    obtain ⟨u, hu⟩ : ∃ u, u = { afterToken [b] 1 { s with agenda := byteAgenda (data.length + 1) rest } with
        fsm := .dLit (BitVec.ofNat 8 (data.length + 1)) } := ⟨_, rfl⟩
    have moved : u.j.toNat = s.j.toNat + 1 := by
      rw [hu]
      exact j_add_toNat (s := s) (n := 1) (by omega)
    have len : u.len = s.len := by rw [hu]; rfl
    rw [← hu] at turn
    rw [runSteps_byte ha turn, ih (s := u) (by rw [hu]; exact hr) (by omega) (by rw [hu]) (by omega)
      (by rw [hu]; exact congrArg (List.drop 1) hq) (by rw [hu]; rfl)]
    have joined := afterToken_afterToken (s := { s with agenda := rest }) (data := [b]) (n := 1) (data' := c :: data)
      (n' := data.length + 1) (show s.j.toNat + 1 ≤ s.len by omega)
    rw [Nat.add_comm (data.length + 1) 1]
    refine congrArg _ (.trans ?_ (congrArg closePlane joined))
    rw [← closePlane_fsm (s := afterToken _ _ (afterToken _ _ _)) (.dLit (BitVec.ofNat 8 (data.length + 1))), hu]
    rfl

/-- The literal of nothing is its control byte. -/
theorem exec_adpLit_nil_withInput {s' : State} (q : List Byte) (e : Bool)
    (consumed : takeBytes 1 s' = withInput q e (takeBytes 1 s)) :
    exec (.adpLit []) s' = mapNext (withInput q e) (exec (.adpLit []) s) := by
  change execAdpLit [] s' = mapNext _ (execAdpLit [] s)
  unfold execAdpLit
  rw [consumed, apply_ite (mapNext (withInput q e))]
  refine if_congr Iff.rfl rfl ?_
  exact congrArg _ (closePlane_withInput q e (s := putPlane [] (takeBytes 0 (takeBytes 1 s))))

theorem limitedTurn_literal_nil (hr : s.inReset = false) (hf : s.fsm = .dCtl) (hq : s.q = 0 :: more) :
    limitedTurn 1 s = exec (.adpLit []) s := by
  have left : takeBytes 1 s = withInput more s.ended (takeBytes 1 s) := by simp [takeBytes, withInput, hq]
  refine (limitedTurn_one hq fun e => ?_).trans (exec_adpLit_nil_withInput more s.ended left).symm
  have token : nextInstr (withInput [0] e s) = some (.adpLit []) := by
    simp only [nextInstr, show (withInput [0] e s).fsm = .dCtl from hf]
    rfl
  rw [engineTurn_of_nextInstr (s := withInput [0] e s) hr token]
  exact exec_adpLit_nil_withInput [] e rfl

theorem runSteps_literal {data : List Byte} {rest : List Turn} (short : data.length ≤ 128) (hr : s.inReset = false)
    (hf : s.fsm = .dCtl) (hq : s.q = BitVec.ofNat 8 data.length :: (data ++ more))
    (ha : s.agenda = byteAgenda (data.length + 1) rest) :
    runSteps (data.length + 1) s = exec (.adpLit data) { s with agenda := rest } := by
  match data with
  | [] => exact (runSteps_one ha).trans (limitedTurn_literal_nil (s := { s with agenda := rest }) hr hf hq)
  | b :: data =>
    rw [List.length_cons] at short hq ha ⊢
    have literal := isRunControl_literal short
    have size := literalControl_toNat short
    have count : controlCount (BitVec.ofNat 8 (data.length + 1)) = data.length + 1 := by
      rw [controlCount, literal, if_neg nofun, size]
    have part : PartToken (BitVec.ofNat 8 (data.length + 1)) [] := .inr ⟨literal, by rw [size]; exact Nat.succ_pos _⟩
    by_cases fits : s.j.toNat + (data.length + 1) ≤ s.len
    · have control := limitedTurn_control_of_fits (s := { s with agenda := byteAgenda (data.length + 1) rest }) hr hf hq
        part (by rw [count]; exact fits)
      rw [literal, if_neg nofun] at control
      have written := runSteps_literalData (s := afterControl (.dLit (BitVec.ofNat 8 (data.length + 1)))
        { s with agenda := byteAgenda (data.length + 1) rest }) hr short rfl fits (congrArg (List.drop 1) hq) rfl
      rw [runSteps_byte ha control, written,
        exec_adpLit_of_fits (s := { s with agenda := rest }) (data := b :: data) fits]
      exact congrArg _ (closePlane_afterControl (s := { s with agenda := rest }) _ _ _)
    · rw [runSteps_overrun hr hf hq part ha (by rw [count]; omega),
        exec_adpLit_of_overrun (s := { s with agenda := rest }) (data := b :: data) (Nat.not_le.mp fits)]

end

/-- The bytes of a quad or marker that the engine has not taken yet, one turn each. -/
theorem runSteps_quadAgenda {s : State} {b0 b1 b2 b3 : Byte} {more : List Byte} (rest : List Turn)
    (h : QuadAt s b0 b1 b2 b3 more) {n : Nat}
    (hn : n = (encode (quadInstr s.fsm b0 b1 b2 b3)).length - (if s.fsm = .dCtl then 0 else s.hold.length)) :
    runSteps n { s with agenda := byteAgenda n rest } =
      exec (quadInstr s.fsm b0 b1 b2 b3) { s with agenda := rest } := by
  have notPlane : s.fsm ≠ .dCtl := by obtain hf | hf := h.fsm <;> rw [hf] <;> decide
  rw [quadInstr_length, if_neg notPlane] at hn
  have short := h.short
  have here : QuadAt { s with agenda := byteAgenda n rest } b0 b1 b2 b3 more := ⟨h.inReset, h.fsm, h.short, h.bytes⟩
  exact runSteps_quad here (show s.hold.length + n = 4 by omega) rfl

/-- Settles O24, by the token at the head of the stream. -/
theorem tokenInOneByteTurns : Obligations.TokenInOneByteTurns := by
  intro s i rest hr hf hh token n
  have whole : step { s with agenda := .engine none :: rest } = exec i { s with agenda := rest } :=
    (step_of_engine rfl).trans (engineTurn_of_nextInstr (s := { s with agenda := rest }) hr token)
  rw [whole]
  have state (f : Fsm) (h : s.fsm = f) (other : f ≠ .dQuad ∧ f ≠ .dMark ∧ f ≠ .dCtl) : False := by
    obtain hf | hf | hf := hf <;> exact absurd (h.symm.trans hf) (by simp [other])
  cases token_of_nextInstr token with
  | @quad b0 b1 b2 b3 more fsm bytes =>
    have token : decodeQuad b0 b1 b2 b3 = quadInstr s.fsm b0 b1 b2 b3 := (if_pos fsm).symm
    have turns := runSteps_quadAgenda (n := n) rest ⟨hr, .inl fsm, hh, bytes⟩ (by rw [← token])
    rw [token]
    exact turns
  | @marker b0 b1 b2 b3 more fsm bytes =>
    have token : decodeMarker b0 b1 b2 b3 = quadInstr s.fsm b0 b1 b2 b3 := (if_neg (by rw [fsm]; decide)).symm
    have turns := runSteps_quadAgenda (n := n) rest ⟨hr, .inr fsm, hh, bytes⟩ (by rw [← token])
    rw [token]
    exact turns
  | @run m v more fsm positive bytes =>
    have two : n = 2 := by simp [n, encode, fsm]
    rw [two]
    exact runSteps_run (s := { s with agenda := _ }) positive hr fsm bytes rfl
  | @literal data more fsm short bytes =>
    have count : n = data.length + 1 := by simp [n, encode, fsm]
    rw [count]
    exact runSteps_literal (s := { s with agenda := _ }) short hr fsm bytes rfl
  | rawPixel fsm => exact (state _ fsm (by decide)).elim
  | encMarker fsm => exact (state _ fsm (by decide)).elim

end Sys2Proof.Proofs
end
